-- ==== Sys2Proof/Word.lean ====
section
/-! DEFINITION. The words of the Ethernet core: bytes and 64-bit register words (00_scope.md rule R10, `WORD_BYTES`). -/

namespace Sys2Proof

/-- One octet of a frame or of a buffer window (20_memory.md rule R78). -/
abbrev Byte := BitVec 8

/-- One 64-bit register value or window word (20_memory.md rule R73). -/
abbrev Word := BitVec 64

end Sys2Proof
end

