-- ==== Sys2Proof/Config.lean ====
section
/-! DEFINITION. The parameters of the model (00_scope.md rule R10) and the free values: constants without a body, of which
nothing can be proved, one for each value the spec calls a draw (10_state.md rule R50; 92_eei_decisions.md D24, D34, D48). -/

namespace Sys2Proof

/-- `DEVICE_MODE` (60_exceptions.md rule R300): the normative DEVICE whose every answer is a draw, or the spec's concrete one. -/
inductive DeviceMode where
  | abstr
  | reference
deriving DecidableEq, Repr

/-- `MACHI_WRITEBACK` (41_mac_resolver.md rule R163; 90_conflicts.md C6). -/
inductive Writeback where
  | masked
  | clearIrqOnly
deriving DecidableEq, Repr

/-- The parameters of 00_scope.md rule R10 that a machine may fix differently. No step changes them. -/
structure Config where
  ringDepth       : Nat
  diagBuild       : Bool
  txWaitIdle      : Bool
  txWaitCap       : Nat
  tplrBusyMask    : Word
  rplrLengthMask  : Word
  machiWriteback  : Writeback
  deviceMode      : DeviceMode
deriving DecidableEq, Repr

/-- `TPLR_BUSY_MASK` is OPEN (00_scope.md rule R10; 91_not_in_source.md N7): an opaque constant. Log 8. -/
opaque Config.openBusyMask : Word

/-- The `n`-th draw made beyond the script (any 64-bit value; 60_exceptions.md rule R300). Log 3. -/
opaque Config.draw : Nat → Word

/-- Byte `k` past the end of the HOST's buffer, in the `n`-th such send (42_transmit.md rule R184). Log 19. -/
opaque Config.hostByte : Nat → Nat → Byte

/-- The byte a buffer window holds at an offset that nothing has written (10_state.md rule R50). Log 6. -/
opaque Config.unwrittenByte : Nat → Byte

/-- The value a window register holds at reset (10_state.md rule R50; 60_exceptions.md rule R310). Log 5. -/
opaque Config.resetWord : Nat → Word

/-- The frame a TPLR value beyond the transmit window triggers (60_exceptions.md rule R306 covers `v` up to 0x800 only).
Log 20. -/
opaque Config.overlongFrame : Nat → List Byte

/-- What an MDIOCTRL read answers, from the register's content and a draw: the spec gives the read no value (10_state.md rule
R39). Log 24. -/
opaque Config.mdioctrlAnswer : Word → Word → Word

/-- The defaults of 00_scope.md rule R10. -/
def Config.reset : Config where
  ringDepth      := 8
  diagBuild      := false
  txWaitIdle     := false
  txWaitCap      := 1000
  tplrBusyMask   := Config.openBusyMask
  rplrLengthMask := BitVec.allOnes 64
  machiWriteback := .masked
  deviceMode     := .abstr

end Sys2Proof
end

