-- ==== Sys2Proof/Syntax.lean ====
section
/-! DEFINITION. The syntax: every row of spec/opcode_table.json as a constructor of `Instr`, and the requests that carry the
words of an instruction (30_encoding.md rules R100 to R103, R114). -/

namespace Sys2Proof

/-- The direction of a register access: bit 15 of a bus-request word (30_encoding.md rule R102). -/
inductive Dir where
  | read
  | write
deriving DecidableEq, Repr

/-- How a register access is issued: by the control accessor `read`/`write` (40_register_access.md rule R140), or as the
bare `RegRead`/`RegWrite` of a window copy, which the diagnostic check leaves alone (90_conflicts.md C5). -/
inductive Via where
  | copy
  | control
deriving DecidableEq, Repr

/-- The operations that can be in progress (10_state.md rule R33): the six of the HOST, the two internal codes, and the
Register Access Layer's `read`/`write`, which have no code. -/
inductive Op where
  | probe
  | start
  | send
  | recv
  | stop
  | hwaddr
  | resolve
  | classify
  | access
deriving DecidableEq, Repr

/-- What a read request selects (the rows of 30_encoding.md rule R103 with direction R). -/
inductive ReadReg where
  | maclo
  | machi
  | tplr
  | mdioctrl
  | rfcs
  | rsr
  | rbad
  | rplr (slot : BitVec 3)
  /-- Word `index` of RXBUFF[slot]: byte index `8 * index` of 30_encoding.md rule R103. -/
  | rxbuff (slot : BitVec 3) (index : BitVec 8)
deriving DecidableEq, Repr

/-- What a write request selects (the rows of 30_encoding.md rule R103 with direction W). -/
inductive WriteReg where
  | machi
  | tplr
  | tfcs
  | mdioctrl
  | rfcs
  | rsr
  /-- Word `index` of TXBUFF: offset `0x1000 + 8 * index`. -/
  | txbuff (index : BitVec 8)
deriving DecidableEq, Repr

/-- One constructor per row of spec/opcode_table.json. -/
inductive Instr where
  | probe (ioBase : Word) (phyAddr : Int)
  | start
  | send (frame : List Byte) (length : Nat)
  | recv
  | stop
  | hwaddr
  | resolve
  | classify (etype : BitVec 16)
  | init
  | macloR
  | machiR
  | machiW (v : Word)
  | tplrR
  | tplrW (v : Word)
  | tfcsW (v : Word)
  | mdioctrlR
  | mdioctrlW (v : Word)
  | rfcsR
  | rfcsW (v : Word)
  | rsrR
  | rsrW (v : Word)
  | rbadR
  | rplrR (slot : BitVec 3)
  | txbuffW (index : BitVec 8) (v : Word)
  | rxbuffR (slot : BitVec 3) (index : BitVec 8) (via : Via)
  | classifyIPv4
  | classifyARP
  | classifyIPv6
  | classifyUnknown (etype : BitVec 16)
deriving DecidableEq, Repr

/-- `init` expands to `start` (45_lifecycle.md rule R267); every other instruction is its own core form. -/
def Instr.core : Instr → Instr
  | .init => .start
  | i => i

/-- The arguments that travel beside an operation code (30_encoding.md rule R101). An operation reads only its own. -/
structure Args where
  ioBase  : Word := 0
  phyAddr : Int := 0
  frame   : List Byte := []
  length  : Nat := 0
  etype   : BitVec 16 := 0
deriving DecidableEq, Repr

/-- The words of one instruction as they are presented to the block, one constructor per layer of 30_encoding.md rule R100. -/
inductive Request where
  /-- A HOST invocation: the 8-bit operation code and its arguments (rule R101). -/
  | host (code : BitVec 8) (args : Args)
  /-- The CORE's own invocation of an internal operation (codes 0x80 and 0x81, rule R115). -/
  | internal (code : BitVec 8) (args : Args)
  /-- A bus-request word with the data of a write beside it (rule R102): a bare `RegRead` or `RegWrite`. -/
  | bus (q : BitVec 16) (data : Word)
  /-- A call of the accessor `read(off)` or `write(off, v)` (40_register_access.md rules R140, R141), for any offset. -/
  | access (dir : Dir) (off : Nat) (data : Word)
  /-- An Ethertype presented to the classifier decode (rule R114). -/
  | ethertype (etype : BitVec 16)
deriving DecidableEq, Repr

end Sys2Proof
end

