-- ==== Sys2Proof/WellFormed.lean ====
section
/-! DEFINITION. Which instructions are well formed. Register numbers and word indexes are well formed by their types; the one
row whose operand the table restricts is the classifier's catch-all, "any other" Ethertype (30_encoding.md rule R114). -/

namespace Sys2Proof

/-- The catch-all row stands for an Ethertype that no earlier row takes (30_encoding.md rule R114, first matching row wins). -/
def Instr.wellFormed : Instr → Bool
  | .classifyUnknown e => e != 0x0800#16 && e != 0x0806#16 && e != 0x86DD#16
  | _ => true

/-- The parameter values 00_scope.md rule R11 admits. -/
def Config.wellFormed (c : Config) : Bool :=
  decide (1 ≤ c.ringDepth ∧ c.ringDepth ≤ 8)

end Sys2Proof
end

