-- ==== Sys2Proof/Decode.lean ====
section
/-! DEFINITION. Decoding, total on every request, with each rejection under a name; and the encoder, written from the same
tables (30_encoding.md rules R101, R103, R114, R115). -/

namespace Sys2Proof

/-- The register a bus request selects, with its direction. -/
inductive BusTarget where
  | rd (r : ReadReg)
  | wr (r : WriteReg)
deriving DecidableEq, Repr

/-- One row of the address decode of 30_encoding.md rule R103. -/
structure BusRow where
  mtch  : BitVec 16
  mask  : BitVec 16
  build : BitVec 16 → BusTarget

/-- The address decode of 30_encoding.md rule R103, in the order the rule lists it. -/
def busTable : List BusRow :=
  [ ⟨0x0800, 0xFFFF, fun _ => .rd .maclo⟩,
    ⟨0x0808, 0xFFFF, fun _ => .rd .machi⟩,
    ⟨0x8808, 0xFFFF, fun _ => .wr .machi⟩,
    ⟨0x0810, 0xFFFF, fun _ => .rd .tplr⟩,
    ⟨0x8810, 0xFFFF, fun _ => .wr .tplr⟩,
    ⟨0x8818, 0xFFFF, fun _ => .wr .tfcs⟩,
    ⟨0x0820, 0xFFFF, fun _ => .rd .mdioctrl⟩,
    ⟨0x8820, 0xFFFF, fun _ => .wr .mdioctrl⟩,
    ⟨0x0828, 0xFFFF, fun _ => .rd .rfcs⟩,
    ⟨0x8828, 0xFFFF, fun _ => .wr .rfcs⟩,
    ⟨0x0830, 0xFFFF, fun _ => .rd .rsr⟩,
    ⟨0x8830, 0xFFFF, fun _ => .wr .rsr⟩,
    ⟨0x0838, 0xFFFF, fun _ => .rd .rbad⟩,
    ⟨0x0840, 0xFFC7, fun q => .rd (.rplr (q.extractLsb' 3 3))⟩,
    ⟨0x9000, 0xF807, fun q => .wr (.txbuff (q.extractLsb' 3 8))⟩,
    ⟨0x4000, 0xC007, fun q => .rd (.rxbuff (q.extractLsb' 11 3) (q.extractLsb' 3 8))⟩ ]

/-- `q & mask = match` (30_encoding.md rule R103). -/
def BusRow.hits (r : BusRow) (q : BitVec 16) : Bool := q &&& r.mask == r.mtch

/-- The first matching row wins; no row matching means the word selects no register. -/
def decodeBusWord (q : BitVec 16) : Option BusTarget :=
  (busTable.find? fun r => r.hits q).map fun r => r.build q

/-- The bus-request word of an access (30_encoding.md rule R102), for an offset below the window's size. -/
def busWord (dir : Dir) (off : Nat) : BitVec 16 :=
  match dir with
  | .read  => BitVec.ofNat 16 off
  | .write => 0x8000#16 ||| BitVec.ofNat 16 off

/-- Why an offset selects no register: `F_MISALIGNED` is reported before `F_UNMAPPED` (60_exceptions.md rule R285). -/
inductive MapError where
  | misaligned
  | unmapped
deriving DecidableEq, Repr

/-- The outcome of mapping an offset to a register. -/
inductive Mapped (α : Type) where
  | at (r : α)
  | bad (e : MapError)
deriving DecidableEq, Repr

/-- The register a read at `off` selects (20_memory.md rules R71, R73, R76; 40_register_access.md rule R140). -/
def mapRead (off : Nat) : Mapped ReadReg :=
  if off % 8 ≠ 0 then .bad .misaligned
  else if 0x8000 ≤ off then .bad .unmapped
  else match decodeBusWord (busWord .read off) with
    | some (.rd r) => .at r
    | _ => .bad .unmapped

/-- The register a write at `off` selects (20_memory.md rules R71, R73, R76; 40_register_access.md rule R141). -/
def mapWrite (off : Nat) : Mapped WriteReg :=
  if off % 8 ≠ 0 then .bad .misaligned
  else if 0x8000 ≤ off then .bad .unmapped
  else match decodeBusWord (busWord .write off) with
    | some (.wr r) => .at r
    | _ => .bad .unmapped

/-- Why a request is no instruction. -/
inductive DecodeError where
  /-- An unassigned operation code (30_encoding.md rule R115). -/
  | invalidCode (code : BitVec 8)
  /-- An internal operation code invoked by the HOST (30_encoding.md rule R115). -/
  | internalCode (code : BitVec 8)
  /-- An access whose offset selects no register (30_encoding.md rule R103, "any other"). -/
  | noRegister (e : MapError) (dir : Dir) (off : Nat) (via : Via)
deriving DecidableEq, Repr

/-- What a request decodes to. -/
inductive Decoded where
  | instr (i : Instr)
  | reject (e : DecodeError)
deriving DecidableEq, Repr

/-- The bus-request row of a read register. -/
def instrOfRead (r : ReadReg) (via : Via) : Instr :=
  match r with
  | .maclo => .macloR
  | .machi => .machiR
  | .tplr => .tplrR
  | .mdioctrl => .mdioctrlR
  | .rfcs => .rfcsR
  | .rsr => .rsrR
  | .rbad => .rbadR
  | .rplr slot => .rplrR slot
  | .rxbuff slot index => .rxbuffR slot index via

/-- The bus-request row of a written register, with its data. -/
def instrOfWrite (r : WriteReg) (v : Word) : Instr :=
  match r with
  | .machi => .machiW v
  | .tplr => .tplrW v
  | .tfcs => .tfcsW v
  | .mdioctrl => .mdioctrlW v
  | .rfcs => .rfcsW v
  | .rsr => .rsrW v
  | .txbuff index => .txbuffW index v

/-- A read at `off`, decoded. -/
def decodeRead (off : Nat) (via : Via) : Decoded :=
  match mapRead off with
  | .at r => .instr (instrOfRead r via)
  | .bad e => .reject (.noRegister e .read off via)

/-- A write of `v` at `off`, decoded. -/
def decodeWrite (off : Nat) (v : Word) (via : Via) : Decoded :=
  match mapWrite off with
  | .at r => .instr (instrOfWrite r v)
  | .bad e => .reject (.noRegister e .write off via)

/-- The operation codes a HOST may invoke (30_encoding.md rules R101, R115). -/
def decodeHost (code : BitVec 8) (a : Args) : Decoded :=
  if code = 0x01#8 then .instr (.probe a.ioBase a.phyAddr)
  else if code = 0x02#8 then .instr .start
  else if code = 0x03#8 then .instr (.send a.frame a.length)
  else if code = 0x04#8 then .instr .recv
  else if code = 0x05#8 then .instr .stop
  else if code = 0x06#8 then .instr .hwaddr
  else if code = 0x80#8 ∨ code = 0x81#8 then .reject (.internalCode code)
  else .reject (.invalidCode code)

/-- The operation codes the CORE invokes itself (30_encoding.md rules R101, R115). -/
def decodeInternal (code : BitVec 8) (a : Args) : Decoded :=
  if code = 0x80#8 then .instr .resolve
  else if code = 0x81#8 then .instr (.classify a.etype)
  else .reject (.invalidCode code)

/-- The classifier decode (30_encoding.md rule R114): the first matching row wins. -/
def decodeEthertype (e : BitVec 16) : Instr :=
  if e = 0x0800#16 then .classifyIPv4
  else if e = 0x0806#16 then .classifyARP
  else if e = 0x86DD#16 then .classifyIPv6
  else .classifyUnknown e

/-- The decoder, total on every request. A bus-request word is one bare `RegRead` or `RegWrite`, as 30_encoding.md rule R100 (2)
says, and not the accessor's call, though 40_register_access.md rules R140 and R141 give the accessor that word for its encoding too:
which of the two a word stands for is the model's choice (DESIGN CHOICE, log 38). It shows in a diagnostic build alone. -/
def decode : Request → Decoded
  | .host code a => decodeHost code a
  | .internal code a => decodeInternal code a
  | .bus q v =>
    if q.getLsbD 15 then decodeWrite (q.extractLsb' 0 15).toNat v .copy
    else decodeRead (q.extractLsb' 0 15).toNat .copy
  | .access .read off _ => decodeRead off .control
  | .access .write off v => decodeWrite off v .control
  | .ethertype e => .instr (decodeEthertype e)

/-- The words of an instruction, from the encoding tables of 30_encoding.md rules R101, R103 and R114. `init` has the word of
`start` (45_lifecycle.md rule R267). -/
def encode : Instr → Request
  | .probe b p => .host 0x01 { ioBase := b, phyAddr := p }
  | .start => .host 0x02 {}
  | .send f n => .host 0x03 { frame := f, length := n }
  | .recv => .host 0x04 {}
  | .stop => .host 0x05 {}
  | .hwaddr => .host 0x06 {}
  | .resolve => .internal 0x80 {}
  | .classify e => .internal 0x81 { etype := e }
  | .init => .host 0x02 {}
  | .macloR => .bus 0x0800 0
  | .machiR => .bus 0x0808 0
  | .machiW v => .bus 0x8808 v
  | .tplrR => .bus 0x0810 0
  | .tplrW v => .bus 0x8810 v
  | .tfcsW v => .bus 0x8818 v
  | .mdioctrlR => .bus 0x0820 0
  | .mdioctrlW v => .bus 0x8820 v
  | .rfcsR => .bus 0x0828 0
  | .rfcsW v => .bus 0x8828 v
  | .rsrR => .bus 0x0830 0
  | .rsrW v => .bus 0x8830 v
  | .rbadR => .bus 0x0838 0
  | .rplrR slot => .bus (0b0000100001#10 ++ slot ++ 0#3) 0
  | .txbuffW index v => .bus (0b10010#5 ++ index ++ 0#3) v
  | .rxbuffR slot index .copy => .bus (0b01#2 ++ slot ++ index ++ 0#3) 0
  | .rxbuffR slot index .control => .access .read (0x4000 + 0x800 * slot.toNat + 8 * index.toNat) 0
  | .classifyIPv4 => .ethertype 0x0800
  | .classifyARP => .ethertype 0x0806
  | .classifyIPv6 => .ethertype 0x86DD
  | .classifyUnknown e => .ethertype e

/-- The request whose word is `w` in a table row of `nbits` bits, every argument and every data word zero. An 8-bit row is an
operation code: an internal code is presented as the CORE's own invocation, since a HOST may not invoke it (30_encoding.md
rule R115). A 16-bit row is a bus-request word or an Ethertype; spec/opcode_table.json lists the bus requests first, and a
word that is no bus request is read as an Ethertype (log 13). -/
def tableRequest (nbits w : Nat) : Option Request :=
  if nbits = 8 then
    let code := BitVec.ofNat 8 w
    some (if code = 0x80#8 ∨ code = 0x81#8 then .internal code {} else .host code {})
  else if nbits = 16 then
    let q := BitVec.ofNat 16 w
    match decode (.bus q 0) with
    | .instr _ => some (.bus q 0)
    | .reject _ => some (.ethertype q)
  else none

/-- The instruction the decoder reads from a word numbered as spec/opcode_table.json numbers it. -/
def decodeTableWord (nbits w : Nat) : Option Instr :=
  match tableRequest nbits w with
  | none => none
  | some r =>
    match decode r with
    | .instr i => some i
    | .reject _ => none

end Sys2Proof
end

