-- ==== Sys2Proof/Machine/State.lean ====
section
/-! DEFINITION. The machine's state as plain data (10_state.md; 60_exceptions.md rule R301), the reasons a step can stop, and the
state after reset (10_state.md rules R49, R50; 70_reset_and_hazards.md rule R340). -/

namespace Sys2Proof.Machine

/-- The model faults of 60_exceptions.md rule R283, each with the value the rule records. Every one is safe: it ends the run
where the source calls the behaviour undefined or forbids the use. -/
inductive Fault where
  /-- `F_UNMAPPED`: an access at an offset that selects no register, or a `probe` base whose window would wrap. Raised by the
  register accesses and `probe`. Safe. -/
  | unmapped (off : Nat)
  /-- `F_MISALIGNED`: an offset or base that is no multiple of 8. Raised by the register accesses and `probe`. Safe. -/
  | misaligned (off : Nat)
  /-- `F_SLOT_RANGE`: RSR.first read as `RING_DEPTH` or more. Raised by `recv`. Safe. -/
  | slotRange (slot : Nat)
  /-- `F_TX_OVERLAP`: TFCS, TXBUFF or TPLR written while the REFERENCE DEVICE transmits. Raised by the register writes. Safe. -/
  | txOverlap (off : Nat)
  /-- `F_NOT_PROBED`: an operation other than `probe` before `probe`. Raised by every operation that needs the base. Safe. -/
  | notProbed (op : Op)
  /-- `F_NOT_STARTED`: `send` or `recv` before `start`. Safe. -/
  | notStarted (op : Op)
  /-- `F_REPROBE`: `probe` on a probed context. Safe. -/
  | reprobe (op : Op)
  /-- `F_CONCURRENT`: a HOST invocation of `new` while `running` is in progress. Safe. -/
  | concurrent (running new : Op)
  /-- `F_DEVICE_CONFIG`: RFCS of the REFERENCE DEVICE written with a value outside 1 to 8. Safe. -/
  | deviceConfig (v : Word)
deriving DecidableEq, Repr

/-- Requests the model has no move for (30_encoding.md rule R115). -/
inductive Refusal where
  /-- An instruction without a meaning in the model; raised by arms of `exec` only. Safe. -/
  | notModelled (mnemonic : String)
  /-- An unassigned operation code; raised by `step`. Safe. -/
  | invalidCode (code : BitVec 8)
  /-- An internal operation code invoked by the HOST; raised by `step`. Safe. -/
  | internalCode (code : BitVec 8)
deriving DecidableEq, Repr

/-- The classes of 44_classifier.md rule R241: exactly these four. -/
inductive Class where
  | acceptIPv4
  | acceptARP
  | dropIPv6
  | dropUnknown
deriving DecidableEq, Repr

/-- The error kinds of 60_exceptions.md rule R281. `unsupportedProtocol` keeps the class, which differs only in the trace
(44_classifier.md rule R243). -/
inductive ErrorKind where
  | oversizeFrame
  | ringSlotError
  | undersizeFrame
  | unsupportedProtocol (c : Class)
  | registerOutOfRange
  | timeout
deriving DecidableEq, Repr

/-- The third part of a trace record (60_exceptions.md rule R281): the slot of a receive, the length of a send, or the offset
of a rejected access. -/
inductive Detail where
  | slot (n : Nat)
  | length (n : Nat)
  | offset (n : Nat)
deriving DecidableEq, Repr

/-- One record of the model's trace (60_exceptions.md rule R281). -/
structure TraceRecord where
  kind   : ErrorKind
  op     : Op
  detail : Detail
deriving DecidableEq, Repr

/-- One access performed on the register bus: direction, byte address `IO_BASE + off`, and the 64-bit value
(20_memory.md rules R74, R75; 40_register_access.md rule R146). -/
structure Access where
  dir  : Dir
  addr : Word
  val  : Word
deriving DecidableEq, Repr

/-- What a completed request returns to its caller (30_encoding.md rule R101). -/
inductive Result where
  | unit
  /-- `send` with `TX_WAIT_IDLE` and a DEVICE that stayed busy (42_transmit.md rule R190). -/
  | timeout
  | noFrame
  /-- `Frame(buf, len)`: a fresh buffer of `ceil8(len)` bytes and the payload length (43_receive.md rule R231). -/
  | frame (buf : List Byte) (len : Nat)
  /-- The six octets of a resolution (41_mac_resolver.md rule R160). -/
  | mac (m : Vector Byte 6)
  /-- The value of a register read (40_register_access.md rule R140). -/
  | value (v : Word)
  /-- The classifier's answer (44_classifier.md rule R240). -/
  | verdict (c : Class)
deriving DecidableEq, Repr

/-- The lettered parts of a pseudocode step (43_receive.md rule R200 splits step 6 into `a`, `b` and `c`). -/
inductive SubStep where
  | whole
  | a
  | b
  | c
deriving DecidableEq, Repr

/-- The index of a register access or decision point in an operation's pseudocode (10_state.md rule R33): the number of its
step there, the lettered part, and, in a step that stands for several accesses, which of them (log 29). -/
structure StepIndex where
  number : Nat
  part   : SubStep
  item   : Nat
deriving DecidableEq, Repr

/-- The CORE's position (10_state.md rule R33): idle, or the running operation and the index of its next register access or
decision point. -/
inductive Position where
  | idle
  | running (op : Op) (step : StepIndex)
deriving DecidableEq, Repr

/-- The REFERENCE DEVICE's own steps (60_exceptions.md rules R303, R307). The 4 FCS bytes of an arrival are any value. -/
inductive DeviceMove where
  | arrive (frame : List Byte) (err : BitVec 2) (fcs : BitVec 32)
  | lose (frame : List Byte)
  | txDone
deriving DecidableEq, Repr

/-- What another agent may do between two accesses of an operation: a DEVICE step (20_memory.md rule R84), or a HOST
invocation, which is forbidden (60_exceptions.md rule R297), of an internal operation or a register access too (log 40). -/
inductive Move where
  | device (d : DeviceMove)
  | invoke (op : Op)
deriving DecidableEq, Repr

/-- One event of a run between operations: a request, or a DEVICE step. -/
inductive Event where
  | request (r : Request)
  | device (d : DeviceMove)
deriving DecidableEq, Repr

/-- The bytes of the buffer windows that something has written, keyed by window offset, strictly rising. -/
abbrev Memory := List Host.Cell

/-- The Device Context (10_state.md rules R30, R31). -/
structure Ctx where
  ioBase  : Option Word
  phyAddr : Option Int
  mac     : Option (Vector Byte 6)
  probed  : Bool
  started : Bool
deriving DecidableEq, Repr

/-- The DEVICE's state behind the register window (10_state.md rules R34 to R44, R48; 60_exceptions.md rule R301). -/
structure Device where
  maclo    : Word
  machi    : Word
  tfcs     : Word
  mdioctrl : Word
  first    : BitVec 4
  next     : BitVec 4
  rbadHi   : BitVec 48
  bad      : Vector (BitVec 2) 8
  rplr     : Vector Word 8
  depth    : Option Nat
  txBusy   : Bool
  pending  : List Byte
  wire     : List (List Byte)
  buf      : Memory
deriving DecidableEq, Repr

/-- The whole machine. `cfg` is never changed by a step; `script`, `schedule` and `agenda` are the choices of the other
agents; `trace`, `bus` and `returned` are records. -/
structure State where
  cfg      : Config
  ctx      : Ctx
  position : Position
  dev      : Device
  script   : List Word
  draws    : Nat
  schedule : List (List Move)
  agenda   : List Event
  trace    : List TraceRecord
  bus      : List Access
  returned : List Result
deriving DecidableEq, Repr

/-- A fresh Device Context (10_state.md rule R49): unprobed, with no base, PHY address or MAC. -/
def Ctx.reset : Ctx where
  ioBase  := none
  phyAddr := none
  mac     := none
  probed  := false
  started := false

/-- The DEVICE at reset (60_exceptions.md rule R310): depth unset, nothing in flight, an empty wire, and every register and
buffer byte a free value (10_state.md rule R50). -/
def Device.reset : Device where
  maclo    := Config.resetWord 0
  machi    := Config.resetWord 1
  tfcs     := Config.resetWord 2
  mdioctrl := Config.resetWord 3
  first    := (Config.resetWord 4).setWidth 4
  next     := (Config.resetWord 5).setWidth 4
  rbadHi   := (Config.resetWord 6).setWidth 48
  bad      := Vector.ofFn fun s => (Config.resetWord (16 + s.val)).setWidth 2
  rplr     := Vector.ofFn fun s => Config.resetWord (8 + s.val)
  depth    := none
  txBusy   := false
  pending  := []
  wire     := []
  buf      := []

/-- The machine right after reset (70_reset_and_hazards.md rule R340): it does nothing until the HOST calls `probe`. -/
def State.reset : State where
  cfg      := Config.reset
  ctx      := Ctx.reset
  position := .idle
  dev      := Device.reset
  script   := []
  draws    := 0
  schedule := []
  agenda   := []
  trace    := []
  bus      := []
  returned := []

end Sys2Proof.Machine
end

