-- ==== Sys2Proof/Machine/Flags.lean ====
section
/-! DEFINITION. The flags and fields of the registers (10_state.md rules R34 to R46; 00_scope.md rule R17). The block has no
condition codes (10_state.md rule R46). -/

namespace Sys2Proof.Machine

/-- `RSR.first = rsr[3:0]`. -/
def rsrFirst (rsr : Word) : BitVec 4 := rsr.extractLsb' 0 4

/-- `RSR.next = rsr[7:4]`. -/
def rsrNext (rsr : Word) : BitVec 4 := rsr.extractLsb' 4 4

/-- `RSR.last = rsr[11:8]`. -/
def rsrLast (rsr : Word) : BitVec 4 := rsr.extractLsb' 8 4

/-- `RSR.done = rsr[12]`. -/
def rsrDone (rsr : Word) : Bool := rsr.getLsbD 12

/-- `RSR.irq = rsr[13]`. -/
def rsrIrq (rsr : Word) : Bool := rsr.getLsbD 13

/-- `MACHI.addr = machi[15:0]`. -/
def machiAddr (machi : Word) : BitVec 16 := machi.extractLsb' 0 16

/-- `MACHI.irq_en = machi[21]`. -/
def machiIrqEn (machi : Word) : Bool := machi.getLsbD 21

/-- `MACLO.addr = maclo[31:0]`. -/
def macloAddr (maclo : Word) : BitVec 32 := maclo.extractLsb' 0 32

/-- The REFERENCE DEVICE's `done = (first != next)` (60_exceptions.md rule R302). -/
def ringDone (dev : Device) : Bool := dev.first != dev.next

/-- The RSR value of the REFERENCE DEVICE (60_exceptions.md rule R302): `last` and `irq` are taken from the draw `d`, bits
63:14 are 0. -/
def rsrValue (dev : Device) (d : Word) : Word :=
  0#50 ++ BitVec.ofBool (rsrIrq d) ++ BitVec.ofBool (ringDone dev) ++ rsrLast d ++ dev.next ++ dev.first

/-- The RBAD bits `j` of all slots as one byte: `j = 0` for RBAD[7:0], `j = 1` for RBAD[15:8] (60_exceptions.md rule R301). -/
def rbadByte (dev : Device) (j : Nat) : Byte :=
  BitVec.ofFnLE fun s : Fin 8 => (dev.bad.get s).getLsbD j

/-- The RBAD value (60_exceptions.md rule R302). -/
def rbadValue (dev : Device) : Word := dev.rbadHi ++ rbadByte dev 1 ++ rbadByte dev 0

/-- A TPLR value whose `TPLR_BUSY_MASK` bits are non-zero iff the DEVICE transmits (60_exceptions.md rule R302); every bit the
rule leaves open comes from the draw `d` (log 25). -/
def tplrValue (mask : Word) (busy : Bool) (d : Word) : Word :=
  if busy then (if d &&& mask = 0 then d ||| mask else d) else d &&& ~~~mask

end Sys2Proof.Machine
end

