-- ==== Sys2Proof/Machine/Operands.lean ====
section
/-! DEFINITION. The computed operands (30_encoding.md rules R105 to R114) and the numeric constants of 00_scope.md rule R10. -/

namespace Sys2Proof.Machine

/-- `MAX_PACKET`. -/
def maxPacket : Nat := 1536

/-- `MIN_FRAME`. -/
def minFrame : Nat := 14

/-- `FCS_BYTES`. -/
def fcsBytes : Nat := 4

/-- `TX_WINDOW_BYTES`. -/
def txWindowBytes : Nat := 0x800

/-- `WINDOW_BYTES`. -/
def windowBytes : Nat := 0x8000

/-- `RXBUFF_STRIDE`. -/
def rxbuffStride : Nat := 0x800

/-- `ERR_MASK_BASE`. -/
def errMaskBase : Word := 0x101

/-- `MACHI_IRQ_EN_BIT`. -/
def machiIrqEnBit : Nat := 21

/-- Register offsets (20_memory.md rule R71). -/
def offMaclo : Nat := 0x0800
/-- See `offMaclo`. -/
def offMachi : Nat := 0x0808
/-- See `offMaclo`. -/
def offTplr : Nat := 0x0810
/-- See `offMaclo`. -/
def offTfcs : Nat := 0x0818
/-- See `offMaclo`. -/
def offMdioctrl : Nat := 0x0820
/-- See `offMaclo`. -/
def offRfcs : Nat := 0x0828
/-- See `offMaclo`. -/
def offRsr : Nat := 0x0830
/-- See `offMaclo`. -/
def offRbad : Nat := 0x0838
/-- The start of TXBUFF (10_state.md rule R44). -/
def offTxbuff : Nat := 0x1000
/-- The start of RXBUFF[0] (10_state.md rule R43). -/
def offRxbuff : Nat := 0x4000

/-- `RPLR_OFF(slot)` (30_encoding.md rule R107). -/
def rplrOffset (slot : Nat) : Nat := 0x0840 + 8 * slot

/-- `RXBUFF_OFF(slot)` (30_encoding.md rule R107). -/
def rxbuffOffset (slot : Nat) : Nat := offRxbuff + rxbuffStride * slot

/-- `ceil8(n)` (00_scope.md rule R13). -/
def ceil8 (n : Nat) : Nat := (n + 7) / 8 * 8

/-- The number of 64-bit words of `n` bytes (30_encoding.md rule R109). -/
def wordCount (n : Nat) : Nat := ceil8 n / 8

/-- The slot operand `rsr & 0xF` as an integer (30_encoding.md rule R105). -/
def slotOf (rsr : Word) : Nat := (rsrFirst rsr).toNat

/-- The error mask `0x101 << (slot & 7)` (30_encoding.md rule R106). -/
def errorMask (slot : Nat) : Word := errMaskBase <<< (slot % 8)

/-- The slot is usable iff `(rbad & m) = 0` (43_receive.md rule R210). -/
def slotUsable (rbad : Word) (slot : Nat) : Bool := rbad &&& errorMask slot == 0

/-- The payload length: the masked RPLR value minus the FCS, an integer that may be negative (30_encoding.md rule R108). -/
def payloadLength (mask rplr : Word) : Int := ((rplr &&& mask).toNat : Int) - fcsBytes

/-- The MAC octets, most significant byte first (30_encoding.md rule R110). -/
def macOctets (maclo machi : Word) : Vector Byte 6 :=
  #v[machi.extractLsb' 8 8, machi.extractLsb' 0 8, maclo.extractLsb' 24 8, maclo.extractLsb' 16 8,
     maclo.extractLsb' 8 8, maclo.extractLsb' 0 8]

/-- The MACHI write-back operand (30_encoding.md rule R111; 41_mac_resolver.md rule R163). -/
def writebackValue (mode : Writeback) (machi : Word) : Word :=
  match mode with
  | .masked => machi &&& 0xFFFF
  | .clearIrqOnly => machi &&& ~~~(1#64 <<< machiIrqEnBit)

/-- The clamped transmit length (42_transmit.md rule R181). -/
def clampedLength (length : Nat) : Nat := min length maxPacket

/-- The word whose byte `j` is `f j`, byte `j` at bits `8j+7 : 8j` (20_memory.md rule R78). -/
def packWord (f : Nat → Byte) : Word := f 7 ++ f 6 ++ f 5 ++ f 4 ++ f 3 ++ f 2 ++ f 1 ++ f 0

/-- The eight bytes of a word, byte 0 first (20_memory.md rule R78). -/
def unpackWord (w : Word) : List Byte := (List.range 8).map fun j => w.extractLsb' (8 * j) 8

/-- Byte `k` of the HOST's buffer; past its end, a free value (42_transmit.md rule R184). -/
def frameByte (frame : List Byte) (seed k : Nat) : Byte := frame.getD k (Config.hostByte seed k)

/-- The staging words of a frame of `n` bytes (30_encoding.md rule R112). -/
def stagingWords (frame : List Byte) (seed n : Nat) : List Word :=
  (List.range (wordCount n)).map fun i => packWord fun j => frameByte frame seed (8 * i + j)

/-- The acknowledge operand `zext_64(slot + 1)`, not reduced modulo the ring depth (30_encoding.md rule R113). -/
def ackValue (slot : Nat) : Word := BitVec.ofNat 64 (slot + 1)

/-- The Ethertype of the word read at slot base + 8 (30_encoding.md rule R114). -/
def etherTypeOf (w : Word) : BitVec 16 := w.extractLsb' 32 8 ++ w.extractLsb' 40 8

/-- The class drops the frame (44_classifier.md rule R241). -/
def Class.drops : Class → Bool
  | .acceptIPv4 => false
  | .acceptARP => false
  | .dropIPv6 => true
  | .dropUnknown => true

/-- `classify` (44_classifier.md rule R240). -/
def classifyType (etype : BitVec 16) : Class :=
  if etype = 0x0800#16 then .acceptIPv4
  else if etype = 0x0806#16 then .acceptARP
  else if etype = 0x86DD#16 then .dropIPv6
  else .dropUnknown

/-- The trace code of an error kind (60_exceptions.md rule R281). -/
def ErrorKind.code : ErrorKind → Nat
  | .oversizeFrame => 1
  | .ringSlotError => 2
  | .undersizeFrame => 3
  | .unsupportedProtocol _ => 4
  | .registerOutOfRange => 5
  | .timeout => 6

/-- The operation code of an operation (30_encoding.md rule R101); the accessor has none. -/
def opCode : Op → Option (BitVec 8)
  | .probe => some 0x01
  | .start => some 0x02
  | .send => some 0x03
  | .recv => some 0x04
  | .stop => some 0x05
  | .hwaddr => some 0x06
  | .resolve => some 0x80
  | .classify => some 0x81
  | .access => none

end Sys2Proof.Machine
end

