-- ==== Sys2Proof/Machine/Ops.lean ====
section
/-! DEFINITION. The named operations over memory, the DEVICE, the register window and the CORE's position. The block has no trap
mechanism (60_exceptions.md rules R290 to R292), so there is no operation that takes an exception and none that returns from
one: a fault ends the run (rule R284). -/

namespace Sys2Proof.Machine

/-! ## Buffer memory -/

/-- The byte written at a window offset, if any. -/
def Memory.lookup (m : Memory) (a : Nat) : Option Byte :=
  match m with
  | [] => none
  | (c, x) :: rest => if a = c then some x else Memory.lookup rest a

/-- Store one byte, keeping the offsets strictly rising. -/
def Memory.store (m : Memory) (a : Nat) (b : Byte) : Memory :=
  match m with
  | [] => [(a, b)]
  | (c, x) :: rest =>
    if a < c then (a, b) :: (c, x) :: rest
    else if a = c then (a, b) :: rest
    else (c, x) :: Memory.store rest a b

/-- What a window byte reads as: the byte written, or, where nothing has written, a free value (10_state.md rule R50; log 6). -/
def Memory.readByte (m : Memory) (a : Nat) : Byte := (Memory.lookup m a).getD (Config.unwrittenByte a)

/-- Store consecutive bytes from offset `a`. -/
def Memory.storeBytes (m : Memory) (a : Nat) (bs : List Byte) : Memory :=
  match bs with
  | [] => m
  | b :: rest => Memory.storeBytes (Memory.store m a b) (a + 1) rest

/-- The 64-bit word at offset `a`, little-endian (20_memory.md rule R78). -/
def Memory.readWord (m : Memory) (a : Nat) : Word := packWord fun j => Memory.readByte m (a + j)

/-- Store a 64-bit word at offset `a`, little-endian (20_memory.md rule R78). -/
def Memory.storeWord (m : Memory) (a : Nat) (v : Word) : Memory := Memory.storeBytes m a (unpackWord v)

/-- `n` consecutive bytes from offset `a`. -/
def Memory.readBytes (m : Memory) (a n : Nat) : List Byte := (List.range n).map fun k => Memory.readByte m (a + k)

/-- The canonical form: offsets strictly rising. A byte nothing has written is not listed, and no listed byte can equal the
absent value an unlisted offset holds (log 6). -/
abbrev Memory.wf (m : Memory) : Prop := (m.map Prod.fst).Pairwise (· < ·)

/-! ## Answers of an operation in progress -/

/-- What part of an operation gives: a value and the state it leaves, or a fault (00_scope.md rule R16). -/
inductive Answer (α : Type) where
  | ok (a : α) (s : State)
  | stop (f : Fault)
deriving DecidableEq, Repr

/-- Go on with the rest of an operation, unless it has faulted. -/
def Answer.andThen {α β : Type} (x : Answer α) (f : α → State → Answer β) : Answer β :=
  match x with
  | .ok a s => f a s
  | .stop e => .stop e

/-! ## Draws -/

/-- One draw, any 64-bit value (60_exceptions.md rule R300): the next word of the script, and when the script is used up a free
value (log 3). -/
def drawWord (s : State) : Word × State :=
  match s.script with
  | d :: rest => (d, { s with script := rest })
  | [] => (Config.draw s.draws, { s with draws := s.draws + 1 })

/-- A draw with `first` reduced below the ring depth: the one invariant of the ABSTRACT DEVICE (60_exceptions.md rule R300). -/
def boundFirst (depth : Nat) (d : Word) : Word :=
  d.extractLsb' 4 60 ++ BitVec.ofNat 4 ((rsrFirst d).toNat % depth)

/-- The draw of an RSR read in ABSTRACT mode: a scripted word is taken as it is, so that a DEVICE that breaks the invariant is
seen to fault (43_receive.md rule R203); a free value keeps the invariant (log 4). -/
def drawRsr (s : State) : Word × State :=
  match s.script with
  | d :: rest => (d, { s with script := rest })
  | [] => (boundFirst s.cfg.ringDepth (Config.draw s.draws), { s with draws := s.draws + 1 })

/-! ## The DEVICE -/

/-- The RXBUFF or TXBUFF slot the DEVICE's fill pointer names. -/
def fillSlot (dev : Device) : Nat := (dev.next.setWidth 3).toNat

/-- An arrival is enabled: the depth is set and one slot stays empty (60_exceptions.md rule R303). -/
def arriveEnabled (dev : Device) : Bool :=
  match dev.depth with
  | none => false
  | some d => decide ((dev.next.toNat + 1) % d ≠ dev.first.toNat)

/-- The four FCS bytes of an arrival, low byte first. -/
def fcsList (fcs : BitVec 32) : List Byte := (List.range 4).map fun j => fcs.extractLsb' (8 * j) 8

/-- The bytes an arrival leaves in its slot: the frame and its FCS. A slot has 0x800 bytes (60_exceptions.md rule R301), and what
lies beyond them has no stated place and is not stored (log 22). -/
def arrivalBytes (frame : List Byte) (fcs : BitVec 32) : List Byte := (frame ++ fcsList fcs).take rxbuffStride

/-- `Arrive(F, e)` (60_exceptions.md rule R303). -/
def arrive (dev : Device) (frame : List Byte) (err : BitVec 2) (fcs : BitVec 32) : Device :=
  if arriveEnabled dev then
    { dev with
      buf  := Memory.storeBytes dev.buf (rxbuffOffset (fillSlot dev)) (arrivalBytes frame fcs)
      rplr := dev.rplr.setIfInBounds (fillSlot dev) (BitVec.ofNat 64 (frame.length + fcsBytes))
      bad  := dev.bad.setIfInBounds (fillSlot dev) err
      next := BitVec.ofNat 4 ((dev.next.toNat + 1) % dev.depth.getD 1) }
  else dev

/-- `TxDone` (60_exceptions.md rule R307). -/
def transmitDone (dev : Device) : Device :=
  if dev.txBusy then { dev with wire := dev.wire ++ [dev.pending], txBusy := false } else dev

/-- A step of the REFERENCE DEVICE; one that is not enabled leaves the DEVICE as it is, and so does a lost frame. -/
def referenceMove (dev : Device) : DeviceMove → Device
  | .arrive frame err fcs => arrive dev frame err fcs
  | .lose _ => dev
  | .txDone => transmitDone dev

/-- A DEVICE step. In ABSTRACT mode the DEVICE has no state of its own: what it does shows only in the draws (log 31). -/
def deviceMove (d : DeviceMove) (s : State) : State :=
  match s.cfg.deviceMode with
  | .abstr => s
  | .reference => { s with dev := referenceMove s.dev d }

/-- What the REFERENCE DEVICE answers a read (60_exceptions.md rule R302). Reads have no effect on it (20_memory.md rule R81);
MDIOCTRL, whose read the spec gives no value, answers a free value (log 24). -/
def referenceRead (r : ReadReg) (s : State) : Word × State :=
  match r with
  | .maclo => (s.dev.maclo, s)
  | .machi => (s.dev.machi, s)
  | .tplr => (tplrValue s.cfg.tplrBusyMask s.dev.txBusy (drawWord s).1, (drawWord s).2)
  | .mdioctrl => (Config.mdioctrlAnswer s.dev.mdioctrl (drawWord s).1, (drawWord s).2)
  | .rfcs => drawWord s
  | .rsr => (rsrValue s.dev (drawWord s).1, (drawWord s).2)
  | .rbad => (rbadValue s.dev, s)
  | .rplr slot => (s.dev.rplr.get slot.toFin, s)
  | .rxbuff slot index => (Memory.readWord s.dev.buf (rxbuffOffset slot.toNat + 8 * index.toNat), s)

/-- What the DEVICE answers a read, in either mode (60_exceptions.md rule R300). -/
def deviceRead (r : ReadReg) (s : State) : Word × State :=
  match s.cfg.deviceMode with
  | .abstr => if r = .rsr then drawRsr s else drawWord s
  | .reference => referenceRead r s

/-- The write unless a transmission is in flight (60_exceptions.md rule R306). -/
def unlessBusy (off : Nat) (dev : Device) (s : State) : Answer Unit :=
  if s.dev.txBusy then .stop (.txOverlap off) else .ok () { s with dev := dev }

/-- The frame a TPLR value triggers: the first `v` bytes of TXBUFF (60_exceptions.md rule R306). Beyond the transmit window the
rule gives no frame: a free value (log 20). -/
def triggeredFrame (dev : Device) (v : Word) (seed : Nat) : List Byte :=
  if v.toNat ≤ txWindowBytes then Memory.readBytes dev.buf offTxbuff v.toNat else Config.overlongFrame seed

/-- `first <- v[3:0] mod depth` (60_exceptions.md rule R304). While depth is unset the rule gives no value: a free value
(log 21). -/
def acknowledged (dev : Device) (v : Word) (seed : Nat) : BitVec 4 :=
  match dev.depth with
  | some d => BitVec.ofNat 4 ((rsrFirst v).toNat % d)
  | none => (Config.draw seed).setWidth 4

/-- What a write does to the REFERENCE DEVICE (60_exceptions.md rules R304 to R308). -/
def referenceWrite (r : WriteReg) (v : Word) (s : State) : Answer Unit :=
  match r with
  | .machi => .ok () { s with dev := { s.dev with machi := v } }
  | .tplr =>
    unlessBusy offTplr { s.dev with txBusy := true, pending := triggeredFrame s.dev v s.draws } { s with draws := s.draws + 1 }
  | .tfcs => unlessBusy offTfcs { s.dev with tfcs := v } s
  | .mdioctrl => .ok () s
  | .rfcs =>
    if 1 ≤ v.toNat ∧ v.toNat ≤ 8 then
      .ok () { s with dev := { s.dev with depth := some v.toNat, first := 0, next := 0 } }
    else .stop (.deviceConfig v)
  | .rsr => .ok () { s with dev := { s.dev with first := acknowledged s.dev v s.draws }, draws := s.draws + 1 }
  | .txbuff index =>
    unlessBusy (offTxbuff + 8 * index.toNat)
      { s.dev with buf := Memory.storeWord s.dev.buf (offTxbuff + 8 * index.toNat) v } s

/-- What a write does to the DEVICE, in either mode: ABSTRACT accepts every write (60_exceptions.md rule R300). -/
def deviceWrite (r : WriteReg) (v : Word) (s : State) : Answer Unit :=
  match s.cfg.deviceMode with
  | .abstr => .ok () s
  | .reference => referenceWrite r v s

/-! ## The CORE's position (10_state.md rule R33) -/

/-- Step `n` of an operation's pseudocode. -/
def stepNo (n : Nat) : StepIndex := ⟨n, .whole, 0⟩

/-- Part `p` of step `n`. -/
def stepPart (n : Nat) (p : SubStep) : StepIndex := ⟨n, p, 0⟩

/-- Step `n` of the operation that step `outer` of the running one stands for (45_lifecycle.md rule R261, step 1). -/
def innerStep (outer n : Nat) : StepIndex := ⟨outer, .whole, n⟩

/-- The next access of the same step. -/
def StepIndex.nextItem (k : StepIndex) : StepIndex := { k with item := k.item + 1 }

/-- The running operation comes to the access or decision point `step`. -/
def Position.moveTo (p : Position) (step : StepIndex) : Position :=
  match p with
  | .idle => .idle
  | .running op _ => .running op step

/-- The state at the access or decision point `step` of the running operation. -/
def atStep (step : StepIndex) (s : State) : State := { s with position := s.position.moveTo step }

/-! ## The other agents between two accesses -/

/-- The operation in progress; outside one, an access is the accessor's own. -/
def currentOp (s : State) : Op :=
  match s.position with
  | .idle => .access
  | .running op _ => op

/-- The moves of the other agents, in order. A HOST invocation while an operation runs faults (60_exceptions.md rule R297), one of
an internal operation too, which 30_encoding.md rule R115 says is refused: the rules do not order the two, and the fault is the
model's choice (DESIGN CHOICE, log 40). The precondition of the operation that lands is not looked at either (log 41). -/
def otherMoves : List Move → State → Answer Unit
  | [], s => .ok () s
  | .device d :: rest, s => otherMoves rest (deviceMove d s)
  | .invoke op :: _, s => .stop (.concurrent (currentOp s) op)

/-- What the other agents do before the next access (20_memory.md rule R84): the head of the schedule. -/
def othersTurn (s : State) : Answer Unit :=
  match s.schedule with
  | [] => .ok () s
  | ms :: rest => otherMoves ms { s with schedule := rest }

/-! ## Register-window accesses -/

/-- Record one access on the bus. -/
def logAccess (a : Access) (s : State) : State := { s with bus := s.bus ++ [a] }

/-- The bus record of a read at `IO_BASE + off` (40_register_access.md rule R146). -/
def readAt (base : Word) (off : Nat) (v : Word) : Access := ⟨.read, base + BitVec.ofNat 64 off, v⟩

/-- The bus record of a write at `IO_BASE + off`. -/
def writeAt (base : Word) (off : Nat) (v : Word) : Access := ⟨.write, base + BitVec.ofNat 64 off, v⟩

/-- The fault of an offset that selects no register (60_exceptions.md rule R283). -/
def mapFault (e : MapError) (off : Nat) : Fault :=
  match e with
  | .misaligned => .misaligned off
  | .unmapped => .unmapped off

/-- The base of the window, which has no value before `probe` (10_state.md rule R49). A register access looks for it before
anything else, which is the model's choice (log 39). -/
def withBase {α : Type} (s : State) (f : Word → Answer α) : Answer α :=
  match s.ctx.ioBase with
  | none => .stop (.notProbed (currentOp s))
  | some base => f base

/-- The DEVICE's answer to a read that selects `r`, recorded on the bus. -/
def performRead (base : Word) (off : Nat) (r : ReadReg) (s : State) : Answer Word :=
  .ok (deviceRead r s).1 (logAccess (readAt base off (deviceRead r s).1) (deviceRead r s).2)

/-- `RegRead(off)` as the access of pseudocode step `step` (00_scope.md rule R14; 20_memory.md rules R73, R74, R76). -/
def regRead (step : StepIndex) (off : Nat) (s : State) : Answer Word :=
  withBase s fun base =>
    match mapRead off with
    | .bad e => .stop (mapFault e off)
    | .at r => (othersTurn (atStep step s)).andThen fun _ s1 => performRead base off r s1

/-- The DEVICE takes a write that selects `r`, recorded on the bus. -/
def performWrite (base : Word) (off : Nat) (r : WriteReg) (v : Word) (s : State) : Answer Unit :=
  (deviceWrite r v s).andThen fun _ s1 => .ok () (logAccess (writeAt base off v) s1)

/-- `RegWrite(off, v)` as the access of pseudocode step `step` (00_scope.md rule R14; 20_memory.md rules R73, R75, R76). -/
def regWrite (step : StepIndex) (off : Nat) (v : Word) (s : State) : Answer Unit :=
  withBase s fun base =>
    match mapWrite off with
    | .bad e => .stop (mapFault e off)
    | .at r => (othersTurn (atStep step s)).andThen fun _ s1 => performWrite base off r v s1

/-- Add one record to the trace (60_exceptions.md rule R281). -/
def record (kind : ErrorKind) (detail : Detail) (s : State) : State :=
  { s with trace := s.trace ++ [⟨kind, currentOp s, detail⟩] }

/-- The diagnostic build rejects a control access at or beyond the receive window (20_memory.md rule R77). -/
def diagRejects (off : Nat) (s : State) : Bool :=
  s.cfg.diagBuild && decide (off % 8 = 0 ∧ offRxbuff ≤ off)

/-- The diagnostic build's answer to a rejected read: a trace record, and a draw for the sentinel (40_register_access.md
rule R145). -/
def rejectedRead (off : Nat) (s : State) : Answer Word :=
  let t := record .registerOutOfRange (.offset off) s
  .ok (drawWord t).1 (drawWord t).2

/-- Steps 2 and 3 of `read(off)` (40_register_access.md rules R140, R145). -/
def checkedRead (off : Nat) (s : State) : Answer Word :=
  if diagRejects off s then rejectedRead off s else regRead (stepNo 3) off s

/-- The accessor `read(off)` from its step 1 (40_register_access.md rule R140). Without a base it faults with `F_NOT_PROBED` before
its step 1, so before a misaligned or unmapped offset and the diagnostic rejection: the model's choice (log 39). -/
def accessRead (off : Nat) (s : State) : Answer Word :=
  withBase s fun _ =>
    if off % 8 ≠ 0 then .stop (.misaligned off) else checkedRead off (atStep (stepNo 2) s)

/-- Steps 2 and 3 of `write(off, v)` (40_register_access.md rules R141, R145). -/
def checkedWrite (off : Nat) (v : Word) (s : State) : Answer Unit :=
  if diagRejects off s then .ok () (record .registerOutOfRange (.offset off) s) else regWrite (stepNo 3) off v s

/-- The accessor `write(off, v)` from its step 1 (40_register_access.md rule R141), with the base looked for first as in
`accessRead` (log 39). -/
def accessWrite (off : Nat) (v : Word) (s : State) : Answer Unit :=
  withBase s fun _ =>
    if off % 8 ≠ 0 then .stop (.misaligned off) else checkedWrite off v (atStep (stepNo 2) s)

/-- A read as a window copy issues it, or through the accessor. -/
def readVia (via : Via) (off : Nat) (s : State) : Answer Word :=
  match via with
  | .copy => regRead (stepNo 3) off s
  | .control => accessRead off s

/-- A write as a window copy issues it, or through the accessor. -/
def writeVia (via : Via) (off : Nat) (v : Word) (s : State) : Answer Unit :=
  match via with
  | .copy => regWrite (stepNo 3) off v s
  | .control => accessWrite off v s

/-! ## Window copies (20_memory.md rule R80) -/

/-- `FetchWords`: `n` reads from offset `off`, in increasing order, the first of them at `step`. -/
def fetchWords : StepIndex → Nat → Nat → State → Answer (List Word)
  | _, _, 0, s => .ok [] s
  | step, off, n + 1, s =>
    (regRead step off s).andThen fun w s1 =>
      (fetchWords step.nextItem (off + 8) n s1).andThen fun ws s2 => .ok (w :: ws) s2

/-- `StageWords`: one write per word from offset `off`, in increasing order, the first of them at `step`. -/
def stageWords : StepIndex → Nat → List Word → State → Answer Unit
  | _, _, [], s => .ok () s
  | step, off, w :: ws, s =>
    (regWrite step off w s).andThen fun _ s1 => stageWords step.nextItem (off + 8) ws s1

/-! ## Operations as a whole -/

/-- The three outcomes of a step. -/
abbrev Outcome := Host.Outcome State Fault Refusal

/-- Return `r` to the caller (00_scope.md rule R16): the position is what it was before the operation. -/
def returnTo (position : Position) (r : Result) (s : State) : State :=
  { s with position := position, returned := s.returned ++ [r] }

/-- Run the body of `op`, from its precondition at step 0, and return its result. -/
def runOp (op : Op) (body : State → Answer Result) (s : State) : Outcome :=
  match body { s with position := .running op (stepNo 0) } with
  | .ok r t => .next (returnTo s.position r t)
  | .stop f => .fault f

/-- A HOST invocation: refused by a fault while an operation is in progress (60_exceptions.md rule R297). A call that also breaks
its own precondition (45_lifecycle.md rule R268) reports that fault and not the precondition's: no rule orders the two, and it is
the model's choice (DESIGN CHOICE, log 41). -/
def hostCall (op : Op) (body : State → Answer Result) (s : State) : Outcome :=
  match s.position with
  | .running running _ => .fault (.concurrent running op)
  | .idle => runOp op body s

/-- A bus read as an instruction of its own; the accessor's pseudocode begins at step 1. -/
def busRead (off : Nat) (via : Via) (s : State) : Outcome :=
  runOp .access (fun s1 => (readVia via off (atStep (stepNo 1) s1)).andThen fun v s2 => .ok (.value v) s2) s

/-- A bus write as an instruction of its own; the accessor's pseudocode begins at step 1. -/
def busWrite (off : Nat) (v : Word) (via : Via) (s : State) : Outcome :=
  runOp .access (fun s1 => (writeVia via off v (atStep (stepNo 1) s1)).andThen fun _ s2 => .ok .unit s2) s

/-! ## The agenda -/

/-- What the machine does with an empty agenda: it does nothing between HOST calls (60_exceptions.md rule R299), and weak
fairness completes a transmission of the REFERENCE DEVICE (rules R307, R312). -/
def idleTurn (s : State) : State := deviceMove .txDone s

/-- A request that decodes to no instruction: refused (30_encoding.md rule R115), or an access at an offset that selects no
register, which faults or, in a diagnostic build, is rejected (30_encoding.md rule R103; 40_register_access.md rule R145). -/
def rejectRequest (e : DecodeError) (s : State) : Outcome :=
  match e with
  | .invalidCode code => .refused (.invalidCode code)
  | .internalCode code => .refused (.internalCode code)
  | .noRegister _ .read off via => busRead off via s
  | .noRegister _ .write off via => busWrite off 0 via s

/-- The state in which a request stands first on the agenda. -/
def placeRequest (r : Request) (s : State) : State := { s with agenda := .request r :: s.agenda }

/-- The state in which the word `w` of an `nbits`-bit table row stands first on the agenda. -/
def placeTableWord (nbits w : Nat) (s : State) : State :=
  match tableRequest nbits w with
  | some r => placeRequest r s
  | none => s

end Sys2Proof.Machine
end

