-- ==== Sys2Proof/Machine/Access.lean ====
section
/-! DEFINITION. The bus requests as instructions (30_encoding.md rule R103): each is one call of the Register Access Layer's
`read` or `write` (40_register_access.md rules R140, R141). -/

namespace Sys2Proof.Machine

/-- MACLO.R (10_state.md rule R35). -/
def execMacloR (s : State) : Outcome := busRead offMaclo .control s

/-- MACHI.R (10_state.md rule R36). -/
def execMachiR (s : State) : Outcome := busRead offMachi .control s

/-- MACHI.W (10_state.md rule R36; 41_mac_resolver.md rule R163 gives the value the CORE writes). -/
def execMachiW (v : Word) (s : State) : Outcome := busWrite offMachi v .control s

/-- TPLR.R (10_state.md rule R37). -/
def execTplrR (s : State) : Outcome := busRead offTplr .control s

/-- TPLR.W, the transmit trigger (10_state.md rule R37; 42_transmit.md rule R186). -/
def execTplrW (v : Word) (s : State) : Outcome := busWrite offTplr v .control s

/-- TFCS.W (10_state.md rule R38; 42_transmit.md rule R183). -/
def execTfcsW (v : Word) (s : State) : Outcome := busWrite offTfcs v .control s

/-- MDIOCTRL.R (10_state.md rule R39). -/
def execMdioctrlR (s : State) : Outcome := busRead offMdioctrl .control s

/-- MDIOCTRL.W (10_state.md rule R39; 60_exceptions.md rule R308). -/
def execMdioctrlW (v : Word) (s : State) : Outcome := busWrite offMdioctrl v .control s

/-- RFCS.R (10_state.md rule R40). -/
def execRfcsR (s : State) : Outcome := busRead offRfcs .control s

/-- RFCS.W (10_state.md rule R40; 45_lifecycle.md rule R263). -/
def execRfcsW (v : Word) (s : State) : Outcome := busWrite offRfcs v .control s

/-- RSR.R (10_state.md rule R34; 43_receive.md rule R201). -/
def execRsrR (s : State) : Outcome := busRead offRsr .control s

/-- RSR.W (10_state.md rule R34; 43_receive.md rule R220). -/
def execRsrW (v : Word) (s : State) : Outcome := busWrite offRsr v .control s

/-- RBAD.R (10_state.md rule R41; 43_receive.md rule R210). -/
def execRbadR (s : State) : Outcome := busRead offRbad .control s

/-- RPLR.R (10_state.md rule R42; 43_receive.md rule R212). -/
def execRplrR (slot : BitVec 3) (s : State) : Outcome := busRead (rplrOffset slot.toNat) .control s

/-- TXBUFF.W (10_state.md rule R44; 42_transmit.md rule R184). -/
def execTxbuffW (index : BitVec 8) (v : Word) (s : State) : Outcome :=
  busWrite (offTxbuff + 8 * index.toNat) v .control s

/-- RXBUFF.R (10_state.md rule R43; 43_receive.md rule R216): as a window copy issues it, or through the accessor, which a
diagnostic build rejects (90_conflicts.md C5). -/
def execRxbuffR (slot : BitVec 3) (index : BitVec 8) (via : Via) (s : State) : Outcome :=
  busRead (rxbuffOffset slot.toNat + 8 * index.toNat) via s

end Sys2Proof.Machine
end

