-- ==== Sys2Proof/Machine/Classifier.lean ====
section
/-! DEFINITION. The Protocol Classifier (44_classifier.md): pure, no access, no fault (rule R242). -/

namespace Sys2Proof.Machine

/-- Classify an Ethertype and return the class. -/
def classifyAs (etype : BitVec 16) (s : State) : Outcome :=
  runOp .classify (fun s1 => .ok (.verdict (classifyType etype)) s1) s

/-- `classify`, the CORE's internal operation 0x81 (44_classifier.md rule R240). -/
def execClassify (etype : BitVec 16) (s : State) : Outcome := classifyAs etype s

/-- The classifier row `ETH_P_IP` (30_encoding.md rule R114). -/
def execClassifyIPv4 (s : State) : Outcome := classifyAs 0x0800 s

/-- The classifier row `ETH_P_ARP` (30_encoding.md rule R114). -/
def execClassifyARP (s : State) : Outcome := classifyAs 0x0806 s

/-- The classifier row `ETH_P_IPV6` (30_encoding.md rule R114). -/
def execClassifyIPv6 (s : State) : Outcome := classifyAs 0x86DD s

/-- The classifier's catch-all row (30_encoding.md rule R114). -/
def execClassifyUnknown (etype : BitVec 16) (s : State) : Outcome := classifyAs etype s

end Sys2Proof.Machine
end

