-- ==== Sys2Proof/Machine/Resolver.lean ====
section
/-! DEFINITION. The MAC Address Resolver (41_mac_resolver.md) and the operation `hwaddr` (45_lifecycle.md rule R266). -/

namespace Sys2Proof.Machine

/-- `resolve_hardware_address` (41_mac_resolver.md rule R160): MACLO, then MACHI, then the MACHI write-back. `index n` is where
its step `n` stands in the running operation, which has come to step 0. -/
def resolveMac (index : Nat → StepIndex) (s : State) : Answer (Vector Byte 6) :=
  if s.ctx.probed then
    (regRead (index 1) offMaclo s).andThen fun maclo s1 =>
      (regRead (index 2) offMachi s1).andThen fun machi s2 =>
        (regWrite (index 5) offMachi (writebackValue s2.cfg.machiWriteback machi) s2).andThen fun _ s3 =>
          .ok (macOctets maclo machi) { s3 with ctx := { s3.ctx with mac := some (macOctets maclo machi) } }
  else .stop (.notProbed (currentOp s))

/-- The resolver with its result returned to the caller. -/
def resolveBody (s : State) : Answer Result := (resolveMac stepNo s).andThen fun m s1 => .ok (.mac m) s1

/-- `resolve`, the CORE's internal operation 0x80 (41_mac_resolver.md rule R160). -/
def execResolve (s : State) : Outcome := runOp .resolve resolveBody s

/-- `hwaddr` (45_lifecycle.md rule R266): exactly the resolver. -/
def execHwaddr (s : State) : Outcome := hostCall .hwaddr resolveBody s

end Sys2Proof.Machine
end

