-- ==== Sys2Proof/Machine/Lifecycle.lean ====
section
/-! DEFINITION. The lifecycle operations (45_lifecycle.md). -/

namespace Sys2Proof.Machine

/-- Steps 2 to 5 of `probe`: the window must not wrap around; the context is set. -/
def probeWindow (ioBase : Word) (phyAddr : Int) (s : State) : Answer Result :=
  if 2 ^ 64 < ioBase.toNat + windowBytes then .stop (.unmapped ioBase.toNat)
  else .ok .unit { s with ctx := { s.ctx with ioBase := some ioBase, phyAddr := some phyAddr, probed := true } }

/-- Step 1 of `probe`: the base is aligned. -/
def probeBase (ioBase : Word) (phyAddr : Int) (s : State) : Answer Result :=
  if ioBase.toNat % 8 ≠ 0 then .stop (.misaligned ioBase.toNat) else probeWindow ioBase phyAddr (atStep (stepNo 2) s)

/-- `probe` (45_lifecycle.md rule R260): the precondition first (60_exceptions.md rule R285). -/
def probeBody (ioBase : Word) (phyAddr : Int) (s : State) : Answer Result :=
  if s.ctx.probed then .stop (.reprobe .probe) else probeBase ioBase phyAddr (atStep (stepNo 1) s)

/-- `probe`, operation code 0x01. -/
def execProbe (ioBase : Word) (phyAddr : Int) (s : State) : Outcome := hostCall .probe (probeBody ioBase phyAddr) s

/-- Steps 1 to 3 of `start`: MAC resolution, then RFCS <- `RING_DEPTH` (45_lifecycle.md rules R262, R263). -/
def configureRing (s : State) : Answer Result :=
  (resolveMac (innerStep 1) s).andThen fun _ s1 =>
    (regWrite (stepNo 2) offRfcs (BitVec.ofNat 64 s1.cfg.ringDepth) s1).andThen fun _ s2 =>
      .ok .unit { s2 with ctx := { s2.ctx with started := true } }

/-- `start` (45_lifecycle.md rule R261). -/
def startBody (s : State) : Answer Result :=
  if s.ctx.probed then configureRing (atStep (innerStep 1 0) s) else .stop (.notProbed .start)

/-- `start`, operation code 0x02. -/
def execStart (s : State) : Outcome := hostCall .start startBody s

/-- `init` expands to `start` (45_lifecycle.md rule R267). -/
def execInit (s : State) : Outcome := execStart s

/-- `stop` (45_lifecycle.md rule R265): no access, no change. -/
def stopBody (s : State) : Answer Result :=
  if s.ctx.probed then .ok .unit s else .stop (.notProbed .stop)

/-- `stop`, operation code 0x05. -/
def execStop (s : State) : Outcome := hostCall .stop stopBody s

end Sys2Proof.Machine
end

