-- ==== Sys2Proof/Machine/Receive.lean ====
section
/-! DEFINITION. The Receive Engine (43_receive.md rule R200). -/

namespace Sys2Proof.Machine

/-- A dropped frame: the reason goes to the trace only (43_receive.md rule R222). -/
def dropFrame (reason : ErrorKind) (slot : Nat) (s : State) : Answer Result :=
  .ok .noFrame (record reason (.slot slot) s)

/-- Step 6c (43_receive.md rule R216): copy the frame into a fresh buffer of `ceil8(len)` bytes. -/
def copyFrame (slot len : Nat) (s : State) : Answer Result :=
  (fetchWords (stepPart 6 .c) (rxbuffOffset slot) (wordCount len) s).andThen fun ws s1 => .ok (.frame (ws.flatMap unpackWord) len) s1

/-- Step 6b (43_receive.md rule R215): dispatch on the class. -/
def dispatchClass (c : Class) (slot len : Nat) (s : State) : Answer Result :=
  if c.drops then dropFrame (.unsupportedProtocol c) slot s else copyFrame slot len s

/-- Step 6a (43_receive.md rule R214): read the Ethertype, and classify it. -/
def dispatchFrame (slot len : Nat) (s : State) : Answer Result :=
  (regRead (stepPart 6 .a) (rxbuffOffset slot + 8) s).andThen fun w s1 =>
    dispatchClass (classifyType (etherTypeOf w)) slot len (atStep (stepPart 6 .b) s1)

/-- Step 5 (43_receive.md rule R213): the validation of the payload length. -/
def validateLength (slot : Nat) (len : Int) (s : State) : Answer Result :=
  if len < minFrame then dropFrame .undersizeFrame slot s
  else if (maxPacket : Int) < len then dropFrame .oversizeFrame slot s
  else dispatchFrame slot len.toNat s

/-- Step 4 (43_receive.md rule R212): the payload length. -/
def validateFrame (slot : Nat) (s : State) : Answer Result :=
  (regRead (stepNo 4) (rplrOffset slot) s).andThen fun rplr s1 =>
    validateLength slot (payloadLength s1.cfg.rplrLengthMask rplr) (atStep (stepNo 5) s1)

/-- Step 3 and what follows it (43_receive.md rules R210, R211): only a usable slot is looked at. -/
def consumeSlot (slot : Nat) (s : State) : Answer Result :=
  (regRead (stepNo 3) offRbad s).andThen fun rbad s1 =>
    if slotUsable rbad slot then validateFrame slot s1 else dropFrame .ringSlotError slot s1

/-- Step 7 (43_receive.md rule R220): acknowledge and advance, whatever became of the frame. -/
def acknowledgeSlot (slot : Nat) (result : Result) (s : State) : Answer Result :=
  (regWrite (stepNo 7) offRsr (ackValue slot) s).andThen fun _ s1 => .ok result s1

/-- Step 2 and what follows it (43_receive.md rules R202, R203): a slot of the ring is consumed and acknowledged. -/
def receiveSlot (slot : Nat) (s : State) : Answer Result :=
  if s.cfg.ringDepth ≤ slot then .stop (.slotRange slot)
  else (consumeSlot slot s).andThen fun result s1 => acknowledgeSlot slot result s1

/-- `try_receive` (43_receive.md rule R200). -/
def recvBody (s : State) : Answer Result :=
  if s.ctx.started then
    (regRead (stepNo 1) offRsr s).andThen fun rsr s1 =>
      if rsrDone rsr then receiveSlot (slotOf rsr) (atStep (stepNo 2) s1) else .ok .noFrame s1
  else .stop (.notStarted .recv)

/-- `recv`, operation code 0x04. -/
def execRecv (s : State) : Outcome := hostCall .recv recvBody s

end Sys2Proof.Machine
end

