-- ==== Sys2Proof/Machine/Transmit.lean ====
section
/-! DEFINITION. The Transmit Engine (42_transmit.md). -/

namespace Sys2Proof.Machine

/-- `WaitIdle()` with `k` polls left, the next of them at `step` (42_transmit.md rule R190): false is a timeout. -/
def waitIdle : StepIndex → Nat → State → Answer Bool
  | _, 0, s => .ok false s
  | step, k + 1, s =>
    (regRead step offTplr s).andThen fun t s1 =>
      if t &&& s1.cfg.tplrBusyMask = 0 then .ok true s1 else waitIdle step.nextItem k s1

/-- Step 1: an oversize send is recorded, and truncated (42_transmit.md rule R181; 60_exceptions.md rule R281). -/
def recordOversize (length : Nat) (s : State) : State :=
  if maxPacket < length then record .oversizeFrame (.length length) s else s

/-- The optional wait (42_transmit.md rule R180 step 3). -/
def waitStep (s : State) : Answer Bool :=
  if s.cfg.txWaitIdle then waitIdle (stepNo 3) s.cfg.txWaitCap s else .ok true s

/-- Steps 4 to 6 of 42_transmit.md rule R180: TFCS reset, staging, trigger. The draws past the HOST's buffer are those of the
counter's present value (log 19). -/
def transmitFrame (frame : List Byte) (n : Nat) (s : State) : Answer Unit :=
  (regWrite (stepNo 4) offTfcs 0 s).andThen fun _ s1 =>
    (stageWords (stepNo 5) offTxbuff (stagingWords frame s1.draws n) { s1 with draws := s1.draws + 1 }).andThen fun _ s2 =>
      regWrite (stepNo 6) offTplr (BitVec.ofNat 64 n) s2

/-- `send` (42_transmit.md rule R180). -/
def sendBody (frame : List Byte) (length : Nat) (s : State) : Answer Result :=
  if s.ctx.started then
    (waitStep (atStep (stepNo 3) (recordOversize length (atStep (stepNo 1) s)))).andThen fun idle s1 =>
      if idle then (transmitFrame frame (clampedLength length) s1).andThen fun _ s2 => .ok .unit s2
      else .ok .timeout (record .timeout (.length length) s1)
  else .stop (.notStarted .send)

/-- `send`, operation code 0x03. -/
def execSend (frame : List Byte) (length : Nat) (s : State) : Outcome := hostCall .send (sendBody frame length) s

end Sys2Proof.Machine
end

