-- ==== Sys2Proof/Machine/Dispatch.lean ====
section
/-! DEFINITION. What each instruction does: one arm per row of spec/opcode_table.json. -/

namespace Sys2Proof.Machine

def exec (i : Instr) (s : State) : Host.Outcome State Fault Refusal :=
  match i with
  | .probe ioBase phyAddr => Sys2Proof.Machine.execProbe ioBase phyAddr s
  | .start => Sys2Proof.Machine.execStart s
  | .send frame length => Sys2Proof.Machine.execSend frame length s
  | .recv => Sys2Proof.Machine.execRecv s
  | .stop => Sys2Proof.Machine.execStop s
  | .hwaddr => Sys2Proof.Machine.execHwaddr s
  | .resolve => Sys2Proof.Machine.execResolve s
  | .classify etype => Sys2Proof.Machine.execClassify etype s
  | .init => Sys2Proof.Machine.execInit s
  | .macloR => Sys2Proof.Machine.execMacloR s
  | .machiR => Sys2Proof.Machine.execMachiR s
  | .machiW v => Sys2Proof.Machine.execMachiW v s
  | .tplrR => Sys2Proof.Machine.execTplrR s
  | .tplrW v => Sys2Proof.Machine.execTplrW v s
  | .tfcsW v => Sys2Proof.Machine.execTfcsW v s
  | .mdioctrlR => Sys2Proof.Machine.execMdioctrlR s
  | .mdioctrlW v => Sys2Proof.Machine.execMdioctrlW v s
  | .rfcsR => Sys2Proof.Machine.execRfcsR s
  | .rfcsW v => Sys2Proof.Machine.execRfcsW v s
  | .rsrR => Sys2Proof.Machine.execRsrR s
  | .rsrW v => Sys2Proof.Machine.execRsrW v s
  | .rbadR => Sys2Proof.Machine.execRbadR s
  | .rplrR slot => Sys2Proof.Machine.execRplrR slot s
  | .txbuffW index v => Sys2Proof.Machine.execTxbuffW index v s
  | .rxbuffR slot index via => Sys2Proof.Machine.execRxbuffR slot index via s
  | .classifyIPv4 => Sys2Proof.Machine.execClassifyIPv4 s
  | .classifyARP => Sys2Proof.Machine.execClassifyARP s
  | .classifyIPv6 => Sys2Proof.Machine.execClassifyIPv6 s
  | .classifyUnknown etype => Sys2Proof.Machine.execClassifyUnknown etype s

end Sys2Proof.Machine
end

