-- ==== Sys2Proof/Machine/Step.lean ====
section
/-! DEFINITION. One step: the first event of the agenda (log 2). -/

namespace Sys2Proof.Machine

/-- Run a request: decode it, and run the instruction, or reject it by name. -/
def runRequest (r : Request) (s : State) : Host.Outcome State Fault Refusal :=
  match decode r with
  | .instr i => exec i s
  | .reject e => rejectRequest e s

/-- One step of the machine. -/
def step (s : State) : Host.Outcome State Fault Refusal :=
  match s.agenda with
  | [] => .next (idleTurn s)
  | .device d :: rest => .next (deviceMove d { s with agenda := rest })
  | .request r :: rest => runRequest r { s with agenda := rest }

/-- `s` with the word `w` of an `nbits`-bit table row as the request that the next step runs. -/
def State.withFetchWord (s : State) (nbits w : Nat) : State := placeTableWord nbits w s

end Sys2Proof.Machine
end

