-- ==== Sys2Proof/Safety.lean ====
section
/-! DEFINITION. What counts as a safe state and a safe run, in the terms the statements use. -/

namespace Sys2Proof.Machine

/-- Every listed byte lies in TXBUFF or in one of the eight RXBUFF windows (20_memory.md rule R71). -/
abbrev Memory.inWindows (m : Memory) : Prop :=
  ∀ a ∈ m.map Prod.fst, (0x1000 ≤ a ∧ a < 0x1800) ∨ (0x4000 ≤ a ∧ a < 0x8000)

/-- The base satisfies 20_memory.md rule R72. -/
abbrev BaseOk (base : Word) : Prop := base.toNat % 8 = 0 ∧ base.toNat + 0x8000 ≤ 2 ^ 64

/-- The lifecycle bits agree with the fields they speak of (10_state.md rules R30, R31, R49; 70_reset_and_hazards.md
rule R341). -/
abbrev CtxOk (c : Ctx) : Prop :=
  (c.probed = c.ioBase.isSome) ∧ (c.probed = c.phyAddr.isSome) ∧ (c.started = true → c.probed = true) ∧
    (c.mac.isSome = true → c.probed = true) ∧ (c.started = true → c.mac.isSome = true) ∧
    (∀ base ∈ c.ioBase, BaseOk base)

/-- The REFERENCE ring: depth from 1 to 8, `first` and `next` below it (60_exceptions.md rules R301, R309 a). -/
abbrev RingOk (dev : Device) : Prop :=
  ∀ d ∈ dev.depth, 1 ≤ d ∧ d ≤ 8 ∧ dev.first.toNat < d ∧ dev.next.toNat < d

/-- The DEVICE's state is one the spec describes: the ring is sound and the buffer memory is canonical. -/
abbrev DeviceOk (dev : Device) : Prop := RingOk dev ∧ Memory.wf dev.buf ∧ Memory.inWindows dev.buf

/-- The invariant of the machine between steps. -/
abbrev Inv (s : State) : Prop :=
  s.position = .idle ∧ s.cfg.wellFormed = true ∧ CtxOk s.ctx ∧ DeviceOk s.dev ∧
    (s.cfg.deviceMode = .reference → s.ctx.started = true → s.dev.depth.isSome = true)

/-- A move of the DEVICE, not a HOST invocation. -/
def Move.isDevice : Move → Bool
  | .device _ => true
  | .invoke _ => false

/-- No HOST invocation lands in the middle of an operation: the HOST serializes its calls (60_exceptions.md rule R297). -/
abbrev Quiet (s : State) : Prop := ∀ ms ∈ s.schedule, ∀ m ∈ ms, m.isDevice = true

/-- No HOST invocation lands before the next access; later accesses are left open. -/
abbrev QuietNext (s : State) : Prop := ∀ ms ∈ s.schedule.head?, ∀ m ∈ ms, m.isDevice = true

/-- The effect of one scheduled move on the state; an invocation is left out. -/
def moveEffect (s : State) (m : Move) : State :=
  match m with
  | .device d => deviceMove d s
  | .invoke _ => s

/-- The state in which the next access is performed: the moves at the head of the schedule have been made. -/
def afterOthers (s : State) : State :=
  match s.schedule with
  | [] => s
  | ms :: rest => ms.foldl moveEffect { s with schedule := rest }

/-- The operation may go on from a completed step. -/
def completes (o : Outcome) : Bool :=
  match o with
  | .next _ => true
  | .fault _ => false
  | .refused _ => false

/-- The accesses performed between `s` and `t`: the bus record only grows. -/
def issued (s t : State) : List Access := t.bus.drop s.bus.length

/-- The offset, register and path of each bus-read row (20_memory.md rule R71; 30_encoding.md rule R103). -/
def readRow : Instr → Option (Nat × ReadReg × Via)
  | .macloR => some (0x0800, .maclo, .control)
  | .machiR => some (0x0808, .machi, .control)
  | .tplrR => some (0x0810, .tplr, .control)
  | .mdioctrlR => some (0x0820, .mdioctrl, .control)
  | .rfcsR => some (0x0828, .rfcs, .control)
  | .rsrR => some (0x0830, .rsr, .control)
  | .rbadR => some (0x0838, .rbad, .control)
  | .rplrR slot => some (0x0840 + 8 * slot.toNat, .rplr slot, .control)
  | .rxbuffR slot index via => some (0x4000 + 0x800 * slot.toNat + 8 * index.toNat, .rxbuff slot index, via)
  | _ => none

/-- The offset, register and data of each bus-write row (20_memory.md rule R71; 30_encoding.md rule R103). -/
def writeRow : Instr → Option (Nat × WriteReg × Word)
  | .machiW v => some (0x0808, .machi, v)
  | .tplrW v => some (0x0810, .tplr, v)
  | .tfcsW v => some (0x0818, .tfcs, v)
  | .mdioctrlW v => some (0x0820, .mdioctrl, v)
  | .rfcsW v => some (0x0828, .rfcs, v)
  | .rsrW v => some (0x0830, .rsr, v)
  | .txbuffW index v => some (0x1000 + 8 * index.toNat, .txbuff index, v)
  | _ => none

/-- The offsets a read may select (20_memory.md rule R71, less the directions 30_encoding.md rule R103 leaves out). -/
abbrev readable (off : Nat) : Prop :=
  off ∈ [0x0800, 0x0808, 0x0810, 0x0820, 0x0828, 0x0830, 0x0838] ∨ (0x0840 ≤ off ∧ off ≤ 0x0878) ∨
    (0x4000 ≤ off ∧ off < 0x8000)

/-- The offsets a write may select (20_memory.md rule R71, less the directions 30_encoding.md rule R103 leaves out). -/
abbrev writable (off : Nat) : Prop :=
  off ∈ [0x0808, 0x0810, 0x0818, 0x0820, 0x0828, 0x0830] ∨ (0x1000 ≤ off ∧ off < 0x1800)

/-- The registers whose writes meet a transmission in flight (60_exceptions.md rule R306). -/
def meetsTransmission : WriteReg → Bool
  | .tplr => true
  | .tfcs => true
  | .txbuff _ => true
  | .machi => false
  | .mdioctrl => false
  | .rfcs => false
  | .rsr => false

/-- The DEVICE takes the write: in REFERENCE mode no transmission is met, and RFCS gets a depth from 1 to 8
(60_exceptions.md rules R305, R306). -/
abbrev Accepted (s : State) (r : WriteReg) (v : Word) : Prop :=
  s.cfg.deviceMode = .reference →
    (meetsTransmission r = true → (afterOthers s).dev.txBusy = false) ∧ (r = .rfcs → 1 ≤ v.toNat ∧ v.toNat ≤ 8)

/-- What the REFERENCE DEVICE `dev` answers a read of `r` (60_exceptions.md rule R302). RSR.last, RSR.irq, the TPLR bits outside
the mask, and the RFCS and MDIOCTRL values are any value. -/
def ReferenceAnswer (dev : Device) (mask : Word) (r : ReadReg) (v : Word) : Prop :=
  match r with
  | .maclo => v = dev.maclo
  | .machi => v = dev.machi
  | .tplr => mask ≠ 0 → (v &&& mask ≠ 0 ↔ dev.txBusy = true)
  | .mdioctrl => True
  | .rfcs => True
  | .rsr =>
    v.extractLsb' 0 4 = dev.first ∧ v.extractLsb' 4 4 = dev.next ∧
      (v.getLsbD 12 = true ↔ dev.first ≠ dev.next) ∧ v.extractLsb' 14 50 = 0
  | .rbad =>
    (∀ k : Fin 8, v.getLsbD k.val = (dev.bad.get k).getLsbD 0 ∧ v.getLsbD (k.val + 8) = (dev.bad.get k).getLsbD 1) ∧
      v.extractLsb' 16 48 = dev.rbadHi
  | .rplr slot => v = dev.rplr.get slot.toFin
  | .rxbuff slot index =>
    ∀ j < 8, v.extractLsb' (8 * j) 8 =
      Memory.readByte dev.buf (0x4000 + 0x800 * slot.toNat + 8 * index.toNat + j)

/-- The operations of the CORE: the six of the HOST with `init`, and the resolver (00_scope.md rule R9). -/
def isOperation : Instr → Bool
  | .probe _ _ => true
  | .start => true
  | .send _ _ => true
  | .recv => true
  | .stop => true
  | .hwaddr => true
  | .resolve => true
  | .init => true
  | _ => false

/-- The operation an instruction runs as, which its faults and trace records name (10_state.md rule R33): `init` is `start`
(45_lifecycle.md rule R267), and a bus request of its own is a call of the accessor (log 12). -/
def runningOp : Instr → Op
  | .probe _ _ => .probe
  | .start => .start
  | .init => .start
  | .send _ _ => .send
  | .recv => .recv
  | .stop => .stop
  | .hwaddr => .hwaddr
  | .resolve => .resolve
  | .classify _ => .classify
  | .classifyIPv4 => .classify
  | .classifyARP => .classify
  | .classifyIPv6 => .classify
  | .classifyUnknown _ => .classify
  | .macloR => .access
  | .machiR => .access
  | .machiW _ => .access
  | .tplrR => .access
  | .tplrW _ => .access
  | .tfcsW _ => .access
  | .mdioctrlR => .access
  | .mdioctrlW _ => .access
  | .rfcsR => .access
  | .rfcsW _ => .access
  | .rsrR => .access
  | .rsrW _ => .access
  | .rbadR => .access
  | .rplrR _ => .access
  | .txbuffW _ _ => .access
  | .rxbuffR _ _ _ => .access

/-- The words a `send` of `n` bytes stages: `ceil8(n) / 8` of them, whose bytes are the caller's as far as the caller's buffer
goes (42_transmit.md rules R182, R184). -/
abbrev StagedFrame (frame : List Byte) (n : Nat) (ws : List Word) : Prop :=
  ws.length = (n + 7) / 8 ∧
    ∀ i j w, j < 8 → ws[i]? = some w → 8 * i + j < frame.length → frame[8 * i + j]? = some (w.extractLsb' (8 * j) 8)

/-- The accesses of steps 4 to 6 of a `send` of `n` bytes staged as `ws`: the TFCS reset, word `i` at `0x1000 + 8 * i`, the
trigger (42_transmit.md rules R183 to R186). -/
def sendAccesses (base : Word) (ws : List Word) (n : Nat) : List Access :=
  [writeAt base 0x0818 0] ++ ws.zipIdx.map (fun p => writeAt base (0x1000 + 8 * p.2) p.1) ++
    [writeAt base 0x0810 (BitVec.ofNat 64 n)]

/-- The trace record of an oversize `send`, which holds the length asked for (log 18). -/
def oversizeRecords (length : Nat) : List TraceRecord :=
  if 1536 < length then [⟨.oversizeFrame, .send, .length length⟩] else []

/-- The table of 10_state.md rule R45: what the CORE's operations issue, and nothing else. -/
abbrev listedAccess (cfg : Config) (dir : Dir) (off : Nat) : Prop :=
  match dir with
  | .read =>
    off ∈ [0x0800, 0x0808, 0x0830, 0x0838] ∨ (off = 0x0810 ∧ cfg.txWaitIdle = true) ∨
      (∃ slot < 8, off = 0x0840 + 8 * slot) ∨ (∃ k < 0x800, off = 0x4000 + 8 * k)
  | .write => off ∈ [0x0808, 0x0810, 0x0818, 0x0828, 0x0830] ∨ (∃ k < 192, off = 0x1000 + 8 * k)

/-- A HOST call of the CORE in a context that has been probed at `base`, while nothing else is running. -/
abbrev ReadyAt (s : State) (base : Word) : Prop :=
  s.position = .idle ∧ s.ctx.probed = true ∧ s.ctx.ioBase = some base

end Sys2Proof.Machine
end

