-- ==== Sys2Proof/Certificates/Slice0/Obligations.lean ====
section
/-! DEFINITION. The statements for the provers. Each docstring names the rule of spec/ it formalises. -/

open Sys2Proof Sys2Proof.Machine

/-! ## Encoding -/

/-- Words written out from 30_encoding.md rules R101, R103 and R114 decode to the instructions they stand for. That the RXBUFF.R word
stands for the bare access of a window copy, and not for a call of the accessor, is the model's choice (log 38). -/
def Obligations.WrittenWordsDecode : Prop :=
  decode (.host 0b00000100 {}) = .instr .recv ∧
  decode (.host 0b00000010 {}) = .instr .start ∧
  decode (.internal 0b10000000 {}) = .instr .resolve ∧
  decode (.bus 0b0000100000110000 0) = .instr .rsrR ∧
  decode (.bus 0b1000100000110000 4) = .instr (.rsrW 4) ∧
  decode (.bus 0b0000100001011000 0) = .instr (.rplrR 3) ∧
  decode (.bus 0b1001000000001000 7) = .instr (.txbuffW 1 7) ∧
  decode (.bus 0b0101100000101000 0) = .instr (.rxbuffR 3 5 .copy) ∧
  decode (.ethertype 0b1000011011011101) = .instr .classifyIPv6

/-- 30_encoding.md rules R101, R103, R114: decoding the words of a well-formed instruction gives it back, `init` as the
`start` it is another name of (45_lifecycle.md rule R267). Which of the two RXBUFF reads the bus-request word stands for is the
model's choice (log 38). -/
def Obligations.DecodeInvertsEncode : Prop :=
  ∀ i : Instr, i.wellFormed = true → decode (encode i) = .instr i.core

/-- 30_encoding.md rule R103: a bus-request word that decodes is the word the encoder writes for that instruction. Which of
the two RXBUFF reads it stands for is the model's choice (log 38). -/
def Obligations.EncodeInvertsBusDecode : Prop :=
  ∀ (q : BitVec 16) (v : Word) (i : Instr), decode (.bus q v) = .instr i → ∃ d, encode i = .bus q d

/-- 30_encoding.md rule R103: no word matches two rows of the address decode, so the order of the rows does not matter. -/
def Obligations.BusRowsExclusive : Prop :=
  ∀ (q : BitVec 16) (m n : Nat) (a b : BusRow), busTable[m]? = some a → busTable[n]? = some b →
    a.hits q = true → b.hits q = true → m = n

/-- 20_memory.md rule R71 with 30_encoding.md rule R103: which offsets a read and a write select, and which register. -/
def Obligations.OffsetsSelectTheMappedRegisters : Prop :=
  (∀ off, off % 8 ≠ 0 → mapRead off = .bad .misaligned ∧ mapWrite off = .bad .misaligned) ∧
  (∀ off, off % 8 = 0 → ¬ readable off → mapRead off = .bad .unmapped) ∧
  (∀ off, off % 8 = 0 → ¬ writable off → mapWrite off = .bad .unmapped) ∧
  (∀ i off r via, readRow i = some (off, r, via) → mapRead off = .at r ∧ readable off) ∧
  (∀ i off r v, writeRow i = some (off, r, v) → mapWrite off = .at r ∧ writable off) ∧
  (∀ off, off % 8 = 0 → readable off → ∃ r, mapRead off = .at r) ∧
  (∀ off, off % 8 = 0 → writable off → ∃ r, mapWrite off = .at r)

/-- 30_encoding.md rule R115: a HOST call with an unassigned code, or with one of the two internal codes, is refused. That a call
from the agenda is refused so even where an operation would be in progress is the model's choice (log 40). -/
def Obligations.ReservedCodesRefused : Prop :=
  ∀ (code : BitVec 8) (a : Args) (s : State) (rest : List Event), s.agenda = .request (.host code a) :: rest →
    (code = 0x80 ∨ code = 0x81 → step s = .refused (.internalCode code)) ∧
    (code = 0 ∨ (7 ≤ code.toNat ∧ code.toNat ≤ 0x7F) ∨ 0x82 ≤ code.toNat → step s = .refused (.invalidCode code))

/-! ## Computed operands -/

/-- 30_encoding.md rule R106, 43_receive.md rule R210: the two bits of the error mask, and what makes a slot unusable. -/
def Obligations.ErrorMaskTestsBothBits : Prop :=
  (∀ slot k, k < 64 → ((errorMask slot).getLsbD k = true ↔ k = slot % 8 ∨ k = slot % 8 + 8)) ∧
  (∀ rbad slot, slotUsable rbad slot = true ↔ rbad &&& errorMask slot = 0) ∧
  (∀ rbad slot, slotUsable rbad slot = false ↔
    rbad.getLsbD (slot % 8) = true ∨ rbad.getLsbD (slot % 8 + 8) = true) ∧
  (List.range 8).map errorMask = [0x0101, 0x0202, 0x0404, 0x0808, 0x1010, 0x2020, 0x4040, 0x8080]

/-- 30_encoding.md rule R108: the valid raw lengths. -/
def Obligations.PayloadLengthRange : Prop :=
  ∀ mask rplr : Word,
    payloadLength mask rplr = ((rplr &&& mask).toNat : Int) - 4 ∧
    ((14 ≤ payloadLength mask rplr ∧ payloadLength mask rplr ≤ 1536) ↔
      18 ≤ (rplr &&& mask).toNat ∧ (rplr &&& mask).toNat ≤ 1540)

/-- 30_encoding.md rule R109: the rounded length is the least multiple of 8 that holds the bytes, and counts the words. -/
def Obligations.RoundedLength : Prop :=
  (∀ n, ceil8 n = (n + 7) / 8 * 8 ∧ wordCount n = ceil8 n / 8 ∧ n ≤ ceil8 n ∧ ceil8 n < n + 8 ∧ ceil8 n = 8 * wordCount n) ∧
  [0, 1, 8, 9, 14, 42, 60, 1536].map wordCount = [0, 1, 1, 2, 2, 6, 8, 192]

/-- 30_encoding.md rule R110, 41_mac_resolver.md rule R162: packing six octets into MACLO and MACHI, whatever the bits above
them hold, and resolving gives the octets back. -/
def Obligations.MacOctetsRoundTrip : Prop :=
  ∀ (m0 m1 m2 m3 m4 m5 : Byte) (lo : BitVec 32) (hi : BitVec 48),
    macOctets (lo ++ m2 ++ m3 ++ m4 ++ m5) (hi ++ m0 ++ m1) = #v[m0, m1, m2, m3, m4, m5]

/-- 30_encoding.md rule R111: the write-back operand in both readings. -/
def Obligations.WritebackClearsIrqEnable : Prop :=
  ∀ machi : Word,
    writebackValue .masked machi = machi &&& 0xFFFF ∧
    writebackValue .clearIrqOnly machi = machi &&& ~~~(1#64 <<< 21) ∧
    ∀ mode, (writebackValue mode machi).getLsbD 21 = false ∧
      (writebackValue mode machi).extractLsb' 0 16 = machi.extractLsb' 0 16

/-- 30_encoding.md rule R114 (the Ethertype operand): the word at slot base + 8 holds frame bytes 8 to 15, and the Ethertype is
bytes 12 and 13, byte 12 the more significant. -/
def Obligations.EthertypeIsBytes12And13 : Prop :=
  ∀ f : Nat → Byte, etherTypeOf (packWord fun j => f (8 + j)) = f 12 ++ f 13

/-! ## Register-window accesses -/

/-- 40_register_access.md rule R140, 20_memory.md rule R74: every bus-read row completes with one read at its address and
returns the DEVICE's answer; a read has no side effect (20_memory.md rule R81). That the ABSTRACT answers stand in the script is the
model's choice (log 3). -/
def Obligations.ReadRequestsComplete : Prop :=
  ∀ (i : Instr) (off : Nat) (r : ReadReg) (via : Via), readRow i = some (off, r, via) →
  ∀ (s : State) (base : Word), s.ctx.ioBase = some base → Quiet s →
    (s.cfg.diagBuild = false ∨ off < 0x4000 ∨ via = .copy) →
    ∃ t v, exec i s = .next t ∧
      t.bus = s.bus ++ [readAt base off v] ∧ t.returned = s.returned ++ [.value v] ∧
      (s.cfg.deviceMode = .abstr → ∀ d rest, s.script = d :: rest → v = d ∧ t.script = rest ∧ t.draws = s.draws) ∧
      t.cfg = s.cfg ∧ t.ctx = s.ctx ∧ t.position = s.position ∧ t.agenda = s.agenda ∧ t.trace = s.trace ∧
      t.schedule = s.schedule.tail ∧
      t.dev = (afterOthers s).dev ∧
      ∀ a, Memory.readByte t.dev.buf a = Memory.readByte (afterOthers s).dev.buf a

/-- 60_exceptions.md rule R302: the REFERENCE DEVICE's read values. -/
def Obligations.ReferenceReadValues : Prop :=
  ∀ (i : Instr) (off : Nat) (r : ReadReg) (via : Via), readRow i = some (off, r, via) →
  ∀ (s : State) (base : Word), s.cfg.deviceMode = .reference → s.ctx.ioBase = some base → Quiet s →
    (s.cfg.diagBuild = false ∨ off < 0x4000 ∨ via = .copy) →
    ∃ t v, exec i s = .next t ∧ t.returned = s.returned ++ [.value v] ∧
      ReferenceAnswer (afterOthers s).dev s.cfg.tplrBusyMask r v

/-- 40_register_access.md rule R141, 20_memory.md rule R75: every bus-write row that the DEVICE takes completes with one write at
its address; that in ABSTRACT mode the DEVICE's fields stay as they were is the model's choice (log 31). -/
def Obligations.WriteRequestsComplete : Prop :=
  ∀ (i : Instr) (off : Nat) (r : WriteReg) (v : Word), writeRow i = some (off, r, v) →
  ∀ (s : State) (base : Word), s.ctx.ioBase = some base → Quiet s → Accepted s r v →
    ∃ t, exec i s = .next t ∧
      t.bus = s.bus ++ [writeAt base off v] ∧ t.returned = s.returned ++ [.unit] ∧
      t.cfg = s.cfg ∧ t.ctx = s.ctx ∧ t.position = s.position ∧ t.agenda = s.agenda ∧ t.trace = s.trace ∧
      t.script = s.script ∧ t.schedule = s.schedule.tail ∧
      (s.cfg.deviceMode = .abstr → t.dev = s.dev)

/-- 60_exceptions.md rule R304: the REFERENCE acknowledge. -/
def Obligations.ReferenceAcknowledge : Prop :=
  ∀ (s : State) (base v : Word) (d : Nat), s.cfg.deviceMode = .reference → s.ctx.ioBase = some base → Quiet s →
    (afterOthers s).dev.depth = some d → 1 ≤ d → d ≤ 8 →
    ∃ t, exec (.rsrW v) s = .next t ∧
      t.dev.first.toNat = (v.extractLsb' 0 4).toNat % d ∧
      t.dev = { (afterOthers s).dev with first := t.dev.first } ∧
      (v = 8 → d = 8 → t.dev.first = 0)

/-- 60_exceptions.md rule R305: the REFERENCE ring configuration. -/
def Obligations.ReferenceRingConfiguration : Prop :=
  ∀ (s : State) (base v : Word), s.cfg.deviceMode = .reference → s.ctx.ioBase = some base → Quiet s →
    (1 ≤ v.toNat ∧ v.toNat ≤ 8 →
      ∃ t, exec (.rfcsW v) s = .next t ∧
        t.dev = { (afterOthers s).dev with depth := some v.toNat, first := 0, next := 0 }) ∧
    (v.toNat = 0 ∨ 9 ≤ v.toNat → exec (.rfcsW v) s = .fault (.deviceConfig v))

/-- 60_exceptions.md rule R306: the REFERENCE transmit writes: refused while busy; otherwise a TXBUFF write stores its 8 bytes and
no other, and TPLR records the pending frame. That a TFCS write is kept as the frame-check state is the model's choice (log 24). -/
def Obligations.ReferenceTransmitWrites : Prop :=
  ∀ (s : State) (base : Word), s.cfg.deviceMode = .reference → s.ctx.ioBase = some base → Quiet s →
    ((afterOthers s).dev.txBusy = true →
      (∀ v, exec (.tfcsW v) s = .fault (.txOverlap 0x0818)) ∧
      (∀ v, exec (.tplrW v) s = .fault (.txOverlap 0x0810)) ∧
      (∀ index v, exec (.txbuffW index v) s = .fault (.txOverlap (0x1000 + 8 * index.toNat)))) ∧
    ((afterOthers s).dev.txBusy = false →
      (∀ v, ∃ t, exec (.tfcsW v) s = .next t ∧ t.dev = { (afterOthers s).dev with tfcs := v }) ∧
      (∀ v : Word, v.toNat ≤ 0x800 → ∃ t, exec (.tplrW v) s = .next t ∧
        t.dev = { (afterOthers s).dev with txBusy := true, pending := t.dev.pending } ∧
        t.dev.pending.length = v.toNat ∧
        ∀ k < v.toNat, t.dev.pending[k]? = some (Memory.readByte (afterOthers s).dev.buf (0x1000 + k))) ∧
      (∀ index v, ∃ t, exec (.txbuffW index v) s = .next t ∧
        t.dev = { (afterOthers s).dev with buf := t.dev.buf } ∧
        (∀ j < 8, Memory.readByte t.dev.buf (0x1000 + 8 * index.toNat + j) = v.extractLsb' (8 * j) 8) ∧
        ∀ a, a < 0x1000 + 8 * index.toNat ∨ 0x1000 + 8 * index.toNat + 8 ≤ a →
          Memory.readByte t.dev.buf a = Memory.readByte (afterOthers s).dev.buf a))

/-- 60_exceptions.md rule R308: MACHI stores what is written, MDIOCTRL ignores it, and no instruction writes MACLO. The last of
these is said of either mode: that an ABSTRACT DEVICE's MACLO stays as it was is the model's choice (log 31). -/
def Obligations.ReferenceMacRegisters : Prop :=
  (∀ (s : State) (base v : Word), s.cfg.deviceMode = .reference → s.ctx.ioBase = some base → Quiet s →
    (∃ t, exec (.machiW v) s = .next t ∧ t.dev = { (afterOthers s).dev with machi := v }) ∧
    (∃ t, exec (.mdioctrlW v) s = .next t ∧ t.dev = (afterOthers s).dev)) ∧
  (∀ i s t, exec i s = .next t → t.dev.maclo = s.dev.maclo)

/-- 20_memory.md rules R73, R76, 40_register_access.md rules R140, R141: a misaligned access faults, in a diagnostic build too,
and so does one at an unmapped offset, before the access is performed; misaligned is reported first (60_exceptions.md rule R285).
The same of a bus-request word that matches no row (30_encoding.md rule R103); that such a word is a bare access, to which the
diagnostic check does not apply, is the model's choice (log 38). -/
def Obligations.UnmappedAccessesFault : Prop :=
  ∀ (s : State) (base : Word), s.ctx.ioBase = some base →
    (∀ (dir : Dir) (off : Nat) (v : Word),
      (off % 8 ≠ 0 → runRequest (.access dir off v) s = .fault (.misaligned off)) ∧
      (off % 8 = 0 → s.cfg.diagBuild = false ∨ off < 0x4000 → dir = .read → ¬ readable off →
        runRequest (.access dir off v) s = .fault (.unmapped off)) ∧
      (off % 8 = 0 → s.cfg.diagBuild = false ∨ off < 0x4000 → dir = .write → ¬ writable off →
        runRequest (.access dir off v) s = .fault (.unmapped off))) ∧
    (∀ (q : BitVec 16) (off : Nat) (v : Word), off = (q.extractLsb' 0 15).toNat →
      (off % 8 ≠ 0 → runRequest (.bus q v) s = .fault (.misaligned off)) ∧
      (off % 8 = 0 → q.getLsbD 15 = false → ¬ readable off → runRequest (.bus q v) s = .fault (.unmapped off)) ∧
      (off % 8 = 0 → q.getLsbD 15 = true → ¬ writable off → runRequest (.bus q v) s = .fault (.unmapped off)))

/-- 40_register_access.md rule R145: the diagnostic build does not perform a control access at or beyond 0x4000; it traces it and
goes on, a read with any value; a window copy's access is performed. That the record names the accessor as its operation is the
model's choice (log 12). -/
def Obligations.DiagnosticBuildRejects : Prop :=
  ∀ (s : State) (base : Word), s.ctx.ioBase = some base → s.cfg.diagBuild = true →
    (∀ (off : Nat) (v : Word), off % 8 = 0 → 0x4000 ≤ off →
      (∃ t d, runRequest (.access .read off v) s = .next t ∧
        t = { s with script := t.script, draws := t.draws,
                     trace := s.trace ++ [⟨.registerOutOfRange, .access, .offset off⟩],
                     returned := s.returned ++ [.value d] }) ∧
      runRequest (.access .write off v) s =
        .next { s with trace := s.trace ++ [⟨.registerOutOfRange, .access, .offset off⟩],
                       returned := s.returned ++ [.unit] }) ∧
    (Quiet s → ∀ slot index, ∃ t v, exec (.rxbuffR slot index .copy) s = .next t ∧
      t.bus = s.bus ++ [readAt base (0x4000 + 0x800 * slot.toNat + 8 * index.toNat) v] ∧ t.trace = s.trace)

/-- 10_state.md rule R45: the accesses the CORE's operations issue are those of the table. -/
def Obligations.OnlyListedAccesses : Prop :=
  ∀ (i : Instr) (s t : State), isOperation i = true → Inv s → exec i s = .next t →
    ∀ a ∈ issued s t, ∃ base off, s.ctx.ioBase = some base ∧ a.addr = base + BitVec.ofNat 64 off ∧
      listedAccess s.cfg a.dir off

/-! ## Lifecycle -/

/-- 45_lifecycle.md rule R260: `probe` sets the context and touches no register; a base that breaks 20_memory.md rule R72
faults, and so does a second `probe`, whatever its base (60_exceptions.md rule R285; log 11). -/
def Obligations.ProbeSetsTheContext : Prop :=
  ∀ (s : State) (base : Word) (phy : Int), s.position = .idle →
    (s.ctx.probed = true → exec (.probe base phy) s = .fault (.reprobe .probe)) ∧
    (s.ctx.probed = false → base.toNat % 8 ≠ 0 → exec (.probe base phy) s = .fault (.misaligned base.toNat)) ∧
    (s.ctx.probed = false → base.toNat % 8 = 0 → 2 ^ 64 < base.toNat + 0x8000 →
      exec (.probe base phy) s = .fault (.unmapped base.toNat)) ∧
    (s.ctx.probed = false → base.toNat % 8 = 0 → base.toNat + 0x8000 ≤ 2 ^ 64 →
      exec (.probe base phy) s =
        .next { s with ctx := { s.ctx with ioBase := some base, phyAddr := some phy, probed := true },
                       returned := s.returned ++ [.unit] })

/-- 45_lifecycle.md rule R265: `stop` makes no access and changes nothing. -/
def Obligations.StopChangesNothing : Prop :=
  ∀ s : State, s.position = .idle →
    (s.ctx.probed = true → exec .stop s = .next { s with returned := s.returned ++ [.unit] }) ∧
    (s.ctx.probed = false → exec .stop s = .fault (.notProbed .stop))

/-- 41_mac_resolver.md rule R160 and 45_lifecycle.md rule R266: `hwaddr`, and `resolve` inside the CORE, read MACLO, read MACHI,
write MACHI back with `irq_en` clear, store the six octets and return them; in the REFERENCE DEVICE the registers hold what was
read and take what was written (60_exceptions.md rules R302, R308). Before `probe` each faults under its own name (rule R283).
That in ABSTRACT mode the DEVICE's fields stay as they were is the model's choice (log 31). -/
def Obligations.ResolverReadsAndWritesBack : Prop :=
  ∀ (i : Instr), i = .hwaddr ∨ i = .resolve → ∀ s : State, s.position = .idle →
    (s.ctx.probed = false → exec i s = .fault (.notProbed (if i = .hwaddr then .hwaddr else .resolve))) ∧
    (∀ base, ReadyAt s base → Quiet s →
      ∃ t maclo machi wb, exec i s = .next t ∧
        wb = (match s.cfg.machiWriteback with
          | .masked => machi &&& 0xFFFF
          | .clearIrqOnly => machi &&& ~~~(1#64 <<< 21)) ∧
        t.bus = s.bus ++ [readAt base 0x0800 maclo, readAt base 0x0808 machi, writeAt base 0x0808 wb] ∧
        t.ctx = { s.ctx with mac := some #v[machi.extractLsb' 8 8, machi.extractLsb' 0 8, maclo.extractLsb' 24 8,
          maclo.extractLsb' 16 8, maclo.extractLsb' 8 8, maclo.extractLsb' 0 8] } ∧
        t.returned = s.returned ++ t.ctx.mac.toList.map .mac ∧
        (s.cfg.deviceMode = .reference → maclo = s.dev.maclo ∧ machi = s.dev.machi ∧ t.dev.machi = wb) ∧
        (s.cfg.deviceMode = .abstr → t.dev = s.dev) ∧
        t.cfg = s.cfg ∧ t.position = .idle ∧ t.agenda = s.agenda ∧ t.trace = s.trace ∧
        t.schedule = s.schedule.drop 3)

/-- 45_lifecycle.md rule R261: `start` makes exactly four accesses, in order, and configures the ring, in the REFERENCE DEVICE as
60_exceptions.md rules R305 and R308 say. That in ABSTRACT mode the DEVICE's fields stay as they were is the model's choice
(log 31). -/
def Obligations.StartConfiguresTheRing : Prop :=
  ∀ s : State, s.position = .idle →
    (s.ctx.probed = false → exec .start s = .fault (.notProbed .start)) ∧
    (∀ base, ReadyAt s base → Quiet s → s.cfg.wellFormed = true →
      ∃ t maclo machi wb, exec .start s = .next t ∧ wb = writebackValue s.cfg.machiWriteback machi ∧
        t.bus = s.bus ++ [readAt base 0x0800 maclo, readAt base 0x0808 machi, writeAt base 0x0808 wb,
          writeAt base 0x0828 (BitVec.ofNat 64 s.cfg.ringDepth)] ∧
        t.ctx = { s.ctx with mac := some (macOctets maclo machi), started := true } ∧
        t.returned = s.returned ++ [.unit] ∧
        (s.cfg.deviceMode = .reference → t.dev.machi = wb ∧ wb.getLsbD 21 = false ∧
          t.dev.depth = some s.cfg.ringDepth ∧ t.dev.first = 0 ∧ t.dev.next = 0) ∧
        (s.cfg.deviceMode = .abstr → t.dev = s.dev) ∧
        t.cfg = s.cfg ∧ t.position = .idle ∧ t.agenda = s.agenda ∧ t.trace = s.trace ∧
        t.schedule = s.schedule.drop 4)

/-- The reading of `init` as `start`, which 45_lifecycle.md calls the spec's choice (log 14): `init` completes where `start` does,
with the same four accesses, and answers in every state as `start` does. -/
def Obligations.InitDoesWhatStartDoes : Prop :=
  (∀ (s : State) (base : Word), ReadyAt s base → Quiet s → s.cfg.wellFormed = true →
    ∃ t maclo machi, exec .init s = .next t ∧ exec .start s = .next t ∧ t.ctx.started = true ∧
      t.bus = s.bus ++ [readAt base 0x0800 maclo, readAt base 0x0808 machi,
        writeAt base 0x0808 (writebackValue s.cfg.machiWriteback machi),
        writeAt base 0x0828 (BitVec.ofNat 64 s.cfg.ringDepth)]) ∧
  ∀ s, exec .init s = exec .start s

/-- 45_lifecycle.md rule R268: a call that breaks its precondition faults. That `send` and `recv` report `F_NOT_STARTED` before
`probe` too is read from their pseudocode, 42_transmit.md rule R180 and 43_receive.md rule R200 (log 10), and that a second `probe`
faults so whatever its base from 60_exceptions.md rule R285 (log 11). -/
def Obligations.MisorderedCallsFault : Prop :=
  ∀ s : State, s.position = .idle → CtxOk s.ctx →
    (s.ctx.probed = true → ∀ base phy, exec (.probe base phy) s = .fault (.reprobe .probe)) ∧
    (s.ctx.probed = false →
      exec .start s = .fault (.notProbed .start) ∧ exec .stop s = .fault (.notProbed .stop) ∧
      exec .hwaddr s = .fault (.notProbed .hwaddr) ∧
      exec .recv s = .fault (.notStarted .recv) ∧
      ∀ frame length, exec (.send frame length) s = .fault (.notStarted .send)) ∧
    (s.ctx.started = false →
      exec .recv s = .fault (.notStarted .recv) ∧
      ∀ frame length, exec (.send frame length) s = .fault (.notStarted .send))

/-- 60_exceptions.md rule R297: a HOST invocation while an operation is in progress faults, whether it is the operation the HOST
calls or one that lands before any access of the operation that runs: with the moves `qs` before the first accesses of an operation
that would make more, a landing before the next access faults. That a landing stands in the schedule is the model's choice (log 1,
log 32), and so is that a register access of its own counts as a running operation and is named `access` (log 12), and that an
internal operation or an access that lands faults so too (log 40), and that a call which also breaks its own precondition
(45_lifecycle.md rule R268) reports this fault (log 41). -/
def Obligations.ConcurrentCallsFault : Prop :=
  (∀ (s : State) (running : Op) (k : StepIndex), s.position = .running running k →
    (∀ base phy, exec (.probe base phy) s = .fault (.concurrent running .probe)) ∧
    exec .start s = .fault (.concurrent running .start) ∧ exec .stop s = .fault (.concurrent running .stop) ∧
    exec .recv s = .fault (.concurrent running .recv) ∧ exec .hwaddr s = .fault (.concurrent running .hwaddr) ∧
    ∀ frame length, exec (.send frame length) s = .fault (.concurrent running .send)) ∧
  (∀ (s : State) (base : Word) (op : Op) (ds : List DeviceMove) (more : List Move) (rest : List (List Move)),
    ReadyAt s base → s.schedule = (ds.map Move.device ++ .invoke op :: more) :: rest →
    exec .hwaddr s = .fault (.concurrent .hwaddr op) ∧
    (s.ctx.started = true → exec .recv s = .fault (.concurrent .recv op))) ∧
  (∀ (i : Instr) (s t : State) (op : Op) (qs : List (List Move)) (ds : List DeviceMove) (more : List Move)
    (rest : List (List Move)), exec i { s with schedule := qs } = .next t → qs.length < (issued s t).length →
    exec i { s with schedule := qs ++ (ds.map Move.device ++ .invoke op :: more) :: rest } =
      .fault (.concurrent (runningOp i) op))

/-! ## Transmit -/

/-- 42_transmit.md rules R180 to R187: without the optional wait, `send` resets TFCS, stages the words in increasing order and
triggers with the clamped length, whatever the length; an oversize length is truncated and traced. That the record holds the length
asked for is read from the spec by inference (log 18), and that in ABSTRACT mode the DEVICE's fields stay as they were is the
model's choice (log 31). -/
def Obligations.SendStagesAndTriggers : Prop :=
  ∀ (s : State) (base : Word) (frame : List Byte) (length : Nat), ReadyAt s base → s.ctx.started = true → Quiet s →
    s.cfg.txWaitIdle = false → (s.cfg.deviceMode = .reference → (afterOthers s).dev.txBusy = false) →
    ∃ (t : State) (ws : List Word), exec (.send frame length) s = .next t ∧
      ws.length = (min length 1536 + 7) / 8 ∧
      (∀ i j w, j < 8 → ws[i]? = some w → 8 * i + j < frame.length →
        frame[8 * i + j]? = some (w.extractLsb' (8 * j) 8)) ∧
      t.bus = s.bus ++ [writeAt base 0x0818 0] ++ ws.zipIdx.map (fun p => writeAt base (0x1000 + 8 * p.2) p.1) ++
        [writeAt base 0x0810 (BitVec.ofNat 64 (min length 1536))] ∧
      t.returned = s.returned ++ [.unit] ∧
      t.trace = s.trace ++ (if 1536 < length then [⟨.oversizeFrame, .send, .length length⟩] else []) ∧
      (s.cfg.deviceMode = .abstr → t.dev = s.dev) ∧
      t.cfg = s.cfg ∧ t.ctx = s.ctx ∧ t.position = .idle ∧ t.agenda = s.agenda ∧ t.script = s.script ∧
      t.schedule = s.schedule.drop ((min length 1536 + 7) / 8 + 2)

/-- 42_transmit.md rule R192: the access counts of a `send` without the wait. -/
def Obligations.SendAccessCounts : Prop :=
  (∀ (s t : State) (frame : List Byte) (length : Nat), s.cfg.txWaitIdle = false →
    exec (.send frame length) s = .next t →
    (issued s t).length = ceil8 (min length 1536) / 8 + 2 ∧ (∀ a ∈ issued s t, a.dir = .write) ∧
    (14 ≤ length → length ≤ 1536 → ∀ base, s.ctx.ioBase = some base →
      8 * ((issued s t).filter fun a =>
        decide (0x1000 ≤ (a.addr - base).toNat ∧ (a.addr - base).toNat < 0x1800)).length = (length + 7) / 8 * 8)) ∧
  [0, 14, 42, 60, 1536].map (fun n => ceil8 n / 8 + 2) = [2, 4, 8, 10, 194]

/-- 42_transmit.md rule R190: with the optional wait, `send` polls TPLR until the busy bits are clear; after `TX_WAIT_CAP` busy
polls it returns `Timeout`, with nothing staged and nothing triggered; an oversize length is traced first (log 18). In ABSTRACT
mode the polled values are the script's; that the DEVICE's fields stay as they were there is the model's choice (log 31). In
REFERENCE mode see `ReferenceSendWaitsForIdle`. -/
def Obligations.SendWaitsForIdle : Prop :=
  ∀ (s : State) (base : Word) (frame : List Byte) (length : Nat) (polls rest : List Word), ReadyAt s base →
    s.ctx.started = true → Quiet s → s.cfg.deviceMode = .abstr → s.cfg.txWaitIdle = true → s.script = polls ++ rest →
    (∀ v ∈ polls, v &&& s.cfg.tplrBusyMask ≠ 0) →
    (polls.length = s.cfg.txWaitCap →
      exec (.send frame length) s =
        .next { s with script := rest, schedule := s.schedule.drop polls.length,
                       bus := s.bus ++ polls.map (readAt base 0x0810),
                       trace := s.trace ++ oversizeRecords length ++ [⟨.timeout, .send, .length length⟩],
                       returned := s.returned ++ [.timeout] }) ∧
    (∀ v more, rest = v :: more → polls.length < s.cfg.txWaitCap → v &&& s.cfg.tplrBusyMask = 0 →
      ∃ t ws, exec (.send frame length) s = .next t ∧ StagedFrame frame (min length 1536) ws ∧
        t.bus = s.bus ++ polls.map (readAt base 0x0810) ++ [readAt base 0x0810 v] ++
          sendAccesses base ws (min length 1536) ∧
        t.returned = s.returned ++ [.unit] ∧ t.script = more ∧ t.trace = s.trace ++ oversizeRecords length ∧
        t.schedule = s.schedule.drop (polls.length + 1 + ((min length 1536 + 7) / 8 + 2)) ∧
        t.dev = s.dev ∧ t.ctx = s.ctx ∧ t.cfg = s.cfg ∧ t.position = .idle ∧ t.agenda = s.agenda)

/-- 42_transmit.md rule R189, 60_exceptions.md rule R286: an overlapping `send` faults at its first write. -/
def Obligations.OverlappingSendFaults : Prop :=
  ∀ (s : State) (base : Word) (frame : List Byte) (length : Nat), ReadyAt s base → s.ctx.started = true → Quiet s →
    s.cfg.deviceMode = .reference → s.cfg.txWaitIdle = false → (afterOthers s).dev.txBusy = true →
    exec (.send frame length) s = .fault (.txOverlap 0x0818)

/-- 42_transmit.md rule R186, 60_exceptions.md rules R306, R307, R312: in the REFERENCE DEVICE a `send` that meets no transmission
reaches the wire: after the call and the completion that fairness forces, the wire has one more frame, of the clamped length,
whose bytes are the caller's. When the forced completion happens (log 2) and that the TFCS value is kept (log 24) are the model's
choices, and so is that the frame sent stays in the field `pending` (log 23). -/
def Obligations.ReferenceSendReachesTheWire : Prop :=
  ∀ (s : State) (base : Word) (frame : List Byte) (length : Nat), ReadyAt s base → s.ctx.started = true → s.schedule = [] →
    s.cfg.deviceMode = .reference → s.cfg.txWaitIdle = false → s.dev.txBusy = false →
    s.agenda = [.request (.host 0x03 { frame := frame, length := length })] →
    ∃ t w, Sys2Proof.core.run 2 s = .next t ∧ t.dev.wire = s.dev.wire ++ [w] ∧ t.dev.txBusy = false ∧
      w.length = min length 1536 ∧ (∀ k < w.length, k < frame.length → w[k]? = frame[k]?) ∧
      (∀ a, a < 0x1000 ∨ 0x1000 + 8 * ((min length 1536 + 7) / 8) ≤ a →
        Memory.readByte t.dev.buf a = Memory.readByte s.dev.buf a) ∧
      t.dev = { s.dev with tfcs := 0, buf := t.dev.buf, pending := w, wire := t.dev.wire }

/-! ## Receive -/

/-- 43_receive.md rule R201: a poll that finds `done` clear is one RSR read and nothing else; and a completed call reads RSR
exactly once, whatever it finds. That an ABSTRACT DEVICE's fields stay as they were, through the DEVICE steps before the read too,
is the model's choice (log 31). -/
def Obligations.EmptyPollReadsRsrOnly : Prop :=
  (∀ (s : State) (base rsr : Word) (rest : List Word), ReadyAt s base → s.ctx.started = true → Quiet s →
    s.cfg.deviceMode = .abstr → s.script = rsr :: rest → rsr.getLsbD 12 = false →
    exec .recv s =
      .next { s with script := rest, schedule := s.schedule.drop 1, bus := s.bus ++ [readAt base 0x0830 rsr],
                     returned := s.returned ++ [.noFrame] }) ∧
  (∀ (s : State) (base : Word), ReadyAt s base → s.ctx.started = true → Quiet s → s.cfg.deviceMode = .reference →
    (afterOthers s).dev.first = (afterOthers s).dev.next →
    ∃ t v, exec .recv s = .next t ∧ t.bus = s.bus ++ [readAt base 0x0830 v] ∧ t.dev = (afterOthers s).dev ∧
      t.returned = s.returned ++ [.noFrame] ∧ t.trace = s.trace ∧ t.ctx = s.ctx) ∧
  (∀ (s t : State) (base : Word), s.ctx.ioBase = some base → exec .recv s = .next t →
    ((issued s t).filter fun a => decide (a.dir = .read ∧ a.addr = base + 0x0830)).length = 1)

/-- 43_receive.md rule R203: a slot outside the ring faults right after the RSR read, before the RBAD read: whatever the schedule
holds for a second access, a HOST invocation that would land there (log 1, log 32) included, the fault is `F_SLOT_RANGE`. In
ABSTRACT mode the RSR value is the script's; in REFERENCE mode it is the ring's `first` (60_exceptions.md rule R302), which a depth
above RING_DEPTH lets run past the ring of the CORE (rule R305). -/
def Obligations.SlotOutsideRingFaults : Prop :=
  ∀ (s : State) (base : Word), ReadyAt s base → s.ctx.started = true → QuietNext s →
    (s.cfg.deviceMode = .abstr → ∀ (rsr : Word) (rest : List Word), s.script = rsr :: rest → rsr.getLsbD 12 = true →
      s.cfg.ringDepth ≤ (rsr.extractLsb' 0 4).toNat →
      exec .recv s = .fault (.slotRange (rsr.extractLsb' 0 4).toNat)) ∧
    (s.cfg.deviceMode = .reference → (afterOthers s).dev.first ≠ (afterOthers s).dev.next →
      s.cfg.ringDepth ≤ (afterOthers s).dev.first.toNat →
      exec .recv s = .fault (.slotRange (afterOthers s).dev.first.toNat))

/-- 43_receive.md rules R211, R220: an unusable slot is dropped as `RingSlotError` with RPLR, the Ethertype and the buffer not
read, and acknowledged. That the acknowledge leaves an ABSTRACT DEVICE's fields as they were is the model's choice (log 31). -/
def Obligations.ErroredSlotDropped : Prop :=
  ∀ (s : State) (base rsr rbad : Word) (rest : List Word) (slot : Nat), ReadyAt s base → s.ctx.started = true → Quiet s →
    s.cfg.deviceMode = .abstr → s.cfg.wellFormed = true → s.script = rsr :: rbad :: rest → rsr.getLsbD 12 = true →
    slot = (rsr.extractLsb' 0 4).toNat → slot < s.cfg.ringDepth → rbad &&& (0x101#64 <<< slot) ≠ 0 →
    exec .recv s =
      .next { s with script := rest, schedule := s.schedule.drop 3,
                     bus := s.bus ++ [readAt base 0x0830 rsr, readAt base 0x0838 rbad,
                       writeAt base 0x0830 (BitVec.ofNat 64 (slot + 1))],
                     trace := s.trace ++ [⟨.ringSlotError, .recv, .slot slot⟩],
                     returned := s.returned ++ [.noFrame] }

/-- 43_receive.md rules R213, R220: a length outside 14 to 1536 is dropped, negative lengths included, and the slot acknowledged.
That the acknowledge leaves an ABSTRACT DEVICE's fields as they were is the model's choice (log 31). -/
def Obligations.InvalidLengthDropped : Prop :=
  ∀ (s : State) (base rsr rbad rplr : Word) (rest : List Word) (slot raw : Nat), ReadyAt s base → s.ctx.started = true →
    Quiet s → s.cfg.deviceMode = .abstr → s.cfg.wellFormed = true → s.script = rsr :: rbad :: rplr :: rest →
    rsr.getLsbD 12 = true → slot = (rsr.extractLsb' 0 4).toNat → slot < s.cfg.ringDepth →
    rbad &&& (0x101#64 <<< slot) = 0 → raw = (rplr &&& s.cfg.rplrLengthMask).toNat → raw < 18 ∨ 1540 < raw →
    exec .recv s =
      .next { s with script := rest, schedule := s.schedule.drop 4,
                     bus := s.bus ++ [readAt base 0x0830 rsr, readAt base 0x0838 rbad,
                       readAt base (0x0840 + 8 * slot) rplr, writeAt base 0x0830 (BitVec.ofNat 64 (slot + 1))],
                     trace := s.trace ++ [⟨if raw < 18 then .undersizeFrame else .oversizeFrame, .recv, .slot slot⟩],
                     returned := s.returned ++ [.noFrame] }

/-- 43_receive.md rule R215: a frame of another protocol than IPv4 and ARP is dropped as `UnsupportedProtocol`, with no copy, and
the slot acknowledged. That the acknowledge leaves an ABSTRACT DEVICE's fields as they were is the model's choice (log 31). -/
def Obligations.UnsupportedProtocolDropped : Prop :=
  ∀ (s : State) (base rsr rbad rplr w : Word) (rest : List Word) (slot raw : Nat) (etype : BitVec 16), ReadyAt s base →
    s.ctx.started = true → Quiet s → s.cfg.deviceMode = .abstr → s.cfg.wellFormed = true →
    s.script = rsr :: rbad :: rplr :: w :: rest → rsr.getLsbD 12 = true →
    slot = (rsr.extractLsb' 0 4).toNat → slot < s.cfg.ringDepth → rbad &&& (0x101#64 <<< slot) = 0 →
    raw = (rplr &&& s.cfg.rplrLengthMask).toNat → 18 ≤ raw → raw ≤ 1540 →
    etype = w.extractLsb' 32 8 ++ w.extractLsb' 40 8 → etype ≠ 0x0800 → etype ≠ 0x0806 →
    exec .recv s =
      .next { s with script := rest, schedule := s.schedule.drop 5,
                     bus := s.bus ++ [readAt base 0x0830 rsr, readAt base 0x0838 rbad,
                       readAt base (0x0840 + 8 * slot) rplr, readAt base (0x4000 + 0x800 * slot + 8) w,
                       writeAt base 0x0830 (BitVec.ofNat 64 (slot + 1))],
                     trace := s.trace ++ [⟨.unsupportedProtocol (if etype = 0x86DD then .dropIPv6 else .dropUnknown), .recv,
                       .slot slot⟩],
                     returned := s.returned ++ [.noFrame] }

/-- 43_receive.md rules R216, R220: an accepted frame is copied word by word, in increasing order, the word at offset 8 read
again, into a fresh buffer, its payload length is reported, and the slot acknowledged. That the acknowledge leaves an ABSTRACT
DEVICE's fields as they were is the model's choice (log 31). -/
def Obligations.AcceptedFrameReturned : Prop :=
  ∀ (s : State) (base rsr rbad rplr w : Word) (ws rest : List Word) (slot raw : Nat) (etype : BitVec 16), ReadyAt s base →
    s.ctx.started = true → Quiet s → s.cfg.deviceMode = .abstr → s.cfg.wellFormed = true →
    s.script = rsr :: rbad :: rplr :: w :: (ws ++ rest) → rsr.getLsbD 12 = true →
    slot = (rsr.extractLsb' 0 4).toNat → slot < s.cfg.ringDepth → rbad &&& (0x101#64 <<< slot) = 0 →
    raw = (rplr &&& s.cfg.rplrLengthMask).toNat → 18 ≤ raw → raw ≤ 1540 →
    etype = w.extractLsb' 32 8 ++ w.extractLsb' 40 8 → etype = 0x0800 ∨ etype = 0x0806 →
    ws.length = (raw - 4 + 7) / 8 →
    ∃ buf : List Byte, buf.length = 8 * ws.length ∧
      (∀ i j v, ws[i]? = some v → j < 8 → buf[8 * i + j]? = some (v.extractLsb' (8 * j) 8)) ∧
      exec .recv s =
        .next { s with script := rest, schedule := s.schedule.drop (5 + ws.length),
                       bus := s.bus ++ [readAt base 0x0830 rsr, readAt base 0x0838 rbad,
                         readAt base (0x0840 + 8 * slot) rplr, readAt base (0x4000 + 0x800 * slot + 8) w] ++
                         ws.zipIdx.map (fun p => readAt base (0x4000 + 0x800 * slot + 8 * p.2) p.1) ++
                         [writeAt base 0x0830 (BitVec.ofNat 64 (slot + 1))],
                       returned := s.returned ++ [.frame buf (raw - 4)] }

/-- 43_receive.md rule R223: the complete access sequences of one completed call, in either DEVICE mode and under every
interleaving, each with what the values read have in common with it (rules R201, R211, R213, R215, R216), its trace record and its
result. -/
def Obligations.RecvAccessSequences : Prop :=
  ∀ (s t : State) (base : Word), s.ctx.ioBase = some base → exec .recv s = .next t →
    ∃ rsr : Word, ∃ slot : Nat, slot = (rsr.extractLsb' 0 4).toNat ∧
      ((rsr.getLsbD 12 = false ∧ issued s t = [readAt base 0x0830 rsr] ∧ t.trace = s.trace ∧
          t.returned = s.returned ++ [.noFrame]) ∨
       (rsr.getLsbD 12 = true ∧ slot < s.cfg.ringDepth ∧
        ((∃ rbad : Word, rbad &&& errorMask slot ≠ 0 ∧
            issued s t = [readAt base 0x0830 rsr, readAt base 0x0838 rbad,
              writeAt base 0x0830 (BitVec.ofNat 64 (slot + 1))] ∧
            t.trace = s.trace ++ [⟨.ringSlotError, .recv, .slot slot⟩] ∧ t.returned = s.returned ++ [.noFrame]) ∨
         (∃ (rbad rplr : Word) (raw : Nat), rbad &&& errorMask slot = 0 ∧
            raw = (rplr &&& s.cfg.rplrLengthMask).toNat ∧ (raw < 18 ∨ 1540 < raw) ∧
            issued s t = [readAt base 0x0830 rsr, readAt base 0x0838 rbad, readAt base (0x0840 + 8 * slot) rplr,
              writeAt base 0x0830 (BitVec.ofNat 64 (slot + 1))] ∧
            t.trace = s.trace ++ [⟨if raw < 18 then .undersizeFrame else .oversizeFrame, .recv, .slot slot⟩] ∧
            t.returned = s.returned ++ [.noFrame]) ∨
         (∃ (rbad rplr w : Word) (raw : Nat) (etype : BitVec 16), rbad &&& errorMask slot = 0 ∧
            raw = (rplr &&& s.cfg.rplrLengthMask).toNat ∧ 18 ≤ raw ∧ raw ≤ 1540 ∧
            etype = w.extractLsb' 32 8 ++ w.extractLsb' 40 8 ∧
            ((etype ≠ 0x0800 ∧ etype ≠ 0x0806 ∧
              issued s t = [readAt base 0x0830 rsr, readAt base 0x0838 rbad, readAt base (0x0840 + 8 * slot) rplr,
                readAt base (0x4000 + 0x800 * slot + 8) w, writeAt base 0x0830 (BitVec.ofNat 64 (slot + 1))] ∧
              t.trace = s.trace ++ [⟨.unsupportedProtocol (if etype = 0x86DD then .dropIPv6 else .dropUnknown), .recv,
                .slot slot⟩] ∧
              t.returned = s.returned ++ [.noFrame]) ∨
             ((etype = 0x0800 ∨ etype = 0x0806) ∧ ∃ (ws : List Word) (buf : List Byte),
              ws.length = (raw - 4 + 7) / 8 ∧ buf.length = 8 * ws.length ∧
              (∀ i j v, ws[i]? = some v → j < 8 → buf[8 * i + j]? = some (v.extractLsb' (8 * j) 8)) ∧
              issued s t = [readAt base 0x0830 rsr, readAt base 0x0838 rbad, readAt base (0x0840 + 8 * slot) rplr,
                readAt base (0x4000 + 0x800 * slot + 8) w] ++
                ws.zipIdx.map (fun p => readAt base (0x4000 + 0x800 * slot + 8 * p.2) p.1) ++
                [writeAt base 0x0830 (BitVec.ofNat 64 (slot + 1))] ∧
              t.trace = s.trace ∧ t.returned = s.returned ++ [.frame buf (raw - 4)]))))))

/-- 43_receive.md rule R220: a completed call that found a ready frame writes RSR exactly once, with the slot plus one, as its
last access; one that found none writes nothing. -/
def Obligations.ReadyFrameAcknowledgedOnce : Prop :=
  ∀ (s t : State) (base : Word), s.ctx.ioBase = some base → exec .recv s = .next t →
    ∃ (rsr : Word) (more : List Access), issued s t = readAt base 0x0830 rsr :: more ∧
      (rsr.getLsbD 12 = false → more = []) ∧
      (rsr.getLsbD 12 = true → ∃ reads, more =
        reads ++ [writeAt base 0x0830 (BitVec.ofNat 64 ((rsr.extractLsb' 0 4).toNat + 1))] ∧
        ∀ a ∈ reads, a.dir = .read)

/-- 43_receive.md rule R232, 93_implementation_defined.md U13: a call of a started CORE always completes, whatever the DEVICE
answers within its one invariant (60_exceptions.md rule R300), in either mode. -/
def Obligations.RecvAlwaysCompletes : Prop :=
  ∀ (s : State) (base : Word), Inv s → ReadyAt s base → s.ctx.started = true → Quiet s →
    (s.cfg.deviceMode = .abstr → ∀ d rest, s.script = d :: rest → (d.extractLsb' 0 4).toNat < s.cfg.ringDepth) →
    (s.cfg.deviceMode = .reference → ∀ d ∈ s.dev.depth, d ≤ s.cfg.ringDepth) →
    ∃ t r, exec .recv s = .next t ∧ t.returned = s.returned ++ [r] ∧ t.ctx = s.ctx ∧ t.cfg = s.cfg ∧ t.position = .idle

/-- 43_receive.md rule R225 (c): the RSR fields `next`, `last` and `irq`, and the bits above, never affect what a call does:
two runs that differ in them alone differ only in the RSR value they record. All other answers are taken to be the same in the two
runs: the rest of the script, and beyond it the free values at the same counter (log 3). -/
def Obligations.RingPointersDoNotMatter : Prop :=
  ∀ (s : State) (rsr rsr' : Word) (rest : List Word) (t : State), s.cfg.deviceMode = .abstr →
    rsr.extractLsb' 0 4 = rsr'.extractLsb' 0 4 → rsr.getLsbD 12 = rsr'.getLsbD 12 →
    exec .recv { s with script := rsr :: rest } = .next t →
    ∃ t', exec .recv { s with script := rsr' :: rest } = .next t' ∧
      t' = { t with bus := t'.bus } ∧ (issued s t').drop 1 = (issued s t).drop 1

/-- 60_exceptions.md rules R302, R303, R304 with 43_receive.md rule R200: a frame that arrives at an empty REFERENCE ring is what
the next `recv` returns, byte for byte, and the ring is empty again. -/
def Obligations.ReferenceArrivalIsDelivered : Prop :=
  ∀ (s : State) (base : Word) (frame : List Byte) (fcs : BitVec 32) (d : Nat), Inv s → ReadyAt s base →
    s.ctx.started = true → s.schedule = [] → s.cfg.deviceMode = .reference → s.cfg.rplrLengthMask = BitVec.allOnes 64 →
    s.dev.depth = some d → 2 ≤ d → d ≤ s.cfg.ringDepth → s.dev.first = s.dev.next →
    14 ≤ frame.length → frame.length ≤ 1536 →
    frame[12]? = some 0x08 → (frame[13]? = some 0x00 ∨ frame[13]? = some 0x06) →
    s.agenda = [.device (.arrive frame 0 fcs), .request (.host 0x04 {})] →
    ∃ t buf, Sys2Proof.core.run 2 s = .next t ∧ t.returned = s.returned ++ [.frame buf frame.length] ∧
      buf.take frame.length = frame ∧ buf.length = ceil8 frame.length ∧
      t.dev.first.toNat = (s.dev.first.toNat + 1) % d ∧ t.dev.next = t.dev.first ∧ t.trace = s.trace

/-! ## Classifier -/

/-- 44_classifier.md rule R240: the classifier's table, whose numbers the spec marks as general knowledge; classifying returns the
class and does nothing else, for the internal operation and for each row. -/
def Obligations.ClassifierAnswers : Prop :=
  (∀ etype s, ∃ c, exec (.classify etype) s = .next { s with returned := s.returned ++ [.verdict c] } ∧
    (etype = 0x0800 → c = .acceptIPv4) ∧ (etype = 0x0806 → c = .acceptARP) ∧ (etype = 0x86DD → c = .dropIPv6) ∧
    (etype ≠ 0x0800 → etype ≠ 0x0806 → etype ≠ 0x86DD → c = .dropUnknown)) ∧
  (∀ s, exec .classifyIPv4 s = .next { s with returned := s.returned ++ [.verdict .acceptIPv4] } ∧
    exec .classifyARP s = .next { s with returned := s.returned ++ [.verdict .acceptARP] } ∧
    exec .classifyIPv6 s = .next { s with returned := s.returned ++ [.verdict .dropIPv6] }) ∧
  (∀ etype s, (Instr.classifyUnknown etype).wellFormed = true →
    exec (.classifyUnknown etype) s = .next { s with returned := s.returned ++ [.verdict .dropUnknown] })

/-! ## The DEVICE's own steps -/

/-- 60_exceptions.md rule R303: an arrival of any length fills the slot `next` names, with its FCS, length and error pair, and
advances `next`; a lost frame changes nothing. That an arrival at a full ring, or before the depth is set, changes nothing, and that
bytes beyond the 0x800 of the slot are not stored, is the model's choice (log 22). The clause about a lost frame holds in ABSTRACT mode
too, of which the rule does not speak: that no DEVICE step changes an ABSTRACT DEVICE's fields is the model's choice (log 31). -/
def Obligations.ArrivalFillsTheNextSlot : Prop :=
  (∀ (s : State) (frame : List Byte) (rest : List Event), s.agenda = .device (.lose frame) :: rest →
    step s = .next { s with agenda := rest }) ∧
  ∀ (s : State) (frame : List Byte) (err : BitVec 2) (fcs : BitVec 32) (rest : List Event),
    s.cfg.deviceMode = .reference → DeviceOk s.dev → s.agenda = .device (.arrive frame err fcs) :: rest →
    ∃ t, step s = .next t ∧ t = { s with agenda := rest, dev := t.dev } ∧
      (s.dev.depth = none → t.dev = s.dev) ∧
      (∀ d, s.dev.depth = some d → (s.dev.next.toNat + 1) % d = s.dev.first.toNat → t.dev = s.dev) ∧
      (∀ d, s.dev.depth = some d → (s.dev.next.toNat + 1) % d ≠ s.dev.first.toNat →
        t.dev = { s.dev with buf := t.dev.buf, rplr := t.dev.rplr, bad := t.dev.bad, next := t.dev.next } ∧
        t.dev.next.toNat = (s.dev.next.toNat + 1) % d ∧
        (∀ k : Fin 8, t.dev.rplr.get k =
          if k.val = s.dev.next.toNat then BitVec.ofNat 64 (frame.length + 4) else s.dev.rplr.get k) ∧
        (∀ k : Fin 8, t.dev.bad.get k = if k.val = s.dev.next.toNat then err else s.dev.bad.get k) ∧
        (∀ k b, k < 0x800 → frame[k]? = some b →
          Memory.readByte t.dev.buf (0x4000 + 0x800 * s.dev.next.toNat + k) = b) ∧
        (∀ j < 4, frame.length + j < 0x800 → Memory.readByte t.dev.buf (0x4000 + 0x800 * s.dev.next.toNat + frame.length + j) =
          fcs.extractLsb' (8 * j) 8) ∧
        (∀ a, a < 0x4000 + 0x800 * s.dev.next.toNat ∨
            0x4000 + 0x800 * s.dev.next.toNat + min (frame.length + 4) 0x800 ≤ a →
          Memory.readByte t.dev.buf a = Memory.readByte s.dev.buf a))

/-- 60_exceptions.md rule R307: `TxDone` puts the pending frame on the wire; with an empty agenda weak fairness forces it, and
nothing else happens there (rule R299). The model's choices are when the forced completion happens (log 2), that a `TxDone` on the
agenda changes nothing while no transmission is in flight (log 22), and that the pending frame stays in its field (log 23). -/
def Obligations.TransmissionCompletes : Prop :=
  ∀ s : State, s.cfg.deviceMode = .reference →
    (s.agenda = [] →
      (s.dev.txBusy = true →
        step s = .next { s with dev := { s.dev with wire := s.dev.wire ++ [s.dev.pending], txBusy := false } }) ∧
      (s.dev.txBusy = false → step s = .next s)) ∧
    (∀ rest, s.agenda = .device .txDone :: rest →
      (s.dev.txBusy = true →
        step s = .next { s with agenda := rest,
                                dev := { s.dev with wire := s.dev.wire ++ [s.dev.pending], txBusy := false } }) ∧
      (s.dev.txBusy = false → step s = .next { s with agenda := rest }))

/-- 60_exceptions.md rule R309 (b): while `done = 1`, no step of the DEVICE writes the slot `first` names. That an arrival longer
than a slot stores nothing beyond its own slot, and that a step that is not enabled changes nothing, is the model's choice
(log 22). -/
def Obligations.ConsumedSlotIsStable : Prop :=
  ∀ (dev : Device) (m : DeviceMove), DeviceOk dev → dev.first ≠ dev.next →
    (referenceMove dev m).first = dev.first ∧
    (∀ k : Fin 8, k.val = dev.first.toNat →
      (referenceMove dev m).rplr.get k = dev.rplr.get k ∧ (referenceMove dev m).bad.get k = dev.bad.get k) ∧
    (∀ k < 0x800, Memory.readByte (referenceMove dev m).buf (0x4000 + 0x800 * dev.first.toNat + k) =
      Memory.readByte dev.buf (0x4000 + 0x800 * dev.first.toNat + k)) ∧
    (referenceMove dev m).first ≠ (referenceMove dev m).next

/-! ## The whole machine -/

/-- 10_state.md rule R49: the context at reset, and that the base has no value to read before `probe`. That an accessor read of
RXBUFF faults so in a diagnostic build too, before the rejection of 40_register_access.md rule R145, is the model's choice
(log 39), and so is that the fault of an access of its own names the operation `access` (log 12). -/
def Obligations.ResetContextIsUnprobed : Prop :=
  State.reset.ctx = { ioBase := none, phyAddr := none, mac := none, probed := false, started := false } ∧
  State.reset.position = .idle ∧
  (∀ (i : Instr) (s : State), ((readRow i).isSome = true ∨ (writeRow i).isSome = true) → s.ctx.ioBase = none →
    ∃ op, exec i s = .fault (.notProbed op))

/-- 60_exceptions.md rules R301, R309 with 10_state.md rules R31, R33: the invariant holds at reset. -/
def Obligations.ResetMeetsInvariant : Prop := Inv State.reset

/-- Every step keeps the invariant: the position is idle between steps (10_state.md rule R33), the lifecycle bits agree with the
context (rules R30, R31), the base is one 20_memory.md rule R72 admits, the ring is sound (60_exceptions.md rule R309 a), and the
buffer memory is canonical and lies in its windows (20_memory.md rule R71). -/
def Obligations.StepKeepsInvariant : Prop :=
  ∀ s t : State, Inv s → step s = .next t → Inv t

/-- What a step does with the first event of the agenda (log 2): a request that decodes runs its instruction, on the state from
which the request has been taken. -/
def Obligations.StepRunsTheDecodedInstruction : Prop :=
  ∀ (s : State) (r : Request) (rest : List Event) (i : Instr), s.agenda = .request r :: rest → decode r = .instr i →
    step s = exec i { s with agenda := rest }

/-- The parameters of 00_scope.md rule R10 are the machine's: that no step changes them is the model's choice (log 9). -/
def Obligations.StepKeepsConfiguration : Prop :=
  ∀ s t : State, step s = .next t → t.cfg = s.cfg

/-- 40_register_access.md rule R142: once set, the base and the PHY address never change. -/
def Obligations.BaseNeverChanges : Prop :=
  ∀ (s t : State) (base : Word), Inv s → s.ctx.ioBase = some base → step s = .next t →
    t.ctx.ioBase = some base ∧ t.ctx.phyAddr = s.ctx.phyAddr ∧ t.ctx.probed = true ∧
      (s.ctx.started = true → t.ctx.started = true)

/-- 43_receive.md rule R231, 70_reset_and_hazards.md rule R346: no later step changes a returned buffer. That the records of the
accesses and of the trace only grow is the model's choice (log 28). -/
def Obligations.ReturnedBuffersAreKept : Prop :=
  ∀ s t : State, step s = .next t →
    s.returned.IsPrefix t.returned ∧ s.bus.IsPrefix t.bus ∧ s.trace.IsPrefix t.trace

/-- 60_exceptions.md rule R294: after `start` or `hwaddr` the receive-interrupt enable is 0, whatever it was before; and no
operation of the CORE ever sets it (10_state.md rule R46). `init` is read as `start` (log 14). -/
def Obligations.IrqEnableOnlyCleared : Prop :=
  ∀ (i : Instr) (s t : State), s.cfg.deviceMode = .reference → exec i s = .next t →
    (i = .start ∨ i = .hwaddr ∨ i = .init ∨ i = .resolve → t.dev.machi.getLsbD 21 = false) ∧
    (isOperation i = true → t.dev.machi.getLsbD 21 = true → s.dev.machi.getLsbD 21 = true)

/-- 70_reset_and_hazards.md rule R352: the bounds on the number of accesses of each operation. -/
def Obligations.AccessCountsAreBounded : Prop :=
  ∀ s t : State,
    (exec .recv s = .next t → (issued s t).length ≤ 197) ∧
    (∀ frame length, exec (.send frame length) s = .next t →
      (issued s t).length ≤ 194 + (if s.cfg.txWaitIdle then s.cfg.txWaitCap else 0)) ∧
    (exec .start s = .next t → (issued s t).length = 4) ∧
    (exec .hwaddr s = .next t → (issued s t).length = 3) ∧
    (∀ base phy, exec (.probe base phy) s = .next t → issued s t = []) ∧
    (exec .stop s = .next t → issued s t = [])

/-- What each operation leaves alone in the DEVICE when no DEVICE step comes between: the resolver writes MACHI only,
`start` MACHI and the ring, `recv` the ring's `first` only, `send` the transmit side only, and in the buffer memory only the
staged words; `probe`, `stop` and the classifier nothing (10_state.md rule R45; 60_exceptions.md rules R304 to R306). These rules
speak of the REFERENCE DEVICE: that an ABSTRACT DEVICE's fields stay as they were is the model's choice (log 31). So is that `send`
keeps what it writes to TFCS (log 24), and `init` is read as `start` (log 14). -/
def Obligations.OperationsTouchTheirRegistersOnly : Prop :=
  ∀ (s t : State) (i : Instr), s.schedule = [] → exec i s = .next t →
    (i = .hwaddr ∨ i = .resolve → t.dev = { s.dev with machi := t.dev.machi }) ∧
    (i = .start ∨ i = .init →
      t.dev = { s.dev with machi := t.dev.machi, depth := t.dev.depth, first := t.dev.first, next := t.dev.next }) ∧
    (i = .recv → t.dev = { s.dev with first := t.dev.first }) ∧
    (∀ frame length, i = .send frame length →
      t.dev = { s.dev with tfcs := t.dev.tfcs, buf := t.dev.buf, txBusy := t.dev.txBusy, pending := t.dev.pending } ∧
      ∀ a, a < 0x1000 ∨ 0x1000 + 8 * ((min length 1536 + 7) / 8) ≤ a →
        Memory.readByte t.dev.buf a = Memory.readByte s.dev.buf a) ∧
    (∀ base phy e, i = .probe base phy ∨ i = .stop ∨ i = .classify e ∨ i = .classifyUnknown e ∨ i = .classifyIPv4 ∨
      i = .classifyARP ∨ i = .classifyIPv6 → t.dev = s.dev)

/-- 42_transmit.md rule R190 with 60_exceptions.md rules R302, R306, R307: what a `send` with the optional wait does in the
REFERENCE DEVICE. If the first poll finds no transmission, it polls once and sends. If it finds one, and the busy mask has a bit,
it polls until the completion has come: `k` busy polls if the completion lands before the poll that follows `k` others, and a
time-out, with nothing staged, if none lands before `TX_WAIT_CAP` polls. The trace record of an oversize length is log 18; the TFCS
value, which the time-out leaves as it was, is kept by the model's choice (log 24). -/
def Obligations.ReferenceSendWaitsForIdle : Prop :=
  ∀ (s : State) (base : Word) (frame : List Byte) (length : Nat), ReadyAt s base → s.ctx.started = true → Quiet s →
    s.cfg.deviceMode = .reference → s.cfg.txWaitIdle = true →
    ((afterOthers s).dev.txBusy = false → 1 ≤ s.cfg.txWaitCap →
      ∃ (t : State) (v : Word) (ws : List Word), exec (.send frame length) s = .next t ∧ v &&& s.cfg.tplrBusyMask = 0 ∧
        StagedFrame frame (min length 1536) ws ∧
        t.bus = s.bus ++ [readAt base 0x0810 v] ++ sendAccesses base ws (min length 1536) ∧
        t.returned = s.returned ++ [.unit] ∧ t.trace = s.trace ++ oversizeRecords length ∧ t.ctx = s.ctx ∧
        t.position = .idle ∧ t.dev.txBusy = true ∧ t.dev.wire = (afterOthers s).dev.wire ∧
        t.dev.pending.length = min length 1536 ∧
        ∀ k < min length 1536, k < frame.length → t.dev.pending[k]? = frame[k]?) ∧
    (s.dev.txBusy = true → s.cfg.tplrBusyMask ≠ 0 →
      (∀ (qs : List (List Move)) (ms : List Move) (rest : List (List Move)), s.schedule = qs ++ ms :: rest →
        qs.length < s.cfg.txWaitCap → (∀ q ∈ qs, Move.device .txDone ∉ q) → Move.device .txDone ∈ ms →
        ∃ (t : State) (polls : List Word) (v : Word) (ws : List Word), exec (.send frame length) s = .next t ∧
          polls.length = qs.length ∧
          (∀ p ∈ polls, p &&& s.cfg.tplrBusyMask ≠ 0) ∧ v &&& s.cfg.tplrBusyMask = 0 ∧
          StagedFrame frame (min length 1536) ws ∧
          t.bus = s.bus ++ polls.map (readAt base 0x0810) ++ [readAt base 0x0810 v] ++
            sendAccesses base ws (min length 1536) ∧
          t.returned = s.returned ++ [.unit] ∧ t.trace = s.trace ++ oversizeRecords length ∧ t.ctx = s.ctx ∧
          t.position = .idle ∧ t.dev.txBusy = true ∧ t.dev.wire = s.dev.wire ++ [s.dev.pending] ∧
          t.dev.pending.length = min length 1536 ∧
          ∀ k < min length 1536, k < frame.length → t.dev.pending[k]? = frame[k]?) ∧
      ((∀ q ∈ s.schedule.take s.cfg.txWaitCap, Move.device .txDone ∉ q) →
        ∃ (t : State) (polls : List Word), exec (.send frame length) s = .next t ∧ polls.length = s.cfg.txWaitCap ∧
          (∀ p ∈ polls, p &&& s.cfg.tplrBusyMask ≠ 0) ∧ t.bus = s.bus ++ polls.map (readAt base 0x0810) ∧
          t.returned = s.returned ++ [.timeout] ∧
          t.trace = s.trace ++ oversizeRecords length ++ [⟨.timeout, .send, .length length⟩] ∧ t.ctx = s.ctx ∧
          t.position = .idle ∧ t.dev.txBusy = true ∧ t.dev.wire = s.dev.wire ∧ t.dev.pending = s.dev.pending ∧
          t.dev.tfcs = s.dev.tfcs ∧
          (s.schedule = [] → t = { s with script := t.script, draws := t.draws, bus := t.bus, trace := t.trace,
                                          returned := t.returned })))
end

