-- ==== Sys2Proof/Laws/Memory.lean ====
section
/-! SUPPORT. The buffer memory: a read after a write, what a write leaves alone, and the canonical form. -/

namespace Sys2Proof.Machine

theorem lookup_store_same (m : Memory) (a : Nat) (b : Byte) : Memory.lookup (Memory.store m a b) a = some b := by
  induction m with
  | nil => simp [Memory.store, Memory.lookup]
  | cons c rest ih =>
    obtain ⟨c, x⟩ := c
    unfold Memory.store
    split
    · simp [Memory.lookup]
    · split
      · simp [Memory.lookup]
      · next h1 h2 => simp [Memory.lookup, h2, ih]

theorem lookup_store_other (m : Memory) (a c : Nat) (b : Byte) (h : c ≠ a) :
    Memory.lookup (Memory.store m a b) c = Memory.lookup m c := by
  induction m with
  | nil => simp [Memory.store, Memory.lookup, h]
  | cons d rest ih =>
    obtain ⟨d, x⟩ := d
    unfold Memory.store
    split
    · simp [Memory.lookup, h]
    · split
      · next _ h2 => subst h2; simp [Memory.lookup, h]
      · simp only [Memory.lookup, ih]

theorem readByte_store_same (m : Memory) (a : Nat) (b : Byte) : Memory.readByte (Memory.store m a b) a = b := by
  simp [Memory.readByte, lookup_store_same]

theorem readByte_store_other (m : Memory) (a c : Nat) (b : Byte) (h : c ≠ a) :
    Memory.readByte (Memory.store m a b) c = Memory.readByte m c := by
  simp [Memory.readByte, lookup_store_other m a c b h]

theorem readByte_storeBytes_outside (bs : List Byte) (m : Memory) (a c : Nat) (h : c < a ∨ a + bs.length ≤ c) :
    Memory.readByte (Memory.storeBytes m a bs) c = Memory.readByte m c := by
  induction bs generalizing m a with
  | nil => rfl
  | cons b rest ih =>
    simp only [List.length_cons] at h
    rw [Memory.storeBytes, ih _ _ (by omega), readByte_store_other _ _ _ _ (by omega)]

theorem readByte_storeBytes_inside (bs : List Byte) (m : Memory) (a k : Nat) (h : k < bs.length) :
    Memory.readByte (Memory.storeBytes m a bs) (a + k) = bs[k] := by
  induction bs generalizing m a k with
  | nil => simp at h
  | cons b rest ih =>
    rw [Memory.storeBytes]
    cases k with
    | zero => rw [readByte_storeBytes_outside _ _ _ _ (by omega)]; simpa using readByte_store_same m a b
    | succ k => simpa [Nat.add_assoc, Nat.add_comm 1 k] using ih (Memory.store m a b) (a + 1) k (by simpa using h)

@[simp] theorem unpackWord_length (w : Word) : (unpackWord w).length = 8 := by simp [unpackWord]

theorem readByte_storeWord_outside (m : Memory) (a c : Nat) (v : Word) (h : c < a ∨ a + 8 ≤ c) :
    Memory.readByte (Memory.storeWord m a v) c = Memory.readByte m c :=
  readByte_storeBytes_outside _ _ _ _ (by simpa using h)

theorem readByte_storeWord_inside (m : Memory) (a j : Nat) (v : Word) (h : j < 8) :
    Memory.readByte (Memory.storeWord m a v) (a + j) = v.extractLsb' (8 * j) 8 := by
  rw [Memory.storeWord, readByte_storeBytes_inside _ _ _ _ (by simpa using h)]
  simp [unpackWord]

theorem keys_store (m : Memory) (a : Nat) (b : Byte) (c : Nat) :
    c ∈ (Memory.store m a b).map Prod.fst ↔ c = a ∨ c ∈ m.map Prod.fst := by
  induction m with
  | nil => simp [Memory.store]
  | cons d rest ih =>
    obtain ⟨d, x⟩ := d
    unfold Memory.store
    split
    · simp
    · split
      · next _ h => subst h; simp
      · rw [List.map_cons, List.mem_cons, ih]
        simp only [List.map_cons, List.mem_cons]
        tauto

theorem store_wf (m : Memory) (a : Nat) (b : Byte) (h : Memory.wf m) : Memory.wf (Memory.store m a b) := by
  induction m with
  | nil => simp [Memory.store, Memory.wf]
  | cons d rest ih =>
    obtain ⟨d, x⟩ := d
    simp only [Memory.wf, List.map_cons, List.pairwise_cons] at h ih ⊢
    unfold Memory.store
    split
    · next h1 =>
      simp only [List.map_cons, List.pairwise_cons, List.mem_cons]
      refine ⟨?_, h⟩
      rintro c (rfl | hc)
      · exact h1
      · exact h1.trans (h.1 c hc)
    · split
      · next _ h2 => subst h2; simpa using h
      · next h1 h2 =>
        simp only [List.map_cons, List.pairwise_cons]
        refine ⟨fun c hc => ?_, ih h.2⟩
        rcases (keys_store rest a b c).mp hc with rfl | hc
        · omega
        · exact h.1 c hc

theorem storeBytes_wf (bs : List Byte) (m : Memory) (a : Nat) (h : Memory.wf m) : Memory.wf (Memory.storeBytes m a bs) := by
  induction bs generalizing m a with
  | nil => exact h
  | cons b rest ih => exact ih _ _ (store_wf m a b h)

theorem storeWord_wf (m : Memory) (a : Nat) (v : Word) (h : Memory.wf m) : Memory.wf (Memory.storeWord m a v) :=
  storeBytes_wf _ _ _ h

theorem storeBytes_inWindows (bs : List Byte) (m : Memory) (a : Nat) (h : Memory.inWindows m)
    (ha : (0x1000 ≤ a ∧ a + bs.length ≤ 0x1800) ∨ (0x4000 ≤ a ∧ a + bs.length ≤ 0x8000)) :
    Memory.inWindows (Memory.storeBytes m a bs) := by
  induction bs generalizing m a with
  | nil => exact h
  | cons b rest ih =>
    simp only [List.length_cons] at ha
    refine ih _ _ (fun c hc => ?_) (by omega)
    rcases (keys_store m a b c).mp hc with rfl | hc
    · omega
    · exact h c hc

theorem storeWord_inWindows (m : Memory) (a : Nat) (v : Word) (h : Memory.inWindows m)
    (ha : (0x1000 ≤ a ∧ a + 8 ≤ 0x1800) ∨ (0x4000 ≤ a ∧ a + 8 ≤ 0x8000)) :
    Memory.inWindows (Memory.storeWord m a v) :=
  storeBytes_inWindows _ _ _ h (by simpa using ha)

theorem reset_memory_wf : Memory.wf State.reset.dev.buf := List.Pairwise.nil

end Sys2Proof.Machine
end

