-- ==== Sys2Proof/Laws/State.lean ====
section
/-! SUPPORT. One lemma per field per named update of the state, each true by unfolding, so that no later proof unfolds one. -/

namespace Sys2Proof.Machine

/-! ## `logAccess` -/

@[simp] theorem logAccess_cfg (a : Access) (s : State) : (logAccess a s).cfg = s.cfg := rfl

@[simp] theorem logAccess_ctx (a : Access) (s : State) : (logAccess a s).ctx = s.ctx := rfl

@[simp] theorem logAccess_position (a : Access) (s : State) : (logAccess a s).position = s.position := rfl

@[simp] theorem logAccess_dev (a : Access) (s : State) : (logAccess a s).dev = s.dev := rfl

@[simp] theorem logAccess_script (a : Access) (s : State) : (logAccess a s).script = s.script := rfl

@[simp] theorem logAccess_draws (a : Access) (s : State) : (logAccess a s).draws = s.draws := rfl

@[simp] theorem logAccess_schedule (a : Access) (s : State) : (logAccess a s).schedule = s.schedule := rfl

@[simp] theorem logAccess_agenda (a : Access) (s : State) : (logAccess a s).agenda = s.agenda := rfl

@[simp] theorem logAccess_trace (a : Access) (s : State) : (logAccess a s).trace = s.trace := rfl

@[simp] theorem logAccess_bus (a : Access) (s : State) : (logAccess a s).bus = s.bus ++ [a] := rfl

@[simp] theorem logAccess_returned (a : Access) (s : State) : (logAccess a s).returned = s.returned := rfl

/-! ## `atStep` -/

@[simp] theorem atStep_cfg (k : StepIndex) (s : State) : (atStep k s).cfg = s.cfg := rfl

@[simp] theorem atStep_ctx (k : StepIndex) (s : State) : (atStep k s).ctx = s.ctx := rfl

@[simp] theorem atStep_dev (k : StepIndex) (s : State) : (atStep k s).dev = s.dev := rfl

@[simp] theorem atStep_script (k : StepIndex) (s : State) : (atStep k s).script = s.script := rfl

@[simp] theorem atStep_draws (k : StepIndex) (s : State) : (atStep k s).draws = s.draws := rfl

@[simp] theorem atStep_schedule (k : StepIndex) (s : State) : (atStep k s).schedule = s.schedule := rfl

@[simp] theorem atStep_agenda (k : StepIndex) (s : State) : (atStep k s).agenda = s.agenda := rfl

@[simp] theorem atStep_trace (k : StepIndex) (s : State) : (atStep k s).trace = s.trace := rfl

@[simp] theorem atStep_bus (k : StepIndex) (s : State) : (atStep k s).bus = s.bus := rfl

@[simp] theorem atStep_returned (k : StepIndex) (s : State) : (atStep k s).returned = s.returned := rfl

@[simp] theorem atStep_position (k : StepIndex) (s : State) : (atStep k s).position = s.position.moveTo k := rfl

/-- Only the last step the operation came to counts. -/
@[simp] theorem moveTo_moveTo (p : Position) (j k : StepIndex) : (p.moveTo j).moveTo k = p.moveTo k := by cases p <;> rfl

@[simp] theorem atStep_atStep (j k : StepIndex) (s : State) : atStep k (atStep j s) = atStep k s := by simp [atStep]

@[simp] theorem currentOp_atStep (k : StepIndex) (s : State) : currentOp (atStep k s) = currentOp s := by
  unfold currentOp
  rw [atStep_position]
  cases s.position <;> rfl

/-! ## `record` -/

@[simp] theorem record_cfg (k : ErrorKind) (d : Detail) (s : State) : (record k d s).cfg = s.cfg := rfl

@[simp] theorem record_ctx (k : ErrorKind) (d : Detail) (s : State) : (record k d s).ctx = s.ctx := rfl

@[simp] theorem record_position (k : ErrorKind) (d : Detail) (s : State) : (record k d s).position = s.position := rfl

@[simp] theorem record_dev (k : ErrorKind) (d : Detail) (s : State) : (record k d s).dev = s.dev := rfl

@[simp] theorem record_script (k : ErrorKind) (d : Detail) (s : State) : (record k d s).script = s.script := rfl

@[simp] theorem record_draws (k : ErrorKind) (d : Detail) (s : State) : (record k d s).draws = s.draws := rfl

@[simp] theorem record_schedule (k : ErrorKind) (d : Detail) (s : State) : (record k d s).schedule = s.schedule := rfl

@[simp] theorem record_agenda (k : ErrorKind) (d : Detail) (s : State) : (record k d s).agenda = s.agenda := rfl

@[simp] theorem record_trace (k : ErrorKind) (d : Detail) (s : State) : (record k d s).trace = s.trace ++ [⟨k, currentOp s, d⟩] := rfl

@[simp] theorem record_bus (k : ErrorKind) (d : Detail) (s : State) : (record k d s).bus = s.bus := rfl

@[simp] theorem record_returned (k : ErrorKind) (d : Detail) (s : State) : (record k d s).returned = s.returned := rfl

/-! ## `returnTo` -/

@[simp] theorem returnTo_cfg (p : Position) (r : Result) (s : State) : (returnTo p r s).cfg = s.cfg := rfl

@[simp] theorem returnTo_ctx (p : Position) (r : Result) (s : State) : (returnTo p r s).ctx = s.ctx := rfl

@[simp] theorem returnTo_position (p : Position) (r : Result) (s : State) : (returnTo p r s).position = p := rfl

@[simp] theorem returnTo_dev (p : Position) (r : Result) (s : State) : (returnTo p r s).dev = s.dev := rfl

@[simp] theorem returnTo_script (p : Position) (r : Result) (s : State) : (returnTo p r s).script = s.script := rfl

@[simp] theorem returnTo_draws (p : Position) (r : Result) (s : State) : (returnTo p r s).draws = s.draws := rfl

@[simp] theorem returnTo_schedule (p : Position) (r : Result) (s : State) : (returnTo p r s).schedule = s.schedule := rfl

@[simp] theorem returnTo_agenda (p : Position) (r : Result) (s : State) : (returnTo p r s).agenda = s.agenda := rfl

@[simp] theorem returnTo_trace (p : Position) (r : Result) (s : State) : (returnTo p r s).trace = s.trace := rfl

@[simp] theorem returnTo_bus (p : Position) (r : Result) (s : State) : (returnTo p r s).bus = s.bus := rfl

@[simp] theorem returnTo_returned (p : Position) (r : Result) (s : State) : (returnTo p r s).returned = s.returned ++ [r] := rfl

/-! ## `placeRequest` -/

@[simp] theorem placeRequest_cfg (r : Request) (s : State) : (placeRequest r s).cfg = s.cfg := rfl

@[simp] theorem placeRequest_ctx (r : Request) (s : State) : (placeRequest r s).ctx = s.ctx := rfl

@[simp] theorem placeRequest_position (r : Request) (s : State) : (placeRequest r s).position = s.position := rfl

@[simp] theorem placeRequest_dev (r : Request) (s : State) : (placeRequest r s).dev = s.dev := rfl

@[simp] theorem placeRequest_script (r : Request) (s : State) : (placeRequest r s).script = s.script := rfl

@[simp] theorem placeRequest_draws (r : Request) (s : State) : (placeRequest r s).draws = s.draws := rfl

@[simp] theorem placeRequest_schedule (r : Request) (s : State) : (placeRequest r s).schedule = s.schedule := rfl

@[simp] theorem placeRequest_agenda (r : Request) (s : State) : (placeRequest r s).agenda = .request r :: s.agenda := rfl

@[simp] theorem placeRequest_trace (r : Request) (s : State) : (placeRequest r s).trace = s.trace := rfl

@[simp] theorem placeRequest_bus (r : Request) (s : State) : (placeRequest r s).bus = s.bus := rfl

@[simp] theorem placeRequest_returned (r : Request) (s : State) : (placeRequest r s).returned = s.returned := rfl

/-! ## Draws: a draw changes the script and the counter only -/

@[simp] theorem drawWord_cfg (s : State) : (drawWord s).2.cfg = s.cfg := by unfold drawWord; split <;> rfl

@[simp] theorem drawWord_ctx (s : State) : (drawWord s).2.ctx = s.ctx := by unfold drawWord; split <;> rfl

@[simp] theorem drawWord_position (s : State) : (drawWord s).2.position = s.position := by unfold drawWord; split <;> rfl

@[simp] theorem drawWord_dev (s : State) : (drawWord s).2.dev = s.dev := by unfold drawWord; split <;> rfl

@[simp] theorem drawWord_schedule (s : State) : (drawWord s).2.schedule = s.schedule := by unfold drawWord; split <;> rfl

@[simp] theorem drawWord_agenda (s : State) : (drawWord s).2.agenda = s.agenda := by unfold drawWord; split <;> rfl

@[simp] theorem drawWord_trace (s : State) : (drawWord s).2.trace = s.trace := by unfold drawWord; split <;> rfl

@[simp] theorem drawWord_bus (s : State) : (drawWord s).2.bus = s.bus := by unfold drawWord; split <;> rfl

@[simp] theorem drawWord_returned (s : State) : (drawWord s).2.returned = s.returned := by unfold drawWord; split <;> rfl

@[simp] theorem drawRsr_cfg (s : State) : (drawRsr s).2.cfg = s.cfg := by unfold drawRsr; split <;> rfl

@[simp] theorem drawRsr_ctx (s : State) : (drawRsr s).2.ctx = s.ctx := by unfold drawRsr; split <;> rfl

@[simp] theorem drawRsr_position (s : State) : (drawRsr s).2.position = s.position := by unfold drawRsr; split <;> rfl

@[simp] theorem drawRsr_dev (s : State) : (drawRsr s).2.dev = s.dev := by unfold drawRsr; split <;> rfl

@[simp] theorem drawRsr_schedule (s : State) : (drawRsr s).2.schedule = s.schedule := by unfold drawRsr; split <;> rfl

@[simp] theorem drawRsr_agenda (s : State) : (drawRsr s).2.agenda = s.agenda := by unfold drawRsr; split <;> rfl

@[simp] theorem drawRsr_trace (s : State) : (drawRsr s).2.trace = s.trace := by unfold drawRsr; split <;> rfl

@[simp] theorem drawRsr_bus (s : State) : (drawRsr s).2.bus = s.bus := by unfold drawRsr; split <;> rfl

@[simp] theorem drawRsr_returned (s : State) : (drawRsr s).2.returned = s.returned := by unfold drawRsr; split <;> rfl

end Sys2Proof.Machine
end

