-- ==== Sys2Proof/Laws/Device.lean ====
section
/-! SUPPORT. What the DEVICE's steps, reads and writes can do to the state. -/

namespace Sys2Proof.Machine

theorem fillSlot_lt (dev : Device) : fillSlot dev < 8 := (dev.next.setWidth 3).isLt

/-- What software reads of the ring in the REFERENCE DEVICE's RSR value. -/
@[simp] theorem rsrValue_first (dev : Device) (d : Word) : rsrFirst (rsrValue dev d) = dev.first := by
  refine BitVec.eq_of_getLsbD_eq fun i hi => ?_
  have h : (rsrValue dev d).getLsbD i = if i < 4 then dev.first.getLsbD i else _ := BitVec.getLsbD_append
  rw [if_pos hi] at h
  simpa [rsrFirst, hi] using h

@[simp] theorem rsrValue_done (dev : Device) (d : Word) : rsrDone (rsrValue dev d) = ringDone dev := by
  unfold rsrDone rsrValue
  rw [BitVec.getLsbD_append, if_neg (by decide), BitVec.getLsbD_append, if_neg (by decide), BitVec.getLsbD_append,
    if_neg (by decide), BitVec.getLsbD_append, if_pos (by decide)]
  simp

@[simp] theorem fcsList_length (fcs : BitVec 32) : (fcsList fcs).length = 4 := by simp [fcsList]

/-- An arrival stays inside its slot. -/
theorem arrivalBytes_length_le (frame : List Byte) (fcs : BitVec 32) : (arrivalBytes frame fcs).length ≤ 0x800 := by
  simp only [arrivalBytes, rxbuffStride, List.length_take]
  omega

/-- The ring fields after an index is reduced modulo a depth of at most 8. -/
theorem ofNat_mod_lt (x d : Nat) (h1 : 1 ≤ d) (h8 : d ≤ 8) : (BitVec.ofNat 4 (x % d)).toNat < d := by
  have : x % d < d := Nat.mod_lt _ h1
  simp only [BitVec.toNat_ofNat]
  omega

/-- An arrival happens only if enabled, and then only fills the slot `next` names and advances `next`. -/
theorem arrive_cases (dev : Device) (frame : List Byte) (err : BitVec 2) (fcs : BitVec 32) :
    arrive dev frame err fcs = dev ∨
      ∃ d, dev.depth = some d ∧ (dev.next.toNat + 1) % d ≠ dev.first.toNat ∧
        arrive dev frame err fcs =
          { dev with
            buf  := Memory.storeBytes dev.buf (0x4000 + 0x800 * fillSlot dev) (arrivalBytes frame fcs)
            rplr := dev.rplr.setIfInBounds (fillSlot dev) (BitVec.ofNat 64 (frame.length + 4))
            bad  := dev.bad.setIfInBounds (fillSlot dev) err
            next := BitVec.ofNat 4 ((dev.next.toNat + 1) % d) } := by
  unfold arrive
  split
  · next h =>
    unfold arriveEnabled at h
    split at h
    · simp at h
    · next d hd =>
      have h := of_decide_eq_true h
      exact .inr ⟨d, hd, h, by simp [hd, rxbuffOffset, offRxbuff, rxbuffStride, fcsBytes]⟩
  · exact .inl rfl

theorem arrive_ok (dev : Device) (frame : List Byte) (err : BitVec 2) (fcs : BitVec 32) (h : DeviceOk dev) :
    DeviceOk (arrive dev frame err fcs) := by
  obtain e | ⟨d, hd, -, e⟩ := arrive_cases dev frame err fcs <;> rw [e]
  · exact h
  · obtain ⟨hr, hw, hi⟩ := h
    have hs := fillSlot_lt dev
    refine ⟨fun d' hd' => ?_, storeBytes_wf _ _ _ hw, storeBytes_inWindows _ _ _ hi (.inr ?_)⟩
    · obtain rfl : d = d' := by simpa [hd] using hd'
      obtain ⟨h1, h8, hf, -⟩ := hr d hd
      exact ⟨h1, h8, hf, ofNat_mod_lt _ _ h1 h8⟩
    · have := arrivalBytes_length_le frame fcs
      omega

theorem transmitDone_ok (dev : Device) (h : DeviceOk dev) : DeviceOk (transmitDone dev) := by
  unfold transmitDone
  split <;> exact h

theorem referenceMove_ok (dev : Device) (d : DeviceMove) (h : DeviceOk dev) : DeviceOk (referenceMove dev d) := by
  cases d with
  | arrive frame err fcs => exact arrive_ok dev frame err fcs h
  | lose frame => exact h
  | txDone => exact transmitDone_ok dev h

theorem arrive_depth (dev : Device) (frame : List Byte) (err : BitVec 2) (fcs : BitVec 32) :
    (arrive dev frame err fcs).depth = dev.depth := by unfold arrive; split <;> rfl

theorem referenceMove_depth (dev : Device) (d : DeviceMove) : (referenceMove dev d).depth = dev.depth := by
  cases d with
  | arrive frame err fcs => exact arrive_depth dev frame err fcs
  | lose frame => rfl
  | txDone => simp only [referenceMove, transmitDone]; split <;> rfl

/-- A DEVICE step changes the DEVICE only. -/
theorem deviceMove_eq (d : DeviceMove) (s : State) : deviceMove d s = { s with dev := (deviceMove d s).dev } := by
  unfold deviceMove; split <;> rfl

theorem deviceMove_dev (d : DeviceMove) (s : State) :
    (deviceMove d s).dev = match s.cfg.deviceMode with | .abstr => s.dev | .reference => referenceMove s.dev d := by
  unfold deviceMove; cases s.cfg.deviceMode <;> rfl

theorem deviceMove_ok (d : DeviceMove) (s : State) (h : DeviceOk s.dev) : DeviceOk (deviceMove d s).dev := by
  rw [deviceMove_dev]; split
  · exact h
  · exact referenceMove_ok _ _ h

theorem deviceMove_depth (d : DeviceMove) (s : State) : (deviceMove d s).dev.depth = s.dev.depth := by
  rw [deviceMove_dev]; split
  · rfl
  · exact referenceMove_depth _ _

theorem drawWord_eq (s : State) :
    (drawWord s).2 = { s with script := (drawWord s).2.script, draws := (drawWord s).2.draws } := by
  unfold drawWord; split <;> rfl

theorem drawRsr_eq (s : State) :
    (drawRsr s).2 = { s with script := (drawRsr s).2.script, draws := (drawRsr s).2.draws } := by
  unfold drawRsr; split <;> rfl

/-- A read changes the draws; nothing else (20_memory.md rule R81). -/
theorem deviceRead_eq (r : ReadReg) (s : State) :
    (deviceRead r s).2 = { s with script := (deviceRead r s).2.script, draws := (deviceRead r s).2.draws } := by
  unfold deviceRead
  split
  · split
    · rw [drawRsr_eq]
    · rw [drawWord_eq]
  · cases r <;> simp only [referenceRead] <;> rw [drawWord_eq]

@[simp] theorem deviceRead_cfg (r : ReadReg) (s : State) : (deviceRead r s).2.cfg = s.cfg := by rw [deviceRead_eq]
@[simp] theorem deviceRead_ctx (r : ReadReg) (s : State) : (deviceRead r s).2.ctx = s.ctx := by rw [deviceRead_eq]
@[simp] theorem deviceRead_position (r : ReadReg) (s : State) : (deviceRead r s).2.position = s.position := by
  rw [deviceRead_eq]
@[simp] theorem deviceRead_schedule (r : ReadReg) (s : State) : (deviceRead r s).2.schedule = s.schedule := by
  rw [deviceRead_eq]
@[simp] theorem deviceRead_agenda (r : ReadReg) (s : State) : (deviceRead r s).2.agenda = s.agenda := by
  rw [deviceRead_eq]
@[simp] theorem deviceRead_trace (r : ReadReg) (s : State) : (deviceRead r s).2.trace = s.trace := by rw [deviceRead_eq]
@[simp] theorem deviceRead_bus (r : ReadReg) (s : State) : (deviceRead r s).2.bus = s.bus := by rw [deviceRead_eq]
@[simp] theorem deviceRead_returned (r : ReadReg) (s : State) : (deviceRead r s).2.returned = s.returned := by
  rw [deviceRead_eq]

@[simp] theorem deviceRead_dev (r : ReadReg) (s : State) : (deviceRead r s).2.dev = s.dev := by rw [deviceRead_eq]

theorem unlessBusy_cases {off : Nat} {dev : Device} {s t : State} (h : unlessBusy off dev s = .ok () t) :
    s.dev.txBusy = false ∧ t = { s with dev := dev } := by
  unfold unlessBusy at h
  split at h
  · cases h
  · next hb => cases h; exact ⟨by simpa using hb, rfl⟩

/-- Everything a write that the REFERENCE DEVICE takes can do. -/
theorem referenceWrite_cases {r : WriteReg} {v : Word} {s t : State} (h : referenceWrite r v s = .ok () t) :
    (r = .machi ∧ t = { s with dev := { s.dev with machi := v } }) ∨
    (r = .tplr ∧ s.dev.txBusy = false ∧
      t = { s with draws := s.draws + 1,
                   dev := { s.dev with txBusy := true, pending := triggeredFrame s.dev v s.draws } }) ∨
    (r = .tfcs ∧ s.dev.txBusy = false ∧ t = { s with dev := { s.dev with tfcs := v } }) ∨
    (r = .mdioctrl ∧ t = s) ∨
    (r = .rfcs ∧ 1 ≤ v.toNat ∧ v.toNat ≤ 8 ∧
      t = { s with dev := { s.dev with depth := some v.toNat, first := 0, next := 0 } }) ∨
    (r = .rsr ∧ t = { s with draws := s.draws + 1, dev := { s.dev with first := acknowledged s.dev v s.draws } }) ∨
    (∃ i, r = .txbuff i ∧ s.dev.txBusy = false ∧
      t = { s with dev := { s.dev with buf := Memory.storeWord s.dev.buf (0x1000 + 8 * i.toNat) v } }) := by
  cases r with
  | machi => cases h; exact .inl ⟨rfl, rfl⟩
  | tplr => obtain ⟨hb, rfl⟩ := unlessBusy_cases h; exact .inr (.inl ⟨rfl, hb, rfl⟩)
  | tfcs => obtain ⟨hb, rfl⟩ := unlessBusy_cases h; exact .inr (.inr (.inl ⟨rfl, hb, rfl⟩))
  | mdioctrl => cases h; exact .inr (.inr (.inr (.inl ⟨rfl, rfl⟩)))
  | rfcs =>
    simp only [referenceWrite] at h
    split at h
    · next hv => cases h; exact .inr (.inr (.inr (.inr (.inl ⟨rfl, hv.1, hv.2, rfl⟩))))
    · cases h
  | rsr => cases h; exact .inr (.inr (.inr (.inr (.inr (.inl ⟨rfl, rfl⟩)))))
  | txbuff i =>
    obtain ⟨hb, rfl⟩ := unlessBusy_cases h
    exact .inr (.inr (.inr (.inr (.inr (.inr ⟨i, rfl, hb, rfl⟩)))))

/-- A write changes the DEVICE and the draw counter only. -/
theorem deviceWrite_eq {r : WriteReg} {v : Word} {s t : State} (h : deviceWrite r v s = .ok () t) :
    t = { s with dev := t.dev, draws := t.draws } := by
  unfold deviceWrite at h
  split at h
  · cases h; rfl
  · obtain ⟨-, rfl⟩ | ⟨-, -, rfl⟩ | ⟨-, -, rfl⟩ | ⟨-, rfl⟩ | ⟨-, -, -, rfl⟩ | ⟨-, rfl⟩ | ⟨i, -, -, rfl⟩ := referenceWrite_cases h <;> rfl

theorem acknowledged_lt (dev : Device) (v : Word) (seed d : Nat) (hd : dev.depth = some d) (h1 : 1 ≤ d) (h8 : d ≤ 8) :
    (acknowledged dev v seed).toNat < d := by
  simp only [acknowledged, hd]
  exact ofNat_mod_lt _ _ h1 h8

theorem deviceWrite_ok {r : WriteReg} {v : Word} {s t : State} (h : deviceWrite r v s = .ok () t) (ok : DeviceOk s.dev) :
    DeviceOk t.dev := by
  unfold deviceWrite at h
  split at h
  · cases h; exact ok
  · obtain ⟨hr, hw, hi⟩ := ok
    obtain ⟨-, rfl⟩ | ⟨-, -, rfl⟩ | ⟨-, -, rfl⟩ | ⟨-, rfl⟩ | ⟨-, h1, h8, rfl⟩ | ⟨-, rfl⟩ | ⟨i, -, -, rfl⟩ := referenceWrite_cases h
    · exact ⟨hr, hw, hi⟩
    · exact ⟨hr, hw, hi⟩
    · exact ⟨hr, hw, hi⟩
    · exact ⟨hr, hw, hi⟩
    · refine ⟨fun d hd => ?_, hw, hi⟩
      obtain rfl : v.toNat = d := by simpa using hd
      exact ⟨h1, h8, by simp; omega, by simp; omega⟩
    · refine ⟨fun d hd => ?_, hw, hi⟩
      obtain ⟨h1, h8, -, hn⟩ := hr d hd
      exact ⟨h1, h8, acknowledged_lt _ _ _ _ hd h1 h8, hn⟩
    · have := i.isLt
      exact ⟨hr, storeWord_wf _ _ _ hw, storeWord_inWindows _ _ _ hi (.inl (by omega))⟩

/-- A write never unsets the depth, and an RFCS write that the REFERENCE DEVICE takes sets it. -/
theorem deviceWrite_depth {r : WriteReg} {v : Word} {s t : State} (h : deviceWrite r v s = .ok () t)
    (hd : s.dev.depth.isSome = true ∨ (s.cfg.deviceMode = .reference ∧ r = .rfcs)) : t.dev.depth.isSome = true := by
  unfold deviceWrite at h
  split at h
  · next hm => cases h; simpa [hm] using hd
  · obtain ⟨rfl, rfl⟩ | ⟨rfl, -, rfl⟩ | ⟨rfl, -, rfl⟩ | ⟨rfl, rfl⟩ | ⟨-, -, -, rfl⟩ | ⟨rfl, rfl⟩ | ⟨i, rfl, -, rfl⟩ := referenceWrite_cases h <;>
      simp at hd ⊢ <;> exact hd

end Sys2Proof.Machine
end

