-- ==== Sys2Proof/Laws/Access.lean ====
section
/-! SUPPORT. What the register accesses, the window copies and the other agents' turn can do to the state. -/

namespace Sys2Proof.Machine

/-! ## Sequencing -/

@[simp] theorem andThen_ok {α β : Type} (a : α) (s : State) (f : α → State → Answer β) :
    (Answer.ok a s).andThen f = f a s := rfl

@[simp] theorem andThen_stop {α β : Type} (e : Fault) (f : α → State → Answer β) :
    (Answer.stop e : Answer α).andThen f = .stop e := rfl

/-- A sequence completes iff its first part completes and the rest completes from there. -/
theorem andThen_eq_ok {α β : Type} {x : Answer α} {f : α → State → Answer β} {b : β} {t : State} :
    x.andThen f = .ok b t ↔ ∃ a s, x = .ok a s ∧ f a s = .ok b t := by
  cases x <;> simp

/-! ## What an operation carries along

Everything between the first access and the return leaves the parameters, the agenda, the results returned before, and the
operation in progress alone; it adds to the bus and the trace, and keeps the DEVICE one the spec describes. -/

/-- What holds between the state before and after part of an operation. -/
structure Carries (s t : State) : Prop where
  cfg      : t.cfg = s.cfg
  agenda   : t.agenda = s.agenda
  returned : t.returned = s.returned
  op       : currentOp t = currentOp s
  bus      : s.bus.IsPrefix t.bus
  trace    : s.trace.IsPrefix t.trace
  device   : DeviceOk s.dev → DeviceOk t.dev
  depth    : s.dev.depth.isSome = true → t.dev.depth.isSome = true

theorem Carries.refl (s : State) : Carries s s :=
  ⟨rfl, rfl, rfl, rfl, List.prefix_refl _, List.prefix_refl _, id, id⟩

theorem Carries.trans {s t u : State} (h : Carries s t) (k : Carries t u) : Carries s u :=
  ⟨k.cfg.trans h.cfg, k.agenda.trans h.agenda, k.returned.trans h.returned, k.op.trans h.op, h.bus.trans k.bus,
    h.trace.trans k.trace, k.device ∘ h.device, k.depth ∘ h.depth⟩

theorem currentOp_congr (s t : State) (h : t.position = s.position) : currentOp t = currentOp s := by
  unfold currentOp
  rw [h]

theorem record_carries (k : ErrorKind) (d : Detail) (s : State) : Carries s (record k d s) :=
  ⟨rfl, rfl, rfl, rfl, List.prefix_refl _, List.prefix_append _ _, id, id⟩

theorem logAccess_carries (a : Access) (s : State) : Carries s (logAccess a s) :=
  ⟨rfl, rfl, rfl, rfl, List.prefix_append _ _, List.prefix_refl _, id, id⟩

theorem atStep_carries (k : StepIndex) (s : State) : Carries s (atStep k s) :=
  ⟨rfl, rfl, rfl, currentOp_atStep k s, List.prefix_refl _, List.prefix_refl _, id, id⟩

theorem drawWord_carries (s : State) : Carries s (drawWord s).2 := by
  rw [drawWord_eq]
  exact ⟨rfl, rfl, rfl, rfl, List.prefix_refl _, List.prefix_refl _, id, id⟩

theorem deviceMove_carries (d : DeviceMove) (s : State) : Carries s (deviceMove d s) := by
  refine ⟨?_, ?_, ?_, ?_, ?_, ?_, deviceMove_ok d s, fun h => by rw [deviceMove_depth]; exact h⟩ <;>
    rw [deviceMove_eq]
  rfl

theorem deviceRead_carries (r : ReadReg) (s : State) : Carries s (deviceRead r s).2 := by
  refine ⟨by simp, by simp, by simp, currentOp_congr _ _ (by simp), ?_, ?_, ?_, ?_⟩ <;> simp

theorem deviceWrite_carries {r : WriteReg} {v : Word} {s t : State} (h : deviceWrite r v s = .ok () t) : Carries s t := by
  refine ⟨?_, ?_, ?_, ?_, ?_, ?_, deviceWrite_ok h, fun hd => deviceWrite_depth h (.inl hd)⟩ <;> rw [deviceWrite_eq h]
  rfl

/-! ## The other agents' turn -/

theorem otherMoves_carries {ms : List Move} {s t : State} (h : otherMoves ms s = .ok () t) : Carries s t := by
  induction ms generalizing s with
  | nil => cases h; exact .refl _
  | cons m rest ih =>
    cases m with
    | device d => exact (deviceMove_carries d s).trans (ih h)
    | invoke op => cases h

theorem othersTurn_carries {s t : State} (h : othersTurn s = .ok () t) : Carries s t := by
  unfold othersTurn at h
  split at h
  · cases h; exact .refl _
  · next ms rest _ =>
    have k : Carries s { s with schedule := rest } :=
      ⟨rfl, rfl, rfl, rfl, List.prefix_refl _, List.prefix_refl _, id, id⟩
    exact k.trans (otherMoves_carries h)

/-- The Device Context is the CORE's own: no DEVICE step and no access changes it. -/
theorem deviceMove_ctx (d : DeviceMove) (s : State) : (deviceMove d s).ctx = s.ctx := by rw [deviceMove_eq]

theorem deviceMove_cfg (d : DeviceMove) (s : State) : (deviceMove d s).cfg = s.cfg := by rw [deviceMove_eq]

theorem otherMoves_ctx {ms : List Move} {s t : State} (h : otherMoves ms s = .ok () t) : t.ctx = s.ctx := by
  induction ms generalizing s with
  | nil => cases h; rfl
  | cons m rest ih =>
    cases m with
    | device d => rw [ih h, deviceMove_ctx]
    | invoke op => cases h

theorem othersTurn_ctx {s t : State} (h : othersTurn s = .ok () t) : t.ctx = s.ctx := by
  unfold othersTurn at h
  split at h
  · cases h; rfl
  · rw [otherMoves_ctx h]

theorem otherMoves_quiet (ms : List Move) (s : State) (h : ∀ m ∈ ms, m.isDevice = true) :
    otherMoves ms s = .ok () (ms.foldl moveEffect s) := by
  induction ms generalizing s with
  | nil => rfl
  | cons m rest ih =>
    cases m with
    | device d => exact ih (deviceMove d s) fun m hm => h m (List.mem_cons_of_mem _ hm)
    | invoke op => exact absurd (h _ List.mem_cons_self) (by simp [Move.isDevice])

theorem Quiet.next {s : State} (h : Quiet s) : QuietNext s := fun ms hm => h ms (List.mem_of_mem_head? hm)

/-- Without a HOST invocation before the next access, the others' turn completes. -/
theorem othersTurn_quietNext (s : State) (h : QuietNext s) : othersTurn s = .ok () (afterOthers s) := by
  cases hs : s.schedule with
  | nil => simp [othersTurn, afterOthers, hs]
  | cons ms rest =>
    simp only [othersTurn, afterOthers, hs]
    exact otherMoves_quiet ms _ (h ms (by rw [hs]; rfl))

/-- Without a HOST invocation in the schedule, the others' turn always completes. -/
theorem othersTurn_quiet (s : State) (h : Quiet s) : othersTurn s = .ok () (afterOthers s) := othersTurn_quietNext s h.next

/-- In ABSTRACT mode the others' turn only uses up the head of the schedule. -/
theorem afterOthers_abstr (s : State) (h : s.cfg.deviceMode = .abstr) :
    afterOthers s = { s with schedule := s.schedule.tail } := by
  have fold : ∀ (ms : List Move) (u : State), u.cfg.deviceMode = .abstr → ms.foldl moveEffect u = u := by
    intro ms
    induction ms with
    | nil => intros; rfl
    | cons m rest ih =>
      intro u hu
      have : moveEffect u m = u := by cases m <;> simp [moveEffect, deviceMove, hu]
      rw [List.foldl_cons, this, ih u hu]
  unfold afterOthers
  split
  · next hs => rw [hs, List.tail_nil, ← hs]
  · next ms rest hs => rw [hs, fold _ { s with schedule := rest } h, List.tail_cons]

theorem afterOthers_nil (s : State) (h : s.schedule = []) : afterOthers s = s := by
  unfold afterOthers
  rw [h]

/-- The others' turn changes the DEVICE, and uses up the head of the schedule. -/
theorem afterOthers_eq (s : State) : afterOthers s = { s with dev := (afterOthers s).dev, schedule := s.schedule.tail } := by
  have fold : ∀ (ms : List Move) (u : State), ms.foldl moveEffect u = { u with dev := (ms.foldl moveEffect u).dev } := by
    intro ms
    induction ms with
    | nil => intro u; rfl
    | cons m rest ih =>
      intro u
      rw [List.foldl_cons, ih]
      cases m with
      | device d => simp only [moveEffect]; rw [deviceMove_eq]
      | invoke op => rfl
  unfold afterOthers
  split
  · next hs => rw [hs, List.tail_nil, ← hs]
  · next ms rest hs => rw [hs, List.tail_cons, fold]

/-- The others' turn does not depend on the CORE's position. -/
theorem afterOthers_position (s : State) (p : Position) :
    afterOthers { s with position := p } = { afterOthers s with position := p } := by
  have fold : ∀ (ms : List Move) (u : State),
      ms.foldl moveEffect { u with position := p } = { ms.foldl moveEffect u with position := p } := by
    intro ms
    induction ms with
    | nil => intro u; rfl
    | cons m rest ih =>
      intro u
      rw [List.foldl_cons, List.foldl_cons, ← ih]
      congr 1
      cases m with
      | device d => simp only [moveEffect, deviceMove]; cases u.cfg.deviceMode <;> rfl
      | invoke op => rfl
  unfold afterOthers
  simp only
  split
  · rfl
  · next ms rest hs => exact fold ms { s with schedule := rest }

theorem afterOthers_atStep (k : StepIndex) (s : State) : afterOthers (atStep k s) = atStep k (afterOthers s) := by
  have e : (afterOthers s).position = s.position := by rw [afterOthers_eq]
  simp only [atStep, e]
  exact afterOthers_position s _

/-! ## One access -/

/-- Everything a completed `RegRead` can do. -/
theorem regRead_cases {k : StepIndex} {off : Nat} {s t : State} {v : Word} (h : regRead k off s = .ok v t) :
    ∃ base r u, s.ctx.ioBase = some base ∧ mapRead off = .at r ∧ othersTurn (atStep k s) = .ok () u ∧
      v = (deviceRead r u).1 ∧ t = logAccess (readAt base off v) (deviceRead r u).2 := by
  unfold regRead withBase at h
  split at h
  · cases h
  · next base hb =>
    split at h
    · cases h
    · next r hr =>
      obtain ⟨_, u, hu, hp⟩ := andThen_eq_ok.mp h
      cases hp
      exact ⟨base, r, u, hb, hr, hu, rfl, rfl⟩

/-- Everything a completed `RegWrite` can do. -/
theorem regWrite_cases {k : StepIndex} {off : Nat} {s t : State} {v : Word} (h : regWrite k off v s = .ok () t) :
    ∃ base r u w, s.ctx.ioBase = some base ∧ mapWrite off = .at r ∧ othersTurn (atStep k s) = .ok () u ∧
      deviceWrite r v u = .ok () w ∧ t = logAccess (writeAt base off v) w := by
  unfold regWrite withBase at h
  split at h
  · cases h
  · next base hb =>
    split at h
    · cases h
    · next r hr =>
      obtain ⟨_, u, hu, hp⟩ := andThen_eq_ok.mp h
      obtain ⟨_, w, hw, hq⟩ := andThen_eq_ok.mp hp
      cases hq
      exact ⟨base, r, u, w, hb, hr, hu, hw, rfl⟩

theorem regRead_carries {k : StepIndex} {off : Nat} {s t : State} {v : Word} (h : regRead k off s = .ok v t) : Carries s t := by
  obtain ⟨base, r, u, -, -, hu, -, rfl⟩ := regRead_cases h
  exact (((atStep_carries k s).trans (othersTurn_carries hu)).trans (deviceRead_carries r u)).trans (logAccess_carries _ _)

theorem regWrite_carries {k : StepIndex} {off : Nat} {s t : State} {v : Word} (h : regWrite k off v s = .ok () t) : Carries s t := by
  obtain ⟨base, r, u, w, -, -, hu, hw, rfl⟩ := regWrite_cases h
  exact (((atStep_carries k s).trans (othersTurn_carries hu)).trans (deviceWrite_carries hw)).trans (logAccess_carries _ _)

theorem regRead_ctx {k : StepIndex} {off : Nat} {s t : State} {v : Word} (h : regRead k off s = .ok v t) : t.ctx = s.ctx := by
  obtain ⟨base, r, u, -, -, hu, -, rfl⟩ := regRead_cases h
  simp [othersTurn_ctx hu]

theorem regWrite_ctx {k : StepIndex} {off : Nat} {s t : State} {v : Word} (h : regWrite k off v s = .ok () t) : t.ctx = s.ctx := by
  obtain ⟨base, r, u, w, -, -, hu, hw, rfl⟩ := regWrite_cases h
  have hx : w.ctx = u.ctx := by rw [deviceWrite_eq hw]
  rw [logAccess_ctx, hx, othersTurn_ctx hu, atStep_ctx]

/-- An access does not depend on the decision points passed before it. -/
@[simp] theorem regRead_atStep (j k : StepIndex) (off : Nat) (s : State) : regRead k off (atStep j s) = regRead k off s := by
  simp [regRead, withBase]

@[simp] theorem regWrite_atStep (j k : StepIndex) (off : Nat) (v : Word) (s : State) :
    regWrite k off v (atStep j s) = regWrite k off v s := by
  simp [regWrite, withBase]

/-- A read before which no HOST invocation lands completes, with the DEVICE's answer after the others' turn. -/
theorem regRead_quietNext {k : StepIndex} {off : Nat} {s : State} {base : Word} {r : ReadReg} (hb : s.ctx.ioBase = some base)
    (hr : mapRead off = .at r) (hq : QuietNext s) : regRead k off s = performRead base off r (atStep k (afterOthers s)) := by
  simp [regRead, withBase, hb, hr, othersTurn_quietNext (atStep k s) hq, afterOthers_atStep]

/-- A quiet read completes, with the DEVICE's answer after the others' turn. -/
theorem regRead_quiet {k : StepIndex} {off : Nat} {s : State} {base : Word} {r : ReadReg} (hb : s.ctx.ioBase = some base)
    (hr : mapRead off = .at r) (hq : Quiet s) : regRead k off s = performRead base off r (atStep k (afterOthers s)) :=
  regRead_quietNext hb hr hq.next

/-- A quiet write is the DEVICE's taking it after the others' turn. -/
theorem regWrite_quiet {k : StepIndex} {off : Nat} {s : State} {base : Word} {r : WriteReg} {v : Word} (hb : s.ctx.ioBase = some base)
    (hr : mapWrite off = .at r) (hq : Quiet s) : regWrite k off v s = performWrite base off r v (atStep k (afterOthers s)) := by
  simp [regWrite, withBase, hb, hr, othersTurn_quiet (atStep k s) hq, afterOthers_atStep]

/-- The trace is left alone by a bare access. -/
theorem regRead_trace {k : StepIndex} {off : Nat} {s t : State} {v : Word} (h : regRead k off s = .ok v t) : t.trace = s.trace := by
  have others : ∀ {a b : State}, othersTurn a = .ok () b → b.trace = a.trace := by
    intro a b hab
    have moves : ∀ (ms : List Move) (u w : State), otherMoves ms u = .ok () w → w.trace = u.trace := by
      intro ms
      induction ms with
      | nil => intro u w hw; cases hw; rfl
      | cons m rest ih =>
        intro u w hw
        cases m with
        | device d => rw [ih _ _ hw, deviceMove_eq]
        | invoke op => cases hw
    unfold othersTurn at hab
    split at hab
    · cases hab; rfl
    · rw [moves _ _ _ hab]
  obtain ⟨base, r, u, -, -, hu, -, rfl⟩ := regRead_cases h
  simp [others hu]

/-! ## Window copies -/

theorem fetchWords_carries {k : StepIndex} {n off : Nat} {s t : State} {ws : List Word} (h : fetchWords k off n s = .ok ws t) :
    Carries s t ∧ t.ctx = s.ctx ∧ ws.length = n := by
  induction n generalizing k off s ws with
  | zero => cases h; exact ⟨.refl _, rfl, rfl⟩
  | succ n ih =>
    obtain ⟨w, u, hu, hk⟩ := andThen_eq_ok.mp h
    obtain ⟨vs, x, hx, he⟩ := andThen_eq_ok.mp hk
    cases he
    obtain ⟨hc, hctx, hlen⟩ := ih hx
    exact ⟨(regRead_carries hu).trans hc, hctx.trans (regRead_ctx hu), by simp [hlen]⟩

theorem stageWords_carries {k : StepIndex} {ws : List Word} {off : Nat} {s t : State} (h : stageWords k off ws s = .ok () t) :
    Carries s t ∧ t.ctx = s.ctx := by
  induction ws generalizing k off s with
  | nil => cases h; exact ⟨.refl _, rfl⟩
  | cons w rest ih =>
    obtain ⟨_, u, hu, hk⟩ := andThen_eq_ok.mp h
    obtain ⟨hc, hctx⟩ := ih hk
    exact ⟨(regWrite_carries hu).trans hc, hctx.trans (regWrite_ctx hu)⟩

/-! ## The accessor -/

theorem rejectedRead_carries {off : Nat} {s t : State} {v : Word} (h : rejectedRead off s = .ok v t) :
    Carries s t ∧ t.ctx = s.ctx := by
  cases h
  exact ⟨(record_carries _ _ s).trans (drawWord_carries _), by simp⟩

theorem accessRead_carries {off : Nat} {s t : State} {v : Word} (h : accessRead off s = .ok v t) :
    Carries s t ∧ t.ctx = s.ctx := by
  unfold accessRead withBase at h
  split at h
  · cases h
  · split at h
    · cases h
    · unfold checkedRead at h
      split at h
      · obtain ⟨c, e⟩ := rejectedRead_carries h
        exact ⟨(atStep_carries _ s).trans c, e⟩
      · rw [regRead_atStep] at h
        exact ⟨regRead_carries h, regRead_ctx h⟩

theorem accessWrite_carries {off : Nat} {s t : State} {v : Word} (h : accessWrite off v s = .ok () t) :
    Carries s t ∧ t.ctx = s.ctx := by
  unfold accessWrite withBase at h
  split at h
  · cases h
  · split at h
    · cases h
    · unfold checkedWrite at h
      split at h
      · cases h
        exact ⟨(atStep_carries _ s).trans (record_carries _ _ _), rfl⟩
      · rw [regWrite_atStep] at h
        exact ⟨regWrite_carries h, regWrite_ctx h⟩

theorem readVia_carries {via : Via} {off : Nat} {s t : State} {v : Word} (h : readVia via off s = .ok v t) :
    Carries s t ∧ t.ctx = s.ctx := by
  cases via with
  | copy => exact ⟨regRead_carries h, regRead_ctx h⟩
  | control => exact accessRead_carries h

theorem writeVia_carries {via : Via} {off : Nat} {s t : State} {v : Word} (h : writeVia via off v s = .ok () t) :
    Carries s t ∧ t.ctx = s.ctx := by
  cases via with
  | copy => exact ⟨regWrite_carries h, regWrite_ctx h⟩
  | control => exact accessWrite_carries h

/-! ## Operations as a whole -/

/-- Everything a completed operation is: its body completed, and its result was returned. -/
theorem runOp_cases {op : Op} {body : State → Answer Result} {s t : State} (h : runOp op body s = .next t) :
    ∃ r u, body { s with position := .running op (stepNo 0) } = .ok r u ∧ t = returnTo s.position r u := by
  unfold runOp at h
  split at h
  · next r u hu => cases h; exact ⟨r, u, hu, rfl⟩
  · cases h

/-- A completed HOST call found the CORE idle, and leaves it idle. -/
theorem hostCall_cases {op : Op} {body : State → Answer Result} {s t : State} (h : hostCall op body s = .next t) :
    s.position = .idle ∧
      ∃ r u, body { s with position := .running op (stepNo 0) } = .ok r u ∧ t = returnTo .idle r u := by
  unfold hostCall at h
  split at h
  · cases h
  · next hp =>
    obtain ⟨r, u, hu, rfl⟩ := runOp_cases h
    exact ⟨hp, r, u, hu, by rw [hp]⟩

end Sys2Proof.Machine
end

