-- ==== Sys2Proof/Laws/Mapping.lean ====
section
/-! SUPPORT. Which register an offset selects (20_memory.md rule R71; 30_encoding.md rule R103). -/

namespace Sys2Proof.Machine

open Sys2Proof

/-- A row that a word hits agrees with the word on every bit of its mask. -/
theorem hits_bit {r : BusRow} {q : BitVec 16} (h : r.hits q = true) {k : Nat} (hk : r.mask.getLsbD k = true) :
    q.getLsbD k = r.mtch.getLsbD k := by
  have e : q &&& r.mask = r.mtch := by simpa [BusRow.hits] using h
  rw [← e]
  simp [hk]

/-- So one bit of the mask where they differ is enough to rule a row out. -/
theorem hits_false {r : BusRow} {q : BitVec 16} (k : Nat) (hk : r.mask.getLsbD k = true)
    (hne : q.getLsbD k ≠ r.mtch.getLsbD k) : r.hits q = false := by
  cases h : r.hits q
  · rfl
  · exact absurd (hits_bit h hk) hne

/-- Bit `k` of a field is a bit of the word. -/
theorem bit_of_field {q : BitVec 16} {lo w : Nat} {f : BitVec w} (h : q.extractLsb' lo w = f) (k : Nat) (hk : k < w) :
    q.getLsbD (lo + k) = f.getLsbD k := by
  rw [← h]
  simp [hk]

theorem decodeBusWord_rxbuff (q : BitVec 16) (h : q.extractLsb' 14 2 = 1#2) (h0 : q.extractLsb' 0 3 = 0#3) :
    decodeBusWord q = some (.rd (.rxbuff (q.extractLsb' 11 3) (q.extractLsb' 3 8))) := by
  have b14 : q.getLsbD 14 = true := bit_of_field h 0 (by decide)
  have b15 : q.getLsbD 15 = false := bit_of_field h 1 (by decide)
  have b0 : q.getLsbD 0 = false := bit_of_field h0 0 (by decide)
  have b1 : q.getLsbD 1 = false := bit_of_field h0 1 (by decide)
  have b2 : q.getLsbD 2 = false := bit_of_field h0 2 (by decide)
  have none : ∀ r ∈ busTable.take 15, r.hits q = false := by
    intro r hr
    refine hits_false 14 ?_ (fun e => ?_)
    · revert r; simp [busTable]
    · rw [b14] at e; revert r; simp [busTable]
  have last : BusRow.hits ⟨0x4000, 0xC007, fun q => .rd (.rxbuff (q.extractLsb' 11 3) (q.extractLsb' 3 8))⟩ q = true := by
    have e : q &&& 0xC007#16 = 0x4000#16 := by
      apply BitVec.eq_of_getLsbD_eq
      intro k hk
      simp at b0 b1 b2 b14 b15
      interval_cases k <;> simp [b0, b1, b2, b14, b15]
    simpa [BusRow.hits] using e
  have split : busTable = busTable.take 15 ++
      [⟨0x4000, 0xC007, fun q => .rd (.rxbuff (q.extractLsb' 11 3) (q.extractLsb' 3 8))⟩] := rfl
  unfold decodeBusWord
  rw [split, List.find?_append, List.find?_eq_none.mpr (fun r hr => by simp [none r hr]), Option.none_or]
  simp only [List.find?, last, Option.map_some]

theorem decodeBusWord_txbuff (q : BitVec 16) (h : q.extractLsb' 11 5 = 0b10010#5) (h0 : q.extractLsb' 0 3 = 0#3) :
    decodeBusWord q = some (.wr (.txbuff (q.extractLsb' 3 8))) := by
  have b11 : q.getLsbD 11 = false := bit_of_field h 0 (by decide)
  have b12 : q.getLsbD 12 = true := bit_of_field h 1 (by decide)
  have b13 : q.getLsbD 13 = false := bit_of_field h 2 (by decide)
  have b14 : q.getLsbD 14 = false := bit_of_field h 3 (by decide)
  have b15 : q.getLsbD 15 = true := bit_of_field h 4 (by decide)
  have b0 : q.getLsbD 0 = false := bit_of_field h0 0 (by decide)
  have b1 : q.getLsbD 1 = false := bit_of_field h0 1 (by decide)
  have b2 : q.getLsbD 2 = false := bit_of_field h0 2 (by decide)
  have none : ∀ r ∈ busTable.take 14, r.hits q = false := by
    intro r hr
    refine hits_false 12 ?_ (fun e => ?_)
    · revert r; simp [busTable]
    · rw [b12] at e; revert r; simp [busTable]
  have row : BusRow.hits ⟨0x9000, 0xF807, fun q => .wr (.txbuff (q.extractLsb' 3 8))⟩ q = true := by
    have e : q &&& 0xF807#16 = 0x9000#16 := by
      apply BitVec.eq_of_getLsbD_eq
      intro k hk
      simp at b0 b1 b2 b11 b12 b13 b14 b15
      interval_cases k <;> simp [b0, b1, b2, b11, b12, b13, b14, b15]
    simpa [BusRow.hits] using e
  have split : busTable = busTable.take 14 ++
      (⟨0x9000, 0xF807, fun q => .wr (.txbuff (q.extractLsb' 3 8))⟩ :: busTable.drop 15) := rfl
  unfold decodeBusWord
  rw [split, List.find?_append, List.find?_eq_none.mpr (fun r hr => by simp [none r hr]), Option.none_or]
  simp only [List.find?, row, Option.map_some]

theorem decodeBusWord_rplr (slot : BitVec 3) :
    decodeBusWord (0b0000100001#10 ++ slot ++ 0#3) = some (.rd (.rplr slot)) := by
  revert slot; decide

/-- A field of a word given as a number. -/
theorem field_ofNat (n lo w : Nat) : (BitVec.ofNat 16 n).extractLsb' lo w = BitVec.ofNat w (n % 2 ^ 16 / 2 ^ lo) := by
  apply BitVec.eq_of_toNat_eq
  simp [Nat.shiftRight_eq_div_pow]

theorem mapRead_rxbuff (slot k : Nat) (hs : slot < 8) (hk : k < 256) :
    mapRead (0x4000 + 0x800 * slot + 8 * k) = .at (.rxbuff (BitVec.ofNat 3 slot) (BitVec.ofNat 8 k)) := by
  have hq : decodeBusWord (busWord .read (0x4000 + 0x800 * slot + 8 * k)) =
      some (.rd (.rxbuff (BitVec.ofNat 3 slot) (BitVec.ofNat 8 k))) := by
    rw [busWord, decodeBusWord_rxbuff, field_ofNat, field_ofNat]
    · congr 3 <;> (apply BitVec.eq_of_toNat_eq; simp only [BitVec.toNat_ofNat]; omega)
    · rw [field_ofNat]; apply BitVec.eq_of_toNat_eq; simp only [BitVec.toNat_ofNat]; omega
    · rw [field_ofNat]; apply BitVec.eq_of_toNat_eq; simp only [BitVec.toNat_ofNat]; omega
  unfold mapRead
  rw [if_neg (by omega), if_neg (by omega), hq]

theorem mapRead_rplr (slot : Nat) (hs : slot < 8) :
    mapRead (0x0840 + 8 * slot) = .at (.rplr (BitVec.ofNat 3 slot)) := by
  interval_cases slot <;> decide

theorem mapWrite_txbuff (k : Nat) (hk : k < 256) : mapWrite (0x1000 + 8 * k) = .at (.txbuff (BitVec.ofNat 8 k)) := by
  have e : busWord .write (0x1000 + 8 * k) = BitVec.ofNat 16 (0x9000 + 8 * k) := by
    apply BitVec.eq_of_toNat_eq
    have h1 : BitVec.toNat (0x8000#16 ||| BitVec.ofNat 16 (0x1000 + 8 * k)) = 2 ^ 15 * 1 ||| (0x1000 + 8 * k) := by
      rw [BitVec.toNat_or, BitVec.toNat_ofNat, BitVec.toNat_ofNat, Nat.mod_eq_of_lt (by omega), Nat.mod_eq_of_lt (by omega)]
      rfl
    rw [busWord, h1, ← Nat.two_pow_add_eq_or_of_lt (by omega), BitVec.toNat_ofNat]
    omega
  have hq : decodeBusWord (busWord .write (0x1000 + 8 * k)) = some (.wr (.txbuff (BitVec.ofNat 8 k))) := by
    rw [e, decodeBusWord_txbuff, field_ofNat]
    · congr 3; apply BitVec.eq_of_toNat_eq; simp only [BitVec.toNat_ofNat]; omega
    · rw [field_ofNat]; apply BitVec.eq_of_toNat_eq; simp only [BitVec.toNat_ofNat]; omega
    · rw [field_ofNat]; apply BitVec.eq_of_toNat_eq; simp only [BitVec.toNat_ofNat]; omega
  unfold mapWrite
  rw [if_neg (by omega), if_neg (by omega), hq]

/-! The fixed offsets. -/

theorem mapRead_maclo : mapRead offMaclo = .at .maclo := by decide
theorem mapRead_machi : mapRead offMachi = .at .machi := by decide
theorem mapRead_tplr : mapRead offTplr = .at .tplr := by decide
theorem mapRead_mdioctrl : mapRead offMdioctrl = .at .mdioctrl := by decide
theorem mapRead_rfcs : mapRead offRfcs = .at .rfcs := by decide
theorem mapRead_rsr : mapRead offRsr = .at .rsr := by decide
theorem mapRead_rbad : mapRead offRbad = .at .rbad := by decide
theorem mapWrite_machi : mapWrite offMachi = .at .machi := by decide
theorem mapWrite_tplr : mapWrite offTplr = .at .tplr := by decide
theorem mapWrite_tfcs : mapWrite offTfcs = .at .tfcs := by decide
theorem mapWrite_mdioctrl : mapWrite offMdioctrl = .at .mdioctrl := by decide
theorem mapWrite_rfcs : mapWrite offRfcs = .at .rfcs := by decide
theorem mapWrite_rsr : mapWrite offRsr = .at .rsr := by decide

end Sys2Proof.Machine
end

