-- ==== Sys2Proof/Laws/Operations.lean ====
section
/-! SUPPORT. What each operation of the CORE can do: the accesses it issues, in order, and what it leaves alone. -/

namespace Sys2Proof.Machine

open Sys2Proof

/-! ## A run of accesses -/

/-- `t` comes after the accesses `as` from `s`, the other agents' turns included; nothing was traced. -/
structure After (s t : State) (as : List Access) : Prop where
  bus      : t.bus = s.bus ++ as
  schedule : t.schedule = s.schedule.drop as.length
  trace    : t.trace = s.trace
  ctx      : t.ctx = s.ctx
  cfg      : t.cfg = s.cfg
  agenda   : t.agenda = s.agenda
  returned : t.returned = s.returned
  op       : currentOp t = currentOp s
  dev      : s.cfg.deviceMode = .abstr → t.dev = s.dev

theorem After.refl (s : State) : After s s [] :=
  ⟨(List.append_nil _).symm, rfl, rfl, rfl, rfl, rfl, rfl, rfl, fun _ => rfl⟩

theorem After.trans {s t u : State} {as bs : List Access} (h : After s t as) (k : After t u bs) : After s u (as ++ bs) :=
  ⟨by rw [k.bus, h.bus, List.append_assoc], by rw [k.schedule, h.schedule, List.drop_drop, List.length_append],
    k.trace.trans h.trace, k.ctx.trans h.ctx, k.cfg.trans h.cfg, k.agenda.trans h.agenda, k.returned.trans h.returned,
    k.op.trans h.op, fun hm => (k.dev (by rw [h.cfg]; exact hm)).trans (h.dev hm)⟩

/-- Coming to a step is no access. -/
theorem After.atStep (k : StepIndex) (s : State) : After s (atStep k s) [] :=
  ⟨(List.append_nil _).symm, rfl, rfl, rfl, rfl, rfl, rfl, currentOp_atStep k s, fun _ => rfl⟩

/-- The state that then comes to a step has made the same accesses. -/
theorem After.toStep {s t : State} {as : List Access} (k : StepIndex) (h : After s t as) : After s (Machine.atStep k t) as := by
  simpa using h.trans (After.atStep k t)

/-- The schedule of a quiet state stays quiet. -/
theorem After.quiet {s t : State} {as : List Access} (h : After s t as) (q : Quiet s) : Quiet t := by
  intro ms hms
  rw [h.schedule] at hms
  exact q ms (List.mem_of_mem_drop hms)

theorem otherMoves_eq {ms : List Move} {s t : State} (h : otherMoves ms s = .ok () t) : t = { s with dev := t.dev } := by
  induction ms generalizing s with
  | nil => cases h; rfl
  | cons m rest ih =>
    cases m with
    | device d =>
      have := ih h
      rw [deviceMove_eq] at this
      exact this
    | invoke op => cases h

/-- The others' turn changes the DEVICE, and uses up the head of the schedule. -/
theorem othersTurn_eq {s t : State} (h : othersTurn s = .ok () t) :
    t = { s with dev := t.dev, schedule := s.schedule.tail } := by
  unfold othersTurn at h
  split at h
  · next hs =>
    cases h
    rw [hs, List.tail_nil, ← hs]
  · next ms rest hs =>
    have := otherMoves_eq h
    rw [hs, List.tail_cons]
    exact this

theorem othersTurn_abstr {s t : State} (h : othersTurn s = .ok () t) (hm : s.cfg.deviceMode = .abstr) :
    t = { s with schedule := s.schedule.tail } := by
  have moves : ∀ (ms : List Move) (u w : State), u.cfg.deviceMode = .abstr → otherMoves ms u = .ok () w → w = u := by
    intro ms
    induction ms with
    | nil => intro u w _ hw; cases hw; rfl
    | cons m rest ih =>
      intro u w hu hw
      cases m with
      | device d =>
        have e : deviceMove d u = u := by simp [deviceMove, hu]
        simp only [otherMoves, e] at hw
        exact ih u w hu hw
      | invoke op => cases hw
  unfold othersTurn at h
  split at h
  · next hs => cases h; rw [hs, List.tail_nil, ← hs]
  · next ms rest hs => rw [hs, List.tail_cons]; exact moves _ { s with schedule := rest } _ hm h

theorem othersTurn_nil {s t : State} (h : othersTurn s = .ok () t) (hs : s.schedule = []) : t = s := by
  unfold othersTurn at h
  rw [hs] at h
  cases h
  rfl

theorem deviceRead_abstr_dev (r : ReadReg) (s : State) (hm : s.cfg.deviceMode = .abstr) : (deviceRead r s).2.dev = s.dev := by
  simp only [deviceRead, hm]
  split
  · rw [drawRsr_eq]
  · rw [drawWord_eq]

/-- In ABSTRACT mode a scripted draw is the answer. -/
theorem deviceRead_scripted (r : ReadReg) (s : State) (d : Word) (rest : List Word) (hm : s.cfg.deviceMode = .abstr)
    (hs : s.script = d :: rest) :
    (deviceRead r s).1 = d ∧ (deviceRead r s).2.script = rest ∧ (deviceRead r s).2.draws = s.draws := by
  simp only [deviceRead, hm]
  split <;> simp [drawRsr, drawWord, hs]

theorem deviceWrite_abstr {r : WriteReg} {v : Word} {s t : State} (h : deviceWrite r v s = .ok () t)
    (hm : s.cfg.deviceMode = .abstr) : t = s := by
  simp only [deviceWrite, hm] at h
  cases h
  rfl

/-- The state in which an access is performed. -/
theorem accessTurn_eq {k : StepIndex} {s t : State} (h : othersTurn (atStep k s) = .ok () t) :
    ∃ d, t = { atStep k s with dev := d, schedule := s.schedule.tail } ∧ (s.cfg.deviceMode = .abstr → d = s.dev) := by
  refine ⟨t.dev, othersTurn_eq h, fun hm => ?_⟩
  rw [othersTurn_abstr h hm]
  rfl

theorem regRead_after {k : StepIndex} {off : Nat} {s t : State} {v base : Word} (h : regRead k off s = .ok v t)
    (hb : s.ctx.ioBase = some base) : After s t [readAt base off v] := by
  obtain ⟨b, r, u, hb', -, hu, -, rfl⟩ := regRead_cases h
  obtain rfl : b = base := by simpa [hb] using hb'.symm
  obtain ⟨d, rfl, hd⟩ := accessTurn_eq hu
  exact ⟨by simp, by simp, by simp, by simp, by simp, by simp, by simp, (regRead_carries h).op, fun hm => by simpa using hd hm⟩

theorem regWrite_after {k : StepIndex} {off : Nat} {s t : State} {v base : Word} (h : regWrite k off v s = .ok () t)
    (hb : s.ctx.ioBase = some base) : After s t [writeAt base off v] := by
  obtain ⟨b, r, u, w, hb', -, hu, hw, rfl⟩ := regWrite_cases h
  obtain rfl : b = base := by simpa [hb] using hb'.symm
  obtain ⟨d, rfl, hd⟩ := accessTurn_eq hu
  have f := deviceWrite_eq hw
  refine ⟨by simp; rw [f]; rfl, by simp; rw [f], by simp; rw [f]; rfl, by simp; rw [f]; rfl, by simp; rw [f]; rfl,
    by simp; rw [f]; rfl, by simp; rw [f]; rfl, (regWrite_carries h).op, fun hm => ?_⟩
  rw [logAccess_dev, deviceWrite_abstr hw hm]
  exact hd hm

/-- The draw of a scripted ABSTRACT read. -/
theorem regRead_scripted {k : StepIndex} {off : Nat} {s t : State} {v d : Word} {rest : List Word}
    (h : regRead k off s = .ok v t) (hm : s.cfg.deviceMode = .abstr) (hs : s.script = d :: rest) :
    v = d ∧ t.script = rest ∧ t.draws = s.draws := by
  obtain ⟨b, r, u, -, -, hu, rfl, rfl⟩ := regRead_cases h
  obtain ⟨e, rfl, -⟩ := accessTurn_eq hu
  exact deviceRead_scripted r _ d rest hm hs

/-- A write draws nothing. -/
theorem regWrite_script {k : StepIndex} {off : Nat} {s t : State} {v : Word} (h : regWrite k off v s = .ok () t) :
    t.script = s.script ∧ (s.cfg.deviceMode = .abstr → t.draws = s.draws) := by
  obtain ⟨b, r, u, w, -, -, hu, hw, rfl⟩ := regWrite_cases h
  obtain ⟨d, rfl, -⟩ := accessTurn_eq hu
  refine ⟨by simp; rw [deviceWrite_eq hw]; rfl, fun hm => ?_⟩
  rw [logAccess_draws, deviceWrite_abstr hw hm]
  rfl

/-- A quiet read of a mapped offset completes. -/
theorem regRead_completes {k : StepIndex} {off : Nat} {s : State} {base : Word} {r : ReadReg} (hb : s.ctx.ioBase = some base)
    (hr : mapRead off = .at r) (hq : Quiet s) : ∃ v t, regRead k off s = .ok v t := by
  rw [regRead_quiet hb hr hq]
  exact ⟨_, _, rfl⟩

/-- A quiet write of a mapped offset completes if the DEVICE takes it. -/
theorem regWrite_completes {k : StepIndex} {off : Nat} {s w : State} {base : Word} {r : WriteReg} {v : Word}
    (hb : s.ctx.ioBase = some base) (hr : mapWrite off = .at r) (hq : Quiet s)
    (hw : deviceWrite r v (atStep k (afterOthers s)) = .ok () w) :
    regWrite k off v s = .ok () (logAccess (writeAt base off v) w) := by
  rw [regWrite_quiet hb hr hq, performWrite, hw, andThen_ok]

/-! ## Window copies -/

/-- The bus record of a fetch. -/
def fetched (base : Word) (off : Nat) (ws : List Word) : List Access :=
  ws.zipIdx.map fun p => readAt base (off + 8 * p.2) p.1

/-- The bus record of a staging. -/
def staged (base : Word) (off : Nat) (ws : List Word) : List Access :=
  ws.zipIdx.map fun p => writeAt base (off + 8 * p.2) p.1

@[simp] theorem fetched_length (base : Word) (off : Nat) (ws : List Word) : (fetched base off ws).length = ws.length := by
  simp [fetched]

@[simp] theorem staged_length (base : Word) (off : Nat) (ws : List Word) : (staged base off ws).length = ws.length := by
  simp [staged]

theorem fetched_cons (base : Word) (off : Nat) (w : Word) (ws : List Word) :
    fetched base off (w :: ws) = readAt base off w :: fetched base (off + 8) ws := by
  simp only [fetched, List.zipIdx_cons', List.map_cons, List.map_map]
  congr 1
  refine List.map_congr_left fun p _ => ?_
  simp [Nat.add_assoc, Nat.mul_add, Nat.add_comm]

theorem staged_cons (base : Word) (off : Nat) (w : Word) (ws : List Word) :
    staged base off (w :: ws) = writeAt base off w :: staged base (off + 8) ws := by
  simp only [staged, List.zipIdx_cons', List.map_cons, List.map_map]
  congr 1
  refine List.map_congr_left fun p _ => ?_
  simp [Nat.add_assoc, Nat.mul_add, Nat.add_comm]

theorem fetchWords_after {k : StepIndex} {n off : Nat} {s t : State} {ws : List Word} {base : Word} (h : fetchWords k off n s = .ok ws t)
    (hb : s.ctx.ioBase = some base) : ws.length = n ∧ After s t (fetched base off ws) := by
  induction n generalizing k off s ws with
  | zero => cases h; exact ⟨rfl, .refl _⟩
  | succ n ih =>
    obtain ⟨w, u, hu, hk⟩ := andThen_eq_ok.mp h
    obtain ⟨vs, x, hx, he⟩ := andThen_eq_ok.mp hk
    cases he
    have a := regRead_after hu hb
    obtain ⟨hl, b⟩ := ih hx (by rw [a.ctx]; exact hb)
    rw [fetched_cons]
    exact ⟨by simp [hl], a.trans b⟩

theorem stageWords_after {k : StepIndex} {ws : List Word} {off : Nat} {s t : State} {base : Word} (h : stageWords k off ws s = .ok () t)
    (hb : s.ctx.ioBase = some base) : After s t (staged base off ws) := by
  induction ws generalizing k off s with
  | nil => cases h; exact .refl _
  | cons w rest ih =>
    obtain ⟨_, u, hu, hk⟩ := andThen_eq_ok.mp h
    have a := regWrite_after hu hb
    rw [staged_cons]
    exact a.trans (ih hk (by rw [a.ctx]; exact hb))

theorem fetchWords_scripted {k : StepIndex} {n off : Nat} {s t : State} {ws us rest : List Word} (h : fetchWords k off n s = .ok ws t)
    (hm : s.cfg.deviceMode = .abstr) (hl : us.length = n) (hs : s.script = us ++ rest) :
    ws = us ∧ t.script = rest ∧ t.draws = s.draws := by
  induction n generalizing k off s ws us with
  | zero =>
    cases h
    obtain rfl := List.length_eq_zero_iff.mp hl
    exact ⟨rfl, hs, rfl⟩
  | succ n ih =>
    obtain ⟨w, u, hu, hk⟩ := andThen_eq_ok.mp h
    obtain ⟨vs, x, hx, he⟩ := andThen_eq_ok.mp hk
    cases he
    cases us with
    | nil => cases hl
    | cons d us =>
      obtain ⟨rfl, h2, h3⟩ := regRead_scripted hu hm hs
      obtain ⟨rfl, h5, h6⟩ := ih hx (by rw [(regRead_carries hu).cfg]; exact hm) (by simpa using hl) h2
      exact ⟨rfl, h5, h6.trans h3⟩

theorem stageWords_script {k : StepIndex} {ws : List Word} {off : Nat} {s t : State} (h : stageWords k off ws s = .ok () t) :
    t.script = s.script ∧ (s.cfg.deviceMode = .abstr → t.draws = s.draws) := by
  induction ws generalizing k off s with
  | nil => cases h; exact ⟨rfl, fun _ => rfl⟩
  | cons w rest ih =>
    obtain ⟨_, u, hu, hk⟩ := andThen_eq_ok.mp h
    obtain ⟨h1, h2⟩ := regWrite_script hu
    obtain ⟨h3, h4⟩ := ih hk
    exact ⟨h3.trans h1, fun hm => (h4 (by rw [(regWrite_carries hu).cfg]; exact hm)).trans (h2 hm)⟩

/-- A quiet copy of receive-window words completes. -/
theorem fetchWords_completes {k : StepIndex} {n off : Nat} {s : State} {base : Word} (hb : s.ctx.ioBase = some base) (hq : Quiet s)
    (hr : ∀ k < n, ∃ r, mapRead (off + 8 * k) = .at r) : ∃ ws t, fetchWords k off n s = .ok ws t := by
  induction n generalizing k off s with
  | zero => exact ⟨_, _, rfl⟩
  | succ n ih =>
    obtain ⟨r, h0⟩ := hr 0 (by omega)
    obtain ⟨v, t, ht⟩ := regRead_completes hb (by simpa using h0) hq
    have a := regRead_after ht hb
    obtain ⟨ws, u, hu⟩ := ih (off := off + 8) (s := t) (by rw [a.ctx]; exact hb) (a.quiet hq) fun k hk => by
      obtain ⟨r, h⟩ := hr (k + 1) (by omega)
      exact ⟨r, by rw [← h]; congr 1; omega⟩
    exact ⟨v :: ws, u, by rw [fetchWords, ht, andThen_ok, hu, andThen_ok]⟩

/-! ## The resolver -/

/-- Everything a completed resolution is. -/
theorem resolveMac_cases {index : Nat → StepIndex} {s t : State} {m : Vector Byte 6} (h : resolveMac index s = .ok m t) :
    ∃ maclo machi s1 s2 s3, s.ctx.probed = true ∧ regRead (index 1) offMaclo s = .ok maclo s1 ∧
      regRead (index 2) offMachi s1 = .ok machi s2 ∧
      regWrite (index 5) offMachi (writebackValue s.cfg.machiWriteback machi) s2 = .ok () s3 ∧ m = macOctets maclo machi ∧
      t = { s3 with ctx := { s.ctx with mac := some m } } := by
  unfold resolveMac at h
  split at h
  · next hp =>
    obtain ⟨maclo, s1, h1, h⟩ := andThen_eq_ok.mp h
    obtain ⟨machi, s2, h2, h⟩ := andThen_eq_ok.mp h
    obtain ⟨_, s3, h3, h⟩ := andThen_eq_ok.mp h
    cases h
    have c : s2.cfg = s.cfg := (regRead_carries h2).cfg.trans (regRead_carries h1).cfg
    have x : s3.ctx = s.ctx := (regWrite_ctx h3).trans ((regRead_ctx h2).trans (regRead_ctx h1))
    rw [c] at h3
    exact ⟨maclo, machi, s1, s2, s3, hp, h1, h2, h3, rfl, by rw [x]⟩
  · cases h

/-- The accesses of a completed resolution. -/
theorem resolveMac_bus {index : Nat → StepIndex} {s t : State} {m : Vector Byte 6} {base : Word}
    (h : resolveMac index s = .ok m t)
    (hb : s.ctx.ioBase = some base) :
    ∃ maclo machi u, m = macOctets maclo machi ∧ t = { u with ctx := { s.ctx with mac := some m } } ∧
      After s u [readAt base offMaclo maclo, readAt base offMachi machi,
        writeAt base offMachi (writebackValue s.cfg.machiWriteback machi)] := by
  obtain ⟨maclo, machi, s1, s2, s3, -, h1, h2, h3, hm, rfl⟩ := resolveMac_cases h
  have a := regRead_after h1 hb
  have hb1 : s1.ctx.ioBase = some base := by rw [a.ctx]; exact hb
  have b := regRead_after h2 hb1
  have hb2 : s2.ctx.ioBase = some base := by rw [b.ctx]; exact hb1
  exact ⟨maclo, machi, s3, hm, rfl, (a.trans b).trans (regWrite_after h3 hb2)⟩

/-! ## Receive -/

@[simp] theorem consumeSlot_atStep (k : StepIndex) (slot : Nat) (s : State) : consumeSlot slot (atStep k s) = consumeSlot slot s := by
  simp [consumeSlot]

/-- Steps 3 to 6c, every way they complete: the reads they make, in order, and the result with its trace record. -/
theorem consumeSlot_cases {slot : Nat} {s t : State} {result : Result} {base : Word}
    (h : consumeSlot slot s = .ok result t) (hb : s.ctx.ioBase = some base) :
    ∃ u rbad, ((slotUsable rbad slot = false ∧ After s u [readAt base offRbad rbad] ∧ result = .noFrame ∧
        t = record .ringSlotError (.slot slot) u) ∨
      (slotUsable rbad slot = true ∧ ∃ rplr, (let len := payloadLength s.cfg.rplrLengthMask rplr
        (len < 14 ∧ After s u [readAt base offRbad rbad, readAt base (rplrOffset slot) rplr] ∧ result = .noFrame ∧
          t = record .undersizeFrame (.slot slot) u) ∨
        (14 ≤ len ∧ 1536 < len ∧ After s u [readAt base offRbad rbad, readAt base (rplrOffset slot) rplr] ∧
          result = .noFrame ∧ t = record .oversizeFrame (.slot slot) u) ∨
        (14 ≤ len ∧ len ≤ 1536 ∧ ∃ w, ((classifyType (etherTypeOf w)).drops = true ∧
            After s u [readAt base offRbad rbad, readAt base (rplrOffset slot) rplr, readAt base (rxbuffOffset slot + 8) w] ∧
            result = .noFrame ∧ t = record (.unsupportedProtocol (classifyType (etherTypeOf w))) (.slot slot) u) ∨
          ((classifyType (etherTypeOf w)).drops = false ∧ ∃ ws, ws.length = wordCount len.toNat ∧
            After s u ([readAt base offRbad rbad, readAt base (rplrOffset slot) rplr, readAt base (rxbuffOffset slot + 8) w] ++
              fetched base (rxbuffOffset slot) ws) ∧
            result = .frame (ws.flatMap unpackWord) len.toNat ∧ t = u))))) := by
  obtain ⟨rbad, s1, h1, h⟩ := andThen_eq_ok.mp h
  have a := regRead_after h1 hb
  have hb1 : s1.ctx.ioBase = some base := by rw [a.ctx]; exact hb
  split at h
  · next hu =>
    obtain ⟨rplr, s2, h2, h⟩ := andThen_eq_ok.mp h
    have b := a.trans (regRead_after h2 hb1)
    have hb2 : s2.ctx.ioBase = some base := by rw [b.ctx]; exact hb
    simp only [validateLength, b.cfg, minFrame, maxPacket] at h
    split at h
    · next hlt =>
      cases h
      exact ⟨_, rbad, .inr ⟨hu, rplr, .inl ⟨hlt, b.toStep _, rfl, rfl⟩⟩⟩
    · next hge =>
      split at h
      · next hgt =>
        cases h
        exact ⟨_, rbad, .inr ⟨hu, rplr, .inr (.inl ⟨by simpa using hge, by simpa using hgt, b.toStep _, rfl, rfl⟩)⟩⟩
      · next hle =>
        obtain ⟨w, s3, h3, h⟩ := andThen_eq_ok.mp h
        rw [regRead_atStep] at h3
        have c := (b.trans (regRead_after h3 hb2)).toStep (stepPart 6 .b)
        have hb3 : (atStep (stepPart 6 .b) s3).ctx.ioBase = some base := by rw [c.ctx]; exact hb
        have hge : 14 ≤ payloadLength s.cfg.rplrLengthMask rplr := by simpa using hge
        have hle : payloadLength s.cfg.rplrLengthMask rplr ≤ 1536 := by simpa using hle
        unfold dispatchClass at h
        split at h
        · next hd =>
          cases h
          exact ⟨_, rbad, .inr ⟨hu, rplr, .inr (.inr ⟨hge, hle, w, .inl ⟨hd, c, rfl, rfl⟩⟩)⟩⟩
        · next hd =>
          obtain ⟨ws, s4, h4, h⟩ := andThen_eq_ok.mp h
          obtain ⟨hl, d⟩ := fetchWords_after h4 hb3
          cases h
          exact ⟨t, rbad, .inr ⟨hu, rplr, .inr (.inr ⟨hge, hle, w, .inr ⟨by simpa using hd, ws, hl, c.trans d, rfl, rfl⟩⟩)⟩⟩
  · next hu =>
    cases h
    exact ⟨s1, rbad, .inl ⟨by simpa using hu, a, rfl, rfl⟩⟩

/-- Everything a completed `try_receive` is. -/
theorem recvBody_cases {s t : State} {result : Result} (h : recvBody s = .ok result t) :
    s.ctx.started = true ∧ ∃ rsr s1, regRead (stepNo 1) offRsr s = .ok rsr s1 ∧
      ((rsrDone rsr = false ∧ result = .noFrame ∧ t = s1) ∨
       (rsrDone rsr = true ∧ slotOf rsr < s.cfg.ringDepth ∧
         ∃ s2, consumeSlot (slotOf rsr) s1 = .ok result s2 ∧
           regWrite (stepNo 7) offRsr (ackValue (slotOf rsr)) s2 = .ok () t)) := by
  unfold recvBody at h
  split at h
  · next hs =>
    obtain ⟨rsr, s1, h1, h⟩ := andThen_eq_ok.mp h
    refine ⟨hs, rsr, s1, h1, ?_⟩
    split at h
    · next hd =>
      unfold receiveSlot at h
      rw [atStep_cfg, (regRead_carries h1).cfg, consumeSlot_atStep] at h
      split at h
      · cases h
      · next hr =>
        obtain ⟨r, s2, h2, h⟩ := andThen_eq_ok.mp h
        obtain ⟨_, s3, h3, h⟩ := andThen_eq_ok.mp h
        cases h
        exact .inr ⟨hd, by omega, s2, h2, h3⟩
    · next hd => cases h; exact .inl ⟨by simpa using hd, rfl, rfl⟩
  · cases h

/-! ## Transmit -/

/-- Everything a completed wait is: polls only. -/
theorem waitIdle_after {step : StepIndex} {k : Nat} {s t : State} {idle : Bool} {base : Word}
    (h : waitIdle step k s = .ok idle t)
    (hb : s.ctx.ioBase = some base) :
    ∃ polls : List Word, polls.length ≤ k ∧ After s t (polls.map (readAt base offTplr)) := by
  induction k generalizing step s with
  | zero => cases h; exact ⟨[], Nat.le_refl _, .refl _⟩
  | succ k ih =>
    obtain ⟨v, u, hu, hk⟩ := andThen_eq_ok.mp h
    have a := regRead_after hu hb
    split at hk
    · cases hk
      exact ⟨[v], by simp, a⟩
    · obtain ⟨polls, hl, b⟩ := ih hk (by rw [a.ctx]; exact hb)
      exact ⟨v :: polls, by simpa using hl, a.trans b⟩

/-- Everything a completed transmission is: the TFCS reset, the staged words, the trigger. -/
theorem transmitFrame_after {frame : List Byte} {n : Nat} {s t : State} {base : Word}
    (h : transmitFrame frame n s = .ok () t) (hb : s.ctx.ioBase = some base) :
    ∃ seed, After s t ([writeAt base offTfcs 0] ++ staged base offTxbuff (stagingWords frame seed n) ++
      [writeAt base offTplr (BitVec.ofNat 64 n)]) := by
  obtain ⟨_, s1, h1, h⟩ := andThen_eq_ok.mp h
  obtain ⟨_, s2, h2, h3⟩ := andThen_eq_ok.mp h
  have a := regWrite_after h1 hb
  have seedStep : After s1 { s1 with draws := s1.draws + 1 } [] :=
    ⟨(List.append_nil _).symm, rfl, rfl, rfl, rfl, rfl, rfl, rfl, fun _ => rfl⟩
  have hb1 : s1.ctx.ioBase = some base := by rw [a.ctx]; exact hb
  have b := stageWords_after h2 hb1
  have hb2 : s2.ctx.ioBase = some base := by rw [b.ctx]; exact hb1
  have c := regWrite_after h3 hb2
  exact ⟨s1.draws, by simpa using (a.trans (seedStep.trans b)).trans c⟩

@[simp] theorem stagingWords_length (frame : List Byte) (seed n : Nat) : (stagingWords frame seed n).length = wordCount n := by
  simp [stagingWords]

end Sys2Proof.Machine
end

