-- ==== Sys2Proof/Laws/Requests.lean ====
section
/-! SUPPORT. What the bus-request instructions do, and what each operation does, as a whole. -/

namespace Sys2Proof.Machine

open Sys2Proof

/-- A bus-read row is one read at its offset, which selects its register. -/
theorem readRow_exec {i : Instr} {off : Nat} {r : ReadReg} {via : Via} (h : readRow i = some (off, r, via)) (s : State) :
    exec i s = busRead off via s ∧ mapRead off = .at r := by
  cases i <;> simp [readRow] at h <;> obtain ⟨rfl, rfl, rfl⟩ := h <;>
    first
    | exact ⟨rfl, by decide⟩
    | exact ⟨rfl, by rw [mapRead_rplr _ (BitVec.isLt _)]; simp⟩
    | exact ⟨rfl, by rw [mapRead_rxbuff _ _ (BitVec.isLt _) (BitVec.isLt _)]; simp⟩

/-- A bus-write row is one write at its offset, which selects its register and lies below the receive window. -/
theorem writeRow_exec {i : Instr} {off : Nat} {r : WriteReg} {v : Word} (h : writeRow i = some (off, r, v)) (s : State) :
    exec i s = busWrite off v .control s ∧ mapWrite off = .at r ∧ off < 0x4000 := by
  cases i <;> simp [writeRow] at h <;> obtain ⟨rfl, rfl, rfl⟩ := h <;>
    first
    | exact ⟨rfl, by decide, by decide⟩
    | exact ⟨rfl, by rw [mapWrite_txbuff _ (BitVec.isLt _)]; simp, by have := BitVec.isLt (by assumption : BitVec 8); omega⟩

theorem regRead_misaligned {k : StepIndex} {off : Nat} {s : State} {base : Word} (hb : s.ctx.ioBase = some base)
    (h : off % 8 ≠ 0) : regRead k off s = .stop (.misaligned off) := by
  simp [regRead, withBase, hb, mapRead, h, mapFault]

theorem regWrite_misaligned {k : StepIndex} {off : Nat} {s : State} {base v : Word} (hb : s.ctx.ioBase = some base)
    (h : off % 8 ≠ 0) : regWrite k off v s = .stop (.misaligned off) := by
  simp [regWrite, withBase, hb, mapWrite, h, mapFault]

theorem diagRejects_bare {off : Nat} {s : State} (h : s.cfg.diagBuild = false ∨ off < 0x4000) : diagRejects off s = false := by
  unfold diagRejects offRxbuff
  rcases h with h | h
  · simp [h]
  · simp; intro _ _; omega

/-- The accessor is the bare read, but where the diagnostic build rejects it. -/
theorem readVia_bare {via : Via} {off : Nat} {s : State} {base : Word} (hb : s.ctx.ioBase = some base)
    (h : s.cfg.diagBuild = false ∨ off < 0x4000 ∨ via = .copy) : readVia via off s = regRead (stepNo 3) off s := by
  cases via with
  | copy => rfl
  | control =>
    have hd : diagRejects off (atStep (stepNo 2) s) = false := diagRejects_bare (by simpa using h)
    by_cases ha : off % 8 = 0
    · simp [readVia, accessRead, checkedRead, withBase, hb, ha, hd]
    · rw [regRead_misaligned hb ha]
      simp [readVia, accessRead, withBase, hb, ha]

/-- The accessor is the bare write, but where the diagnostic build rejects it. -/
theorem writeVia_bare {via : Via} {off : Nat} {s : State} {base v : Word} (hb : s.ctx.ioBase = some base)
    (h : s.cfg.diagBuild = false ∨ off < 0x4000 ∨ via = .copy) : writeVia via off v s = regWrite (stepNo 3) off v s := by
  cases via with
  | copy => rfl
  | control =>
    have hd : diagRejects off (atStep (stepNo 2) s) = false := diagRejects_bare (by simpa using h)
    by_cases ha : off % 8 = 0
    · simp [writeVia, accessWrite, checkedWrite, withBase, hb, ha, hd]
    · rw [regWrite_misaligned hb ha]
      simp [writeVia, accessWrite, withBase, hb, ha]

/-- The state in which an operation's body starts. -/
def entered (op : Op) (s : State) : State := { s with position := .running op (stepNo 0) }

@[simp] theorem entered_cfg (op : Op) (s : State) : (entered op s).cfg = s.cfg := rfl
@[simp] theorem entered_ctx (op : Op) (s : State) : (entered op s).ctx = s.ctx := rfl
@[simp] theorem entered_dev (op : Op) (s : State) : (entered op s).dev = s.dev := rfl
@[simp] theorem entered_script (op : Op) (s : State) : (entered op s).script = s.script := rfl
@[simp] theorem entered_draws (op : Op) (s : State) : (entered op s).draws = s.draws := rfl
@[simp] theorem entered_schedule (op : Op) (s : State) : (entered op s).schedule = s.schedule := rfl
@[simp] theorem entered_agenda (op : Op) (s : State) : (entered op s).agenda = s.agenda := rfl
@[simp] theorem entered_trace (op : Op) (s : State) : (entered op s).trace = s.trace := rfl
@[simp] theorem entered_bus (op : Op) (s : State) : (entered op s).bus = s.bus := rfl
@[simp] theorem entered_returned (op : Op) (s : State) : (entered op s).returned = s.returned := rfl
@[simp] theorem entered_currentOp (op : Op) (s : State) : currentOp (entered op s) = op := rfl

/-- What a run of an operation is, by its body's answer. -/
theorem runOp_ok {op : Op} {body : State → Answer Result} {s t : State} {r : Result} (h : body (entered op s) = .ok r t) :
    runOp op body s = .next (returnTo s.position r t) := by
  unfold entered at h
  unfold runOp
  rw [h]

theorem runOp_stop {op : Op} {body : State → Answer Result} {s : State} {f : Fault} (h : body (entered op s) = .stop f) :
    runOp op body s = .fault f := by
  unfold entered at h
  unfold runOp
  rw [h]

theorem hostCall_idle {op : Op} {body : State → Answer Result} {s : State} (h : s.position = .idle) :
    hostCall op body s = runOp op body s := by
  unfold hostCall
  rw [h]

/-- The others' turn does not depend on the operation in progress. -/
theorem afterOthers_entered (op : Op) (s : State) : afterOthers (entered op s) = entered op (afterOthers s) :=
  afterOthers_position s _

/-- The state in which a bus request of its own meets the DEVICE: at step 3 of the accessor, after the others' turn. -/
def atAccess (s : State) : State := atStep (stepNo 3) (entered .access (afterOthers s))

@[simp] theorem atAccess_cfg (s : State) : (atAccess s).cfg = (afterOthers s).cfg := rfl
@[simp] theorem atAccess_ctx (s : State) : (atAccess s).ctx = (afterOthers s).ctx := rfl
@[simp] theorem atAccess_dev (s : State) : (atAccess s).dev = (afterOthers s).dev := rfl
@[simp] theorem atAccess_script (s : State) : (atAccess s).script = (afterOthers s).script := rfl
@[simp] theorem atAccess_draws (s : State) : (atAccess s).draws = (afterOthers s).draws := rfl
@[simp] theorem atAccess_schedule (s : State) : (atAccess s).schedule = (afterOthers s).schedule := rfl
@[simp] theorem atAccess_agenda (s : State) : (atAccess s).agenda = (afterOthers s).agenda := rfl
@[simp] theorem atAccess_trace (s : State) : (atAccess s).trace = (afterOthers s).trace := rfl
@[simp] theorem atAccess_bus (s : State) : (atAccess s).bus = (afterOthers s).bus := rfl
@[simp] theorem atAccess_returned (s : State) : (atAccess s).returned = (afterOthers s).returned := rfl

/-- A quiet bus read as an instruction of its own. -/
theorem busRead_next {off : Nat} {via : Via} {s : State} {base : Word} {r : ReadReg} (hb : s.ctx.ioBase = some base)
    (hr : mapRead off = .at r) (hq : Quiet s) (h : s.cfg.diagBuild = false ∨ off < 0x4000 ∨ via = .copy) :
    busRead off via s = .next (returnTo s.position (.value (deviceRead r (atAccess s)).1)
      (logAccess (readAt base off (deviceRead r (atAccess s)).1) (deviceRead r (atAccess s)).2)) := by
  refine runOp_ok ?_
  rw [readVia_bare (s := atStep _ (entered .access s)) (base := base) hb h, regRead_atStep,
    regRead_quiet (s := entered .access s) (base := base) hb hr hq, afterOthers_entered]
  rfl

/-- A quiet bus write as an instruction of its own, if the DEVICE takes it. -/
theorem busWrite_next {off : Nat} {via : Via} {s w : State} {base v : Word} {r : WriteReg} (hb : s.ctx.ioBase = some base)
    (hr : mapWrite off = .at r) (hq : Quiet s) (h : s.cfg.diagBuild = false ∨ off < 0x4000 ∨ via = .copy)
    (hw : deviceWrite r v (atAccess s) = .ok () w) :
    busWrite off v via s = .next (returnTo s.position .unit (logAccess (writeAt base off v) w)) := by
  refine runOp_ok ?_
  rw [writeVia_bare (s := atStep _ (entered .access s)) (base := base) hb h, regWrite_atStep,
    regWrite_quiet (s := entered .access s) (base := base) hb hr hq, afterOthers_entered, performWrite]
  rw [show atStep (stepNo 3) (entered .access (afterOthers s)) = atAccess s from rfl, hw]
  rfl

/-- A quiet bus write that the DEVICE refuses. -/
theorem busWrite_fault {off : Nat} {via : Via} {s : State} {base v : Word} {r : WriteReg} {f : Fault}
    (hb : s.ctx.ioBase = some base) (hr : mapWrite off = .at r) (hq : Quiet s)
    (h : s.cfg.diagBuild = false ∨ off < 0x4000 ∨ via = .copy) (hw : deviceWrite r v (atAccess s) = .stop f) :
    busWrite off v via s = .fault f := by
  refine runOp_stop ?_
  rw [writeVia_bare (s := atStep _ (entered .access s)) (base := base) hb h, regWrite_atStep,
    regWrite_quiet (s := entered .access s) (base := base) hb hr hq, afterOthers_entered, performWrite]
  rw [show atStep (stepNo 3) (entered .access (afterOthers s)) = atAccess s from rfl, hw]
  rfl

/-! ## Every completed instruction -/

theorem sendBody_carries {frame : List Byte} {length : Nat} {s t : State} {r : Result} (h : sendBody frame length s = .ok r t) :
    Carries s t ∧ t.ctx = s.ctx ∧ s.ctx.started = true := by
  have wait : ∀ (k : Nat) (j : StepIndex) (u v : State) (b : Bool), waitIdle j k u = .ok b v →
      Carries u v ∧ v.ctx = u.ctx := by
    intro k
    induction k with
    | zero => intro j u v b hk; cases hk; exact ⟨.refl _, rfl⟩
    | succ k ih =>
      intro j u v b hk
      obtain ⟨x, w, hw, hk⟩ := andThen_eq_ok.mp hk
      split at hk
      · cases hk; exact ⟨regRead_carries hw, regRead_ctx hw⟩
      · obtain ⟨c, e⟩ := ih j.nextItem w v b hk
        exact ⟨(regRead_carries hw).trans c, e.trans (regRead_ctx hw)⟩
  have oversize : Carries s (atStep (stepNo 3) (recordOversize length (atStep (stepNo 1) s))) ∧
      (atStep (stepNo 3) (recordOversize length (atStep (stepNo 1) s))).ctx = s.ctx := by
    unfold recordOversize
    split
    · exact ⟨((atStep_carries _ s).trans (record_carries _ _ _)).trans (atStep_carries _ _), rfl⟩
    · exact ⟨(atStep_carries _ s).trans (atStep_carries _ _), rfl⟩
  unfold sendBody at h
  split at h
  · next hs =>
    obtain ⟨idle, u, hu, h⟩ := andThen_eq_ok.mp h
    have cu : Carries s u ∧ u.ctx = s.ctx := by
      unfold waitStep at hu
      split at hu
      · obtain ⟨c, e⟩ := wait _ _ _ _ _ hu
        exact ⟨oversize.1.trans c, e.trans oversize.2⟩
      · cases hu; exact oversize
    split at h
    · obtain ⟨_, v, hv, h⟩ := andThen_eq_ok.mp h
      cases h
      obtain ⟨_, a, ha, hv⟩ := andThen_eq_ok.mp hv
      obtain ⟨_, b, hb, hv⟩ := andThen_eq_ok.mp hv
      have seed : Carries a { a with draws := a.draws + 1 } :=
        ⟨rfl, rfl, rfl, rfl, List.prefix_refl _, List.prefix_refl _, id, id⟩
      obtain ⟨cb, eb⟩ := stageWords_carries hb
      exact ⟨((cu.1.trans (regWrite_carries ha)).trans (seed.trans cb)).trans (regWrite_carries hv),
        (regWrite_ctx hv).trans (eb.trans ((regWrite_ctx ha).trans cu.2)), hs⟩
    · cases h
      exact ⟨cu.1.trans (record_carries _ _ u), cu.2, hs⟩
  · cases h

theorem dropFrame_carries {reason : ErrorKind} {slot : Nat} {s t : State} {r : Result} (h : dropFrame reason slot s = .ok r t) :
    Carries s t ∧ t.ctx = s.ctx := by
  cases h
  exact ⟨record_carries _ _ s, rfl⟩

theorem dispatchFrame_carries {slot len : Nat} {s t : State} {r : Result} (h : dispatchFrame slot len s = .ok r t) :
    Carries s t ∧ t.ctx = s.ctx := by
  obtain ⟨w, u, hu, h⟩ := andThen_eq_ok.mp h
  have c := (regRead_carries hu).trans (atStep_carries (stepPart 6 .b) u)
  have e := regRead_ctx hu
  unfold dispatchClass at h
  split at h
  · obtain ⟨c2, e2⟩ := dropFrame_carries h
    exact ⟨c.trans c2, e2.trans e⟩
  · obtain ⟨ws, x, hx, h⟩ := andThen_eq_ok.mp h
    obtain ⟨c2, e2, -⟩ := fetchWords_carries hx
    cases h
    exact ⟨c.trans c2, e2.trans e⟩

theorem consumeSlot_carries {slot : Nat} {s t : State} {r : Result} (h : consumeSlot slot s = .ok r t) :
    Carries s t ∧ t.ctx = s.ctx := by
  obtain ⟨rbad, s1, h1, h⟩ := andThen_eq_ok.mp h
  have c1 := regRead_carries h1
  have e1 := regRead_ctx h1
  split at h
  · obtain ⟨rplr, s2, h2, h⟩ := andThen_eq_ok.mp h
    have c2 := (c1.trans (regRead_carries h2)).trans (atStep_carries (stepNo 5) s2)
    have e2 := (regRead_ctx h2).trans e1
    have rest : Carries (atStep (stepNo 5) s2) t ∧ t.ctx = s2.ctx := by
      unfold validateLength at h
      split at h
      · exact dropFrame_carries h
      · split at h
        · exact dropFrame_carries h
        · exact dispatchFrame_carries h
    exact ⟨c2.trans rest.1, rest.2.trans e2⟩
  · obtain ⟨c2, e2⟩ := dropFrame_carries h
    exact ⟨c1.trans c2, e2.trans e1⟩

theorem recvBody_carries {s t : State} {r : Result} (h : recvBody s = .ok r t) :
    Carries s t ∧ t.ctx = s.ctx ∧ s.ctx.started = true := by
  obtain ⟨hs, rsr, s1, h1, ⟨-, -, rfl⟩ | ⟨-, -, s2, h2, h3⟩⟩ := recvBody_cases h
  · exact ⟨regRead_carries h1, regRead_ctx h1, hs⟩
  · obtain ⟨c2, e2⟩ := consumeSlot_carries h2
    exact ⟨((regRead_carries h1).trans c2).trans (regWrite_carries h3), (regWrite_ctx h3).trans (e2.trans (regRead_ctx h1)), hs⟩

/-- The fields a resolution carries along, the Device Context aside. -/
theorem resolveMac_carries {index : Nat → StepIndex} {s t : State} {m : Vector Byte 6} (h : resolveMac index s = .ok m t) :
    Carries s t ∧ t.ctx = { s.ctx with mac := some m } ∧ s.ctx.probed = true := by
  obtain ⟨maclo, machi, s1, s2, s3, hp, h1, h2, h3, -, rfl⟩ := resolveMac_cases h
  have c := ((regRead_carries h1).trans (regRead_carries h2)).trans (regWrite_carries h3)
  exact ⟨⟨c.cfg, c.agenda, c.returned, c.op, c.bus, c.trace, c.device, c.depth⟩, rfl, hp⟩

/-- A resolution does not depend on the decision points passed before it. -/
@[simp] theorem resolveMac_atStep (index : Nat → StepIndex) (k : StepIndex) (s : State) :
    resolveMac index (atStep k s) = resolveMac index s := by
  simp [resolveMac]

/-- Everything a completed `start` is. -/
theorem startBody_cases {s t : State} {r : Result} (h : startBody s = .ok r t) :
    ∃ m s1 s2, resolveMac (innerStep 1) s = .ok m s1 ∧
      regWrite (stepNo 2) offRfcs (BitVec.ofNat 64 s.cfg.ringDepth) s1 = .ok () s2 ∧ r = .unit ∧
      t = { s2 with ctx := { s.ctx with mac := some m, started := true } } := by
  unfold startBody at h
  split at h
  · obtain ⟨m, s1, h1, h⟩ := andThen_eq_ok.mp h
    obtain ⟨_, s2, h2, h⟩ := andThen_eq_ok.mp h
    rw [resolveMac_atStep] at h1
    cases h
    obtain ⟨c, e, -⟩ := resolveMac_carries h1
    rw [c.cfg] at h2
    exact ⟨m, s1, s2, h1, h2, rfl, by rw [regWrite_ctx h2, e]⟩
  · cases h

end Sys2Proof.Machine
end

