-- ==== Sys2Proof/Laws/Landing.lean ====
section
/-! SUPPORT. What more moves at the end of the schedule change: nothing for an operation whose accesses are used up before them,
and a fault where a HOST invocation lands before an access (60_exceptions.md rule R297). -/

namespace Sys2Proof.Machine

open Sys2Proof

/-- The state with more moves to come. -/
def later (more : List (List Move)) (s : State) : State := { s with schedule := s.schedule ++ more }

/-- The moves before an access that a HOST invocation of `op` ends. -/
def landing (ds : List DeviceMove) (op : Op) (more : List Move) : List Move := ds.map Move.device ++ .invoke op :: more

/-- `body` completes from `s` to `t` with `n` accesses, and from the state with more moves to come in the same way, or, if a HOST
invocation lands before one of the accesses, faults. -/
structure Lands {α : Type} (body : State → Answer α) (s : State) (a : α) (t : State) (n : Nat) : Prop where
  bus       : t.bus.length = s.bus.length + n
  schedule  : t.schedule = s.schedule.drop n
  op        : currentOp t = currentOp s
  completes : ∀ more, n ≤ s.schedule.length → body (later more s) = .ok a (later more t)
  faults    : ∀ ds op more rest, s.schedule.length < n →
    body (later (landing ds op more :: rest) s) = .stop (.concurrent (currentOp s) op)

/-- A part that makes no access lands nothing. -/
theorem Lands.free {α : Type} {body : State → Answer α} {s t : State} {a : α} (bus : t.bus = s.bus)
    (schedule : t.schedule = s.schedule) (op : currentOp t = currentOp s)
    (completes : ∀ more, body (later more s) = .ok a (later more t)) : Lands body s a t 0 :=
  ⟨by rw [bus, Nat.add_zero], by rw [schedule, List.drop_zero], op, fun more _ => completes more, fun _ _ _ _ h => by omega⟩

/-- What a body lands depends only on what it does from the states with more moves to come. -/
theorem Lands.congr {α : Type} {f g : State → Answer α} {s t : State} {a : α} {n : Nat} (h : Lands f s a t n)
    (e : ∀ more, g (later more s) = f (later more s)) : Lands g s a t n :=
  ⟨h.bus, h.schedule, h.op, fun more hl => (e more).trans (h.completes more hl), fun ds op more rest hl =>
    (e _).trans (h.faults ds op more rest hl)⟩

/-- A sequence lands what its parts land. -/
theorem Lands.andThen {α β : Type} {x : State → Answer α} {f : α → State → Answer β} {s t u : State} {a : α} {b : β} {m n : Nat}
    (h : Lands x s a t m) (k : Lands (f a) t b u n) : Lands (fun s => (x s).andThen f) s b u (m + n) := by
  have hl : t.schedule.length = s.schedule.length - m := by rw [h.schedule, List.length_drop]
  refine ⟨by rw [k.bus, h.bus]; omega, by rw [k.schedule, h.schedule, List.drop_drop], k.op.trans h.op, ?_, ?_⟩
  · intro more hle
    simp only [h.completes more (by omega), andThen_ok]
    exact k.completes more (by omega)
  · intro ds op more rest hlt
    by_cases hm : s.schedule.length < m
    · simp only [h.faults ds op more rest hm, andThen_stop]
    · simp only [h.completes _ (Nat.le_of_not_lt hm), andThen_ok]
      rw [k.faults ds op more rest (by omega), h.op]

/-- A part that begins by coming to a step lands what the rest lands. -/
theorem Lands.ofStep {α : Type} {body : State → Answer α} {s t : State} {a : α} {n : Nat} {k : StepIndex}
    (h : Lands body (atStep k s) a t n) : Lands (fun s => body (atStep k s)) s a t n :=
  ⟨h.bus, h.schedule, h.op.trans (currentOp_atStep k s), h.completes, fun ds op more rest hl => by
    have := h.faults ds op more rest hl
    rw [currentOp_atStep] at this
    exact this⟩

theorem otherMoves_later {ms : List Move} {s t : State} (more : List (List Move)) (h : otherMoves ms s = .ok () t) :
    otherMoves ms (later more s) = .ok () (later more t) := by
  induction ms generalizing s with
  | nil => cases h; rfl
  | cons m rest ih =>
    cases m with
    | device d =>
      have e : deviceMove d (later more s) = later more (deviceMove d s) := by
        simp only [deviceMove, later]
        cases s.cfg.deviceMode <;> rfl
      rw [otherMoves, e]
      exact ih h
    | invoke op => cases h

theorem otherMoves_landing (ds : List DeviceMove) (op : Op) (more : List Move) (s : State) :
    otherMoves (landing ds op more) s = .stop (.concurrent (currentOp s) op) := by
  induction ds generalizing s with
  | nil => rfl
  | cons d rest ih =>
    simp only [landing, List.map_cons, List.cons_append, otherMoves]
    rw [show currentOp s = currentOp (deviceMove d s) from ((deviceMove_carries d s).op).symm]
    exact ih (deviceMove d s)

/-- The others' turn before an access. -/
theorem othersTurn_lands {s t : State} (h : othersTurn s = .ok () t) :
    (∀ more, 1 ≤ s.schedule.length → othersTurn (later more s) = .ok () (later more t)) ∧
    (∀ ds op more rest, s.schedule.length < 1 →
      othersTurn (later (landing ds op more :: rest) s) = .stop (.concurrent (currentOp s) op)) := by
  refine ⟨fun more hl => ?_, fun ds op more rest hl => ?_⟩
  · cases hs : s.schedule with
    | nil => rw [hs] at hl; cases hl
    | cons ms rest =>
      simp only [othersTurn, hs] at h
      simp only [othersTurn, later, hs, List.cons_append]
      exact otherMoves_later more h
  · have hs : s.schedule = [] := List.length_eq_zero_iff.mp (by omega)
    simp only [othersTurn, later, hs, List.nil_append]
    exact otherMoves_landing ds op more _

theorem deviceRead_later (r : ReadReg) (more : List (List Move)) (s : State) :
    (deviceRead r (later more s)).1 = (deviceRead r s).1 ∧
      (deviceRead r (later more s)).2 = later more (deviceRead r s).2 := by
  unfold deviceRead later
  cases s.cfg.deviceMode
  · by_cases hr : r = .rsr
    · simp only [hr, if_true, drawRsr]
      cases s.script <;> exact ⟨rfl, rfl⟩
    · simp only [hr, if_false, drawWord]
      cases s.script <;> exact ⟨rfl, rfl⟩
  · cases r <;> simp only [referenceRead, drawWord] <;> cases s.script <;> refine ⟨?_, ?_⟩ <;> first | rfl | trivial

theorem deviceWrite_later {r : WriteReg} {v : Word} {s t : State} (more : List (List Move)) (h : deviceWrite r v s = .ok () t) :
    deviceWrite r v (later more s) = .ok () (later more t) := by
  unfold deviceWrite at h ⊢
  simp only [later]
  cases hm : s.cfg.deviceMode with
  | abstr => rw [hm] at h; cases h; rfl
  | reference =>
    rw [hm] at h
    cases r <;> simp only [referenceWrite, unlessBusy] at h ⊢ <;> (try split at h) <;> cases h <;> simp [*]

/-- One access. -/
theorem regRead_lands {k : StepIndex} {off : Nat} {s t : State} {v : Word} (h : regRead k off s = .ok v t) :
    Lands (regRead k off) s v t 1 := by
  obtain ⟨base, r, u, hb, hr, hu, hv, ht⟩ := regRead_cases h
  have a := regRead_after h hb
  obtain ⟨c, f⟩ := othersTurn_lands hu
  refine ⟨by rw [a.bus]; simp, by rw [a.schedule]; rfl, a.op, fun more hl => ?_, fun ds op more rest hl => ?_⟩
  · have hb' : (later more s).ctx.ioBase = some base := hb
    simp only [regRead, withBase, hb', hr]
    rw [show atStep k (later more s) = later more (atStep k s) from rfl, c more hl, andThen_ok, performRead,
      (deviceRead_later r more u).1, (deviceRead_later r more u).2, ← hv, ht]
    rfl
  · have hb' : (later (landing ds op more :: rest) s).ctx.ioBase = some base := hb
    simp only [regRead, withBase, hb', hr]
    rw [show atStep k (later (landing ds op more :: rest) s) = later (landing ds op more :: rest) (atStep k s) from rfl,
      f ds op more rest hl, andThen_stop, currentOp_atStep]

theorem regWrite_lands {k : StepIndex} {off : Nat} {s t : State} {v : Word} (h : regWrite k off v s = .ok () t) :
    Lands (regWrite k off v) s () t 1 := by
  obtain ⟨base, r, u, w, hb, hr, hu, hw, ht⟩ := regWrite_cases h
  have a := regWrite_after h hb
  obtain ⟨c, f⟩ := othersTurn_lands hu
  refine ⟨by rw [a.bus]; simp, by rw [a.schedule]; rfl, a.op, fun more hl => ?_, fun ds op more rest hl => ?_⟩
  · have hb' : (later more s).ctx.ioBase = some base := hb
    simp only [regWrite, withBase, hb', hr]
    rw [show atStep k (later more s) = later more (atStep k s) from rfl, c more hl, andThen_ok, performWrite,
      deviceWrite_later more hw, andThen_ok, ht]
    rfl
  · have hb' : (later (landing ds op more :: rest) s).ctx.ioBase = some base := hb
    simp only [regWrite, withBase, hb', hr]
    rw [show atStep k (later (landing ds op more :: rest) s) = later (landing ds op more :: rest) (atStep k s) from rfl,
      f ds op more rest hl, andThen_stop, currentOp_atStep]

/-- A copy of receive-window words. -/
theorem fetchWords_lands {n : Nat} {k : StepIndex} {off : Nat} {s t : State} {ws : List Word}
    (h : fetchWords k off n s = .ok ws t) : Lands (fetchWords k off n) s ws t n := by
  induction n generalizing k off s ws with
  | zero => cases h; exact .free rfl rfl rfl fun _ => rfl
  | succ n ih =>
    obtain ⟨w, u, hu, hk⟩ := andThen_eq_ok.mp h
    obtain ⟨vs, x, hx, he⟩ := andThen_eq_ok.mp hk
    cases he
    have last : Lands (fun s => Answer.ok (w :: vs) s) t (w :: vs) t 0 := .free rfl rfl rfl fun _ => rfl
    have := (regRead_lands hu).andThen (f := fun w s1 =>
      (fetchWords k.nextItem (off + 8) n s1).andThen fun ws s2 => .ok (w :: ws) s2) ((ih hx).andThen (f := fun ws s2 => .ok (w :: ws) s2) last)
    rw [show 1 + (n + 0) = n + 1 by omega] at this
    exact this

/-- A staging of words. -/
theorem stageWords_lands {ws : List Word} {k : StepIndex} {off : Nat} {s t : State} (h : stageWords k off ws s = .ok () t) :
    Lands (stageWords k off ws) s () t ws.length := by
  induction ws generalizing k off s with
  | nil => cases h; exact .free rfl rfl rfl fun _ => rfl
  | cons w rest ih =>
    obtain ⟨_, u, hu, hk⟩ := andThen_eq_ok.mp h
    have := (regWrite_lands hu).andThen (f := fun _ s1 => stageWords k.nextItem (off + 8) rest s1) (ih hk)
    rw [Nat.add_comm 1] at this
    exact this

/-- An operation whose body lands `n` accesses: a HOST invocation that lands before one of them ends it. -/
theorem runOp_lands {op : Op} {body : State → Answer Result} {s t : State} {qs : List (List Move)} {r : Result} {n : Nat}
    (h : Lands body (entered op { s with schedule := qs }) r t n) (hl : qs.length < n) (ds : List DeviceMove) (new : Op)
    (more : List Move) (rest : List (List Move)) :
    runOp op body { s with schedule := qs ++ landing ds new more :: rest } = .fault (.concurrent op new) :=
  runOp_stop (h.faults ds new more rest hl)

end Sys2Proof.Machine
end

