-- ==== Sys2Proof/Laws/PerInstr.lean ====
section
/-! SUPPORT. Per-instruction statements about the syntax: the encoder writes words of the instruction's own row of
spec/opcode_table.json (its match and mask columns). -/

namespace Sys2Proof.Laws.TableRow

open Sys2Proof

/-- The match and the mask of an instruction's row, an 8-bit row in the low byte. -/
def matchMask : Instr → BitVec 16 × BitVec 16
  | .probe _ _ => (0x01, 0xFF)
  | .start => (0x02, 0xFF)
  | .send _ _ => (0x03, 0xFF)
  | .recv => (0x04, 0xFF)
  | .stop => (0x05, 0xFF)
  | .hwaddr => (0x06, 0xFF)
  | .resolve => (0x80, 0xFF)
  | .classify _ => (0x81, 0xFF)
  | .init => (0x02, 0xFF)
  | .macloR => (0x0800, 0xFFFF)
  | .machiR => (0x0808, 0xFFFF)
  | .machiW _ => (0x8808, 0xFFFF)
  | .tplrR => (0x0810, 0xFFFF)
  | .tplrW _ => (0x8810, 0xFFFF)
  | .tfcsW _ => (0x8818, 0xFFFF)
  | .mdioctrlR => (0x0820, 0xFFFF)
  | .mdioctrlW _ => (0x8820, 0xFFFF)
  | .rfcsR => (0x0828, 0xFFFF)
  | .rfcsW _ => (0x8828, 0xFFFF)
  | .rsrR => (0x0830, 0xFFFF)
  | .rsrW _ => (0x8830, 0xFFFF)
  | .rbadR => (0x0838, 0xFFFF)
  | .rplrR _ => (0x0840, 0xFFC7)
  | .txbuffW _ _ => (0x9000, 0xF807)
  | .rxbuffR _ _ _ => (0x4000, 0xC007)
  | .classifyIPv4 => (0x0800, 0xFFFF)
  | .classifyARP => (0x0806, 0xFFFF)
  | .classifyIPv6 => (0x86DD, 0xFFFF)
  | .classifyUnknown _ => (0x0000, 0x0000)

/-- The word a request carries on its own layer (30_encoding.md rule R100). -/
def wordOf : Request → BitVec 16
  | .host code _ => code.setWidth 16
  | .internal code _ => code.setWidth 16
  | .bus q _ => q
  | .access dir off _ => busWord dir off
  | .ethertype e => e

/-- The encoder's word lies in the instruction's row. -/
def Statement (i : Instr) : Prop := wordOf (encode i) &&& (matchMask i).2 = (matchMask i).1

theorem probe (ioBase : Word) (phyAddr : Int) : Statement (.probe ioBase phyAddr) := by
  simp only [Statement, wordOf, encode, matchMask]
  decide

theorem start : Statement .start := by
  simp only [Statement, wordOf, encode, matchMask]
  decide

theorem send (frame : List Byte) (length : Nat) : Statement (.send frame length) := by
  simp only [Statement, wordOf, encode, matchMask]
  decide

theorem recv : Statement .recv := by
  simp only [Statement, wordOf, encode, matchMask]
  decide

theorem stop : Statement .stop := by
  simp only [Statement, wordOf, encode, matchMask]
  decide

theorem hwaddr : Statement .hwaddr := by
  simp only [Statement, wordOf, encode, matchMask]
  decide

theorem resolve : Statement .resolve := by
  simp only [Statement, wordOf, encode, matchMask]
  decide

theorem classify (etype : BitVec 16) : Statement (.classify etype) := by
  simp only [Statement, wordOf, encode, matchMask]
  decide

theorem init : Statement .init := by
  simp only [Statement, wordOf, encode, matchMask]
  decide

theorem macloR : Statement .macloR := by
  simp only [Statement, wordOf, encode, matchMask]
  decide

theorem machiR : Statement .machiR := by
  simp only [Statement, wordOf, encode, matchMask]
  decide

theorem machiW (v : Word) : Statement (.machiW v) := by
  simp only [Statement, wordOf, encode, matchMask]
  decide

theorem tplrR : Statement .tplrR := by
  simp only [Statement, wordOf, encode, matchMask]
  decide

theorem tplrW (v : Word) : Statement (.tplrW v) := by
  simp only [Statement, wordOf, encode, matchMask]
  decide

theorem tfcsW (v : Word) : Statement (.tfcsW v) := by
  simp only [Statement, wordOf, encode, matchMask]
  decide

theorem mdioctrlR : Statement .mdioctrlR := by
  simp only [Statement, wordOf, encode, matchMask]
  decide

theorem mdioctrlW (v : Word) : Statement (.mdioctrlW v) := by
  simp only [Statement, wordOf, encode, matchMask]
  decide

theorem rfcsR : Statement .rfcsR := by
  simp only [Statement, wordOf, encode, matchMask]
  decide

theorem rfcsW (v : Word) : Statement (.rfcsW v) := by
  simp only [Statement, wordOf, encode, matchMask]
  decide

theorem rsrR : Statement .rsrR := by
  simp only [Statement, wordOf, encode, matchMask]
  decide

theorem rsrW (v : Word) : Statement (.rsrW v) := by
  simp only [Statement, wordOf, encode, matchMask]
  decide

theorem rbadR : Statement .rbadR := by
  simp only [Statement, wordOf, encode, matchMask]
  decide

theorem rplrR (slot : BitVec 3) : Statement (.rplrR slot) := by
  revert slot; unfold Statement; decide

theorem txbuffW (index : BitVec 8) (v : Word) : Statement (.txbuffW index v) := by
  show (0b10010#5 ++ index ++ 0#3) &&& 0xF807#16 = 0x9000#16
  revert index; decide

/-- The value of two fields side by side. -/
theorem append_toNat {m n : Nat} (a : BitVec m) (b : BitVec n) : (a ++ b).toNat = a.toNat * 2 ^ n + b.toNat := by
  rw [BitVec.toNat_append, ← Nat.shiftLeft_add_eq_or_of_lt b.isLt, Nat.shiftLeft_eq]

/-- The bits of an RXBUFF word outside its two fields are those of the match. -/
theorem rxbuffR_word (slot : BitVec 3) (index : BitVec 8) :
    (0b01#2 ++ slot ++ index ++ 0#3) &&& 0xC007#16 = 0x4000#16 := by
  apply BitVec.eq_of_getLsbD_eq
  intro k hk
  simp only [BitVec.getLsbD_and, BitVec.getLsbD_append]
  interval_cases k <;> simp

theorem rxbuffR (slot : BitVec 3) (index : BitVec 8) (via : Via) : Statement (.rxbuffR slot index via) := by
  cases via with
  | copy => exact rxbuffR_word slot index
  | control =>
    have e : BitVec.ofNat 16 (0x4000 + 0x800 * slot.toNat + 8 * index.toNat) = 0b01#2 ++ slot ++ index ++ 0#3 := by
      apply BitVec.eq_of_toNat_eq
      simp only [append_toNat, BitVec.toNat_ofNat]
      omega
    show BitVec.ofNat 16 (0x4000 + 0x800 * slot.toNat + 8 * index.toNat) &&& 0xC007#16 = 0x4000#16
    rw [e]
    exact rxbuffR_word slot index

theorem classifyIPv4 : Statement .classifyIPv4 := by
  simp only [Statement, wordOf, encode, matchMask]
  decide

theorem classifyARP : Statement .classifyARP := by
  simp only [Statement, wordOf, encode, matchMask]
  decide

theorem classifyIPv6 : Statement .classifyIPv6 := by
  simp only [Statement, wordOf, encode, matchMask]
  decide

theorem classifyUnknown (etype : BitVec 16) : Statement (.classifyUnknown etype) := BitVec.and_zero

end Sys2Proof.Laws.TableRow
end

