-- ==== Sys2Proof/Tests/Slice0.lean ====
section
/-! SUPPORT. Tests on small states, their expected results taken from 95_test_vectors.md or worked out by hand from the cited
rule; and, for every statement with hypotheses, a witness that meets them. -/

namespace Sys2Proof.Tests

open Sys2Proof Sys2Proof.Machine

/-! ## Small states -/

/-- The base of 95_test_vectors.md. -/
def base : Word := 0x62000000

/-- The default parameters, with the open busy mask set to bit 31. -/
def config (mode : DeviceMode) : Config := { Config.reset with tplrBusyMask := 0x80000000, deviceMode := mode }

/-- The context after program P1. -/
def context : Ctx where
  ioBase  := some base
  phyAddr := some 1
  mac     := some #v[0x11, 0x22, 0x33, 0x44, 0x55, 0x66]
  probed  := true
  started := true

/-- A context on which `probe` alone has run. -/
def probedContext : Ctx := { context with mac := none, started := false }

/-- The REFERENCE DEVICE of program P1, its ring configured and empty. -/
def device : Device where
  maclo    := 0x33445566
  machi    := 0x00201122
  tfcs     := 7
  mdioctrl := 0
  first    := 3
  next     := 3
  rbadHi   := 0
  bad      := Vector.replicate 8 0
  rplr     := Vector.replicate 8 0
  depth    := some 8
  txBusy   := false
  pending  := []
  wire     := []
  buf      := []

/-- The ABSTRACT machine with the given draws. -/
def scripted (script : List Word) : State :=
  { State.reset with cfg := config .abstr, ctx := context, dev := device, script := script }

/-- The REFERENCE machine over the given DEVICE; its draws are zero. -/
def reference (dev : Device) : State :=
  { State.reset with cfg := config .reference, ctx := context, dev := dev, script := [0, 0, 0, 0] }

/-- The 42-byte ARP frame of program P2. -/
def arpFrame : List Byte :=
  [0xff, 0xff, 0xff, 0xff, 0xff, 0xff, 0x02, 0x00, 0x00, 0x00, 0x00, 0x01, 0x08, 0x06, 0x00, 0x01, 0x08, 0x00, 0x06, 0x04, 0x00,
    0x01, 0x02, 0x00, 0x00, 0x00, 0x00, 0x01, 0xc0, 0xa8, 0x00, 0x02, 0x00, 0x00, 0x00, 0x00, 0x00, 0x00, 0xc0, 0xa8, 0x00, 0x01]

/-- Frame B of program P3: 14 bytes in a 16-byte buffer. -/
def frameB : List Byte :=
  [0xff, 0xff, 0xff, 0xff, 0xff, 0xff, 0x02, 0x00, 0x00, 0x00, 0x00, 0x01, 0x88, 0xb5, 0xaa, 0xbb]

/-- The draws of vector RX3 (scenario S1), the copied words those of program P2. -/
def arpScript : List Word :=
  [0x1003, 0, 46, 0x0100060801000000, 0x0002FFFFFFFFFFFF, 0x0100060801000000, 0x0002010004060008, 0x0200A8C001000000,
    0xA8C0000000000000, 0x0000EFBEADDE0100]

/-! ## What is looked at -/

/-- The accesses of a completed step, as offsets. -/
def accesses (o : Outcome) : List (Dir × Nat × Word) :=
  match o with
  | .next t => t.bus.map fun a => (a.dir, (a.addr - base).toNat, a.val)
  | .fault _ => []
  | .refused _ => []

/-- The last result returned. -/
def answer (o : Outcome) : Option Result :=
  match o with
  | .next t => t.returned.getLast?
  | .fault _ => none
  | .refused _ => none

/-- The codes of the trace. -/
def traceCodes (o : Outcome) : List Nat :=
  match o with
  | .next t => t.trace.map fun r => r.kind.code
  | .fault _ => []
  | .refused _ => []

/-- One look at the DEVICE after a completed step. -/
def deviceAfter {α : Type} (f : Device → α) (o : Outcome) : Option α :=
  match o with
  | .next t => some (f t.dev)
  | .fault _ => none
  | .refused _ => none

/-- One look at the Device Context after a completed step. -/
def contextAfter {α : Type} (f : Ctx → α) (o : Outcome) : Option α :=
  match o with
  | .next t => some (f t.ctx)
  | .fault _ => none
  | .refused _ => none

/-- The fault that stopped a step. -/
def faulted (o : Outcome) : Option Fault :=
  match o with
  | .next _ => none
  | .fault f => some f
  | .refused _ => none

/-- The position in which the body of an operation ends. -/
def stepAfter (body : State → Answer Result) (op : Op) (s : State) : Option Position :=
  match body { s with position := .running op (stepNo 0) } with
  | .ok _ t => some t.position
  | .stop _ => none

/-! ## Well-formedness: an ill-formed term for each check -/

/-- 30_encoding.md rule R114: the catch-all row does not take an Ethertype that an earlier row takes. -/
theorem test_illformed_unknown :
    (Instr.classifyUnknown 0x0800).wellFormed = false ∧ (Instr.classifyUnknown 0x0806).wellFormed = false ∧
      (Instr.classifyUnknown 0x86DD).wellFormed = false ∧ (Instr.classifyUnknown 0x0801).wellFormed = true := by decide

/-- 00_scope.md rule R11: the ring depth is from 1 to 8. -/
theorem test_illformed_config :
    Config.wellFormed { config .abstr with ringDepth := 0 } = false ∧
      Config.wellFormed { config .abstr with ringDepth := 9 } = false ∧
      Config.wellFormed { config .abstr with ringDepth := 1 } = true := by decide

/-! ## Decoding: words written out from 30_encoding.md rules R101, R103 and R114 -/

theorem test_decode_operations :
    (List.map (decodeTableWord 8) [0b00000001, 0b00000010, 0b00000011, 0b00000100, 0b00000101, 0b00000110, 0b10000000, 0b10000001]) =
      [some (.probe 0 0), some .start, some (.send [] 0), some .recv, some .stop, some .hwaddr, some .resolve,
        some (.classify 0)] := by decide

theorem test_decode_reads :
    (List.map (decodeTableWord 16) [0b0000100000000000, 0b0000100000001000, 0b0000100000010000, 0b0000100000100000,
      0b0000100000101000, 0b0000100000110000, 0b0000100000111000]) =
      [some .macloR, some .machiR, some .tplrR, some .mdioctrlR, some .rfcsR, some .rsrR, some .rbadR] := by decide

theorem test_decode_writes :
    (List.map (decodeTableWord 16) [0b1000100000001000, 0b1000100000010000, 0b1000100000011000, 0b1000100000100000,
      0b1000100000101000, 0b1000100000110000]) =
      [some (.machiW 0), some (.tplrW 0), some (.tfcsW 0), some (.mdioctrlW 0), some (.rfcsW 0), some (.rsrW 0)] := by decide

/-- The fielded rows at both ends of their fields: RPLR[0], RPLR[7], TXBUFF's first and last word, RXBUFF[0] and RXBUFF[7]. -/
theorem test_decode_fields :
    (List.map (decodeTableWord 16) [0b0000100001000000, 0b0000100001111000, 0b1001000000000000, 0b1001011111111000,
      0b0100000000000000, 0b0111111111111000]) =
      [some (.rplrR 0), some (.rplrR 7), some (.txbuffW 0 0), some (.txbuffW 255 0), some (.rxbuffR 0 0 .copy),
        some (.rxbuffR 7 255 .copy)] := by decide

/-- 0x0800 is the word of MACLO.R and of the IPv4 row: as a table word it is the bus request (log 13). -/
theorem test_decode_ethertypes :
    decode (.ethertype 0x0800) = .instr .classifyIPv4 ∧ decodeTableWord 16 0x0806 = some .classifyARP ∧
      decodeTableWord 16 0x86DD = some .classifyIPv6 ∧ decodeTableWord 16 0xFFFF = some (.classifyUnknown 0xFFFF) := by decide

/-- Rejections: the directions a row leaves out (MACLO.W, TFCS.R), a misaligned word, an internal code from the HOST. -/
theorem test_decode_rejects :
    decode (.bus 0x8800 0) = .reject (.noRegister .unmapped .write 0x0800 .copy) ∧
      decode (.bus 0x0818 0) = .reject (.noRegister .unmapped .read 0x0818 .copy) ∧
      decode (.bus 0x0834 0) = .reject (.noRegister .misaligned .read 0x0834 .copy) ∧
      decode (.host 0x80 {}) = .reject (.internalCode 0x80) ∧ decode (.host 0x07 {}) = .reject (.invalidCode 0x07) := by decide

theorem test_withFetchWord :
    faulted (step (State.reset.withFetchWord 8 0x05)) = some (.notProbed .stop) ∧
      answer (step ((scripted [9]).withFetchWord 16 0x0830)) = some (.value 9) ∧
      accesses (step ((scripted []).withFetchWord 16 0x9008)) = [(.write, 0x1008, 0)] := by decide

/-! ## Operands -/

/-- The vectors of 95_test_vectors.md section 2.4: error masks, and the Ethertype of three words. -/
theorem test_operands :
    (List.range 8).map errorMask = [0x0101, 0x0202, 0x0404, 0x0808, 0x1010, 0x2020, 0x4040, 0x8080] ∧
      [0x0100060801000000, 0x0000DD8609000000, 0x0045000801000000].map etherTypeOf = [0x0806, 0x86DD, 0x0800] ∧
      [0, 1, 8, 9, 42, 1536].map wordCount = [0, 1, 1, 2, 6, 192] := by decide

/-- The MAC table of 95_test_vectors.md section 2.2, its third and fifth rows. -/
theorem test_mac_vectors :
    macOctets 0xFFFFFFFF 0xFFFFFFFFFFFFFFFF = #v[0xff, 0xff, 0xff, 0xff, 0xff, 0xff] ∧
      writebackValue .clearIrqOnly 0xFFFFFFFFFFFFFFFF = 0xFFFFFFFFFFDFFFFF ∧
      macOctets 0x00000001 0x00600002 = #v[0x00, 0x02, 0x00, 0x00, 0x00, 0x01] ∧
      writebackValue .masked 0x00600002 = 0x0002 ∧ writebackValue .clearIrqOnly 0x00600002 = 0x00400002 := by decide

/-! ## Lifecycle (95_test_vectors.md section 2.6) -/

theorem test_probe :
    faulted (exec (.probe 0x62000004 0) State.reset) = some (.misaligned 0x62000004) ∧
      faulted (exec (.probe 0xFFFFFFFFFFFFC000 0) State.reset) = some (.unmapped 0xFFFFFFFFFFFFC000) ∧
      contextAfter (fun c => (c.ioBase, c.probed, c.started)) (exec (.probe 0xFFFFFFFFFFFF8000 (-1)) State.reset) =
        some (some 0xFFFFFFFFFFFF8000, true, false) := by decide

theorem test_probe_again : faulted (exec (.probe base 0) (scripted [])) = some (.reprobe .probe) := by decide

/-- Program P1. -/
theorem test_start :
    accesses (exec .start { reference device with ctx := probedContext }) =
      [(.read, 0x0800, 0x33445566), (.read, 0x0808, 0x00201122), (.write, 0x0808, 0x1122), (.write, 0x0828, 8)] := by decide

theorem test_start_ring :
    deviceAfter (fun d => (d.machi, d.depth, d.first, d.next)) (exec .start { reference device with ctx := probedContext }) =
      some (0x1122, some 8, 0, 0) := by decide

theorem test_init :
    accesses (exec .init { reference device with ctx := probedContext }) =
      [(.read, 0x0800, 0x33445566), (.read, 0x0808, 0x00201122), (.write, 0x0808, 0x1122), (.write, 0x0828, 8)] := by decide

theorem test_stop : accesses (exec .stop (scripted [])) = [] ∧ answer (exec .stop (scripted [])) = some .unit := by decide

theorem test_hwaddr :
    answer (exec .hwaddr (reference device)) = some (.mac #v[0x11, 0x22, 0x33, 0x44, 0x55, 0x66]) := by decide

theorem test_resolve :
    accesses (exec .resolve (scripted [0xDEADBEEF0A0B0C0D, 0x00030102])) =
      [(.read, 0x0800, 0xDEADBEEF0A0B0C0D), (.read, 0x0808, 0x00030102), (.write, 0x0808, 0x0102)] := by decide

/-! ## Transmit (95_test_vectors.md section 2.3 and program P3) -/

theorem test_send :
    accesses (exec (.send frameB 14) (reference device)) =
      [(.write, 0x0818, 0), (.write, 0x1000, 0x0002FFFFFFFFFFFF), (.write, 0x1008, 0xBBAAB58801000000),
        (.write, 0x0810, 14)] := by decide

/-- Program P5: the second send overlaps. -/
theorem test_send_overlap :
    faulted (exec (.send frameB 14) (reference { device with txBusy := true })) = some (.txOverlap 0x0818) := by decide

/-! ## Receive (95_test_vectors.md section 2.4) -/

/-- RX3, scenario S1: a 42-byte frame, RSR written with 4. -/
theorem test_recv :
    answer (exec .recv (scripted arpScript)) = some (.frame (arpFrame ++ [0xde, 0xad, 0xbe, 0xef, 0, 0]) 42) ∧
      (accesses (exec .recv (scripted arpScript))).getLast? = some (.write, 0x0830, 4) ∧
      (accesses (exec .recv (scripted arpScript))).length = 11 := by decide

/-- RX2, RX4, RX8, RX12, RX17, RX18 and RX20: accesses and trace codes. -/
theorem test_recv_drops :
    ([[0x0FFF], [0x1003, 0, 46, 0x0000DD8609000000], [0x1003, 0x0800], [0x1003, 0, 17], [0x1003, 0, 3],
      [0x1003, 0, 0xFFFFFFFFFFFFFFFF], [0x1007, 0x8080]].map fun d =>
        ((accesses (exec .recv (scripted d))).length, traceCodes (exec .recv (scripted d)))) =
      [(1, []), (5, [4]), (3, [2]), (4, [3]), (4, [3]), (4, [1]), (3, [2])] := by decide

/-! ## Classifier (95_test_vectors.md section 2.5) -/

theorem test_classify :
    ([0x0800, 0x0806, 0x86DD, 0x0000, 0x05DC, 0x0801, 0x8100, 0xFFFF].map fun e => answer (exec (.classify e) (scripted []))) =
      [some (.verdict .acceptIPv4), some (.verdict .acceptARP), some (.verdict .dropIPv6), some (.verdict .dropUnknown),
        some (.verdict .dropUnknown), some (.verdict .dropUnknown), some (.verdict .dropUnknown),
        some (.verdict .dropUnknown)] := by decide

theorem test_classify_rows :
    answer (exec .classifyIPv4 (scripted [])) = some (.verdict .acceptIPv4) ∧
      answer (exec .classifyARP (scripted [])) = some (.verdict .acceptARP) ∧
      answer (exec .classifyIPv6 (scripted [])) = some (.verdict .dropIPv6) ∧
      answer (exec (.classifyUnknown 0x05DC) (scripted [])) = some (.verdict .dropUnknown) := by decide

/-! ## Bus requests (20_memory.md rule R71; 60_exceptions.md rules R302 to R308) -/

theorem test_read_offsets :
    ([Instr.macloR, .machiR, .tplrR, .mdioctrlR, .rfcsR, .rsrR, .rbadR, .rplrR 7, .rxbuffR 7 255 .copy].map fun i =>
        accesses (exec i (scripted [0x1003]))) =
      [[(.read, 0x0800, 0x1003)], [(.read, 0x0808, 0x1003)], [(.read, 0x0810, 0x1003)], [(.read, 0x0820, 0x1003)],
        [(.read, 0x0828, 0x1003)], [(.read, 0x0830, 0x1003)], [(.read, 0x0838, 0x1003)], [(.read, 0x0878, 0x1003)],
        [(.read, 0x7FF8, 0x1003)]] := by decide

theorem test_write_offsets :
    ([Instr.machiW 5, .tplrW 5, .tfcsW 5, .mdioctrlW 5, .rfcsW 5, .rsrW 5, .txbuffW 255 5].map fun i =>
        accesses (exec i (scripted []))) =
      [[(.write, 0x0808, 5)], [(.write, 0x0810, 5)], [(.write, 0x0818, 5)], [(.write, 0x0820, 5)], [(.write, 0x0828, 5)],
        [(.write, 0x0830, 5)], [(.write, 0x17F8, 5)]] := by decide

/-- Program P2's RSR value, P4's RBAD value, and the busy bit of TPLR. -/
theorem test_reference_reads :
    answer (exec .rsrR (reference { device with next := 4 })) = some (.value 0x1043) ∧
      answer (exec .rbadR (reference { device with bad := device.bad.set 6 0b10 })) = some (.value 0x4000) ∧
      answer (exec .tplrR (reference { device with txBusy := true })) = some (.value 0x80000000) ∧
      answer (exec .tplrR (reference device)) = some (.value 0) := by decide

/-- Rule R304: 8 modulo 8 is 0 (vector S5); rule R305: RFCS takes 1 to 8. -/
theorem test_reference_ring :
    deviceAfter (fun d => d.first) (exec (.rsrW 8) (reference device)) = some 0 ∧
      deviceAfter (fun d => d.first) (exec (.rsrW 4) (reference device)) = some 4 ∧
      deviceAfter (fun d => (d.depth, d.first, d.next)) (exec (.rfcsW 1) (reference device)) = some (some 1, 0, 0) ∧
      faulted (exec (.rfcsW 9) (reference device)) = some (.deviceConfig 9) := by decide

/-- Rule R78: the low byte of a word lies at the lower offset. -/
theorem test_reference_txbuff :
    deviceAfter (fun d => (Memory.readByte d.buf 0x1008, Memory.readByte d.buf 0x100F))
      (exec (.txbuffW 1 0xBBAAB58801000000) (reference device)) = some (0x00, 0xBB) ∧
      deviceAfter (fun d => (d.txBusy, d.pending)) (exec (.tplrW 2) (reference { device with buf := [(0x1000, 9), (0x1001, 8)] })) =
        some (true, [9, 8]) := by decide

/-- Section 2.1: the diagnostic build, below 0x4000 and at it. -/
theorem test_diagnostic :
    accesses (runRequest (.access .read 0x0800 0) { scripted [6] with cfg := { config .abstr with diagBuild := true } }) =
        [(.read, 0x0800, 6)] ∧
      accesses (exec (.rxbuffR 0 0 .control) { scripted [6] with cfg := { config .abstr with diagBuild := true } }) = [] ∧
      traceCodes (exec (.rxbuffR 0 0 .control) { scripted [6] with cfg := { config .abstr with diagBuild := true } }) = [5] ∧
      accesses (exec (.rxbuffR 0 0 .copy) { scripted [6] with cfg := { config .abstr with diagBuild := true } }) =
        [(.read, 0x4000, 6)] := by decide

/-- A diagnostic build reads a bus-request word as a bare access (log 38): 0x4000 is performed and 0xC000 faults; and an accessor
call at a misaligned offset faults there too. -/
theorem test_diagnostic_bus :
    accesses (runRequest (.bus 0x4000 0) { scripted [6] with cfg := { config .abstr with diagBuild := true } }) =
        [(.read, 0x4000, 6)] ∧
      faulted (runRequest (.bus 0xC000 0) { scripted [6] with cfg := { config .abstr with diagBuild := true } }) =
        some (.unmapped 0x4000) ∧
      faulted (runRequest (.access .read 0x4001 0) { scripted [6] with cfg := { config .abstr with diagBuild := true } }) =
        some (.misaligned 0x4001) := by decide

/-- The numbers of the pseudocode steps at which an operation's body stands after its last access: the write of
41_mac_resolver.md rule R160 is step 5, that of 45_lifecycle.md rule R261 step 2, and the last ones of 42_transmit.md rule R180 and
43_receive.md rule R200 are steps 6 and 7. -/
theorem test_step_numbers :
    stepAfter resolveBody .hwaddr (scripted []) = some (.running .hwaddr (stepNo 5)) ∧
      stepAfter startBody .start (scripted []) = some (.running .start (stepNo 2)) ∧
      stepAfter (sendBody frameB 14) .send (scripted []) = some (.running .send (stepNo 6)) ∧
      stepAfter recvBody .recv (scripted [0x0FFF]) = some (.running .recv (stepNo 1)) ∧
      stepAfter recvBody .recv (scripted [0x1003, 0x0800]) = some (.running .recv (stepNo 7)) ∧
      stepAfter (probeBody base 0) .probe State.reset = some (.running .probe (stepNo 2)) := by decide

/-- Within 43_receive.md rule R200: the RBAD read is step 3, the length test step 5, the class test step 6b, the third word of the
copy step 6c; and with 42_transmit.md rule R190 the second poll is in step 3. -/
theorem test_step_parts :
    stepAfter (consumeSlot 3) .recv (scripted [0x0800]) = some (.running .recv (stepNo 3)) ∧
      stepAfter (consumeSlot 3) .recv (scripted [0, 17]) = some (.running .recv (stepNo 5)) ∧
      stepAfter (consumeSlot 3) .recv (scripted [0, 46, 0x0000DD8609000000]) = some (.running .recv (stepPart 6 .b)) ∧
      stepAfter (consumeSlot 3) .recv (scripted [0, 21, 0x0100060801000000]) = some (.running .recv ⟨6, .c, 2⟩) ∧
      stepAfter (fun s => (waitIdle (stepNo 3) 2 s).andThen fun _ t => .ok .unit t) .send (scripted [0x80000000, 0]) =
        some (.running .send ⟨3, .whole, 1⟩) := by decide

/-- Rules R303 and R307 in one step each. -/
theorem test_device_moves :
    deviceAfter (fun d => (d.next, d.rplr.get 3, Memory.readByte d.buf 0x5800, Memory.readByte d.buf 0x5801))
        (step { reference device with agenda := [.device (.arrive [0x55] 0 0x04030201)] }) = some (4, 5, 0x55, 0x01) ∧
      deviceAfter (fun d => (d.wire, d.txBusy)) (step (reference { device with txBusy := true, pending := [1, 2] })) =
        some ([[1, 2]], false) := by decide

/-! ## Witnesses: the hypotheses of each statement, met together, each clause at a boundary -/

theorem witness_DecodeInvertsEncode :
    (Instr.classifyUnknown 0x86DE).wellFormed = true ∧ (Instr.rxbuffR 7 255 .control).wellFormed = true := by decide

theorem witness_EncodeInvertsBusDecode :
    decode (.bus 0x7FF8 1) = .instr (.rxbuffR 7 255 .copy) ∧ decode (.bus 0x8830 1) = .instr (.rsrW 1) := by decide

theorem witness_BusRowsExclusive :
    ∃ a, busTable[13]? = some a ∧ a.hits 0x0878 = true := ⟨_, rfl, by decide⟩

theorem witness_OffsetsSelectTheMappedRegisters :
    (0x7FFF % 8 ≠ 0) ∧ (0x0880 % 8 = 0 ∧ ¬ readable 0x0880 ∧ ¬ writable 0x1800 ∧ ¬ readable 0x8000 ∧ ¬ readable 0x1000) ∧
      (readable 0x0878 ∧ readable 0x7FF8 ∧ writable 0x17F8 ∧ writable 0x1000) ∧
      readRow (.rplrR 7) = some (0x0878, .rplr 7, .control) ∧ writeRow (.txbuffW 255 2) = some (0x17F8, .txbuff 255, 2) := by
  decide

/-- Each clause at both ends of its ranges. -/
theorem witness_ReservedCodesRefused :
    ({ scripted [] with agenda := [.request (.host 0x80 {})] } : State).agenda = .request (.host 0x80 {}) :: [] ∧
      (∀ c ∈ [(0x80 : BitVec 8), 0x81], c = 0x80 ∨ c = 0x81) ∧
      ∀ c ∈ [(0 : BitVec 8), 7, 0x7F, 0x82, 0xFF], c = 0 ∨ (7 ≤ c.toNat ∧ c.toNat ≤ 0x7F) ∨ 0x82 ≤ c.toNat := by decide

theorem context_ok : CtxOk context := by
  refine ⟨rfl, rfl, fun _ => rfl, fun _ => rfl, fun _ => rfl, fun b hb => ?_⟩
  cases hb
  decide

theorem device_ok : DeviceOk device := by decide

/-- The invariant holds in the small states. -/
theorem scripted_inv (script : List Word) : Inv (scripted script) := ⟨rfl, rfl, context_ok, device_ok, by rintro ⟨⟩⟩

theorem reference_inv (agenda : List Event) : Inv { reference device with agenda := agenda } :=
  ⟨rfl, rfl, context_ok, device_ok, fun _ _ => rfl⟩

/-- The parts of the hypotheses most statements share. -/
theorem witness_ready :
    ReadyAt (scripted []) base ∧ Quiet (scripted []) ∧ (scripted []).ctx.started = true ∧
      ReadyAt (reference device) base ∧ Quiet (reference device) ∧
      (reference device).cfg.deviceMode = .reference ∧ (reference device).cfg.wellFormed = true := by decide

/-- A schedule with a DEVICE step in it is quiet too. -/
theorem witness_quiet_schedule :
    Quiet { reference device with schedule := [[.device .txDone], [], [.device (.arrive [1] 0 0)]] } := by decide

theorem witness_ReadRequestsComplete :
    readRow (.rxbuffR 7 255 .copy) = some (0x7FF8, .rxbuff 7 255, .copy) ∧ readRow .macloR = some (0x0800, .maclo, .control) ∧
      (scripted [5]).ctx.ioBase = some base ∧ Quiet (scripted [5]) ∧ (scripted [5]).cfg.diagBuild = false ∧
      (scripted [5]).cfg.deviceMode = .abstr ∧ (scripted [5]).script = 5 :: [] := by decide

theorem witness_ReferenceReadValues :
    readRow .rsrR = some (0x0830, .rsr, .control) ∧ (reference device).cfg.deviceMode = .reference ∧
      (reference device).ctx.ioBase = some base ∧ Quiet (reference device) ∧ (reference device).cfg.diagBuild = false := by
  decide

theorem witness_WriteRequestsComplete :
    writeRow (.rfcsW 8) = some (0x0828, .rfcs, 8) ∧ (reference device).ctx.ioBase = some base ∧ Quiet (reference device) ∧
      Accepted (reference device) .rfcs 8 ∧ Accepted (reference device) .tplr 8 ∧ Accepted (scripted []) .rfcs 0 := by decide

theorem witness_ReferenceAcknowledge :
    (reference device).cfg.deviceMode = .reference ∧ (reference device).ctx.ioBase = some base ∧ Quiet (reference device) ∧
      (afterOthers (reference device)).dev.depth = some 8 := by decide

/-- Both clauses, at 1, 8, 0 and 9. -/
theorem witness_ReferenceRingConfiguration :
    (∀ v ∈ [(1 : Word), 8], 1 ≤ v.toNat ∧ v.toNat ≤ 8) ∧ ∀ v ∈ [(0 : Word), 9], v.toNat = 0 ∨ 9 ≤ v.toNat := by
  simp

theorem witness_ReferenceTransmitWrites :
    (afterOthers (reference { device with txBusy := true })).dev.txBusy = true ∧
      (afterOthers (reference device)).dev.txBusy = false ∧ (0x800 : Word).toNat ≤ 0x800 := by decide

theorem witness_ReferenceMacRegisters : ∃ t, exec .stop (reference device) = .next t := ⟨_, rfl⟩

theorem witness_UnmappedAccessesFault :
    (scripted []).ctx.ioBase = some base ∧ (scripted []).cfg.diagBuild = false ∧ 0x0834 % 8 ≠ 0 ∧ 0x0880 % 8 = 0 ∧
      ¬ readable 0x0880 ∧ ¬ readable 0x8000 ∧ ¬ writable 0x1800 ∧ ¬ writable 0x0800 := by decide

/-- The clauses of a bus-request word: misaligned, and with W clear and set an offset of the other direction. -/
theorem witness_UnmappedAccessesFault_bus :
    0x4001 = ((0xC001 : BitVec 16).extractLsb' 0 15).toNat ∧ 0x4001 % 8 ≠ 0 ∧
      0x0818 = ((0x0818 : BitVec 16).extractLsb' 0 15).toNat ∧ (0x0818 : BitVec 16).getLsbD 15 = false ∧ ¬ readable 0x0818 ∧
      0x4000 = ((0xC000 : BitVec 16).extractLsb' 0 15).toNat ∧ (0xC000 : BitVec 16).getLsbD 15 = true ∧
      ¬ writable 0x4000 := by decide

theorem witness_DiagnosticBuildRejects :
    ({ scripted [] with cfg := { config .abstr with diagBuild := true } } : State).ctx.ioBase = some base ∧
      ({ scripted [] with cfg := { config .abstr with diagBuild := true } } : State).cfg.diagBuild = true ∧
      Quiet { scripted [] with cfg := { config .abstr with diagBuild := true } } ∧ 0x4000 % 8 = 0 := by decide

theorem witness_OnlyListedAccesses :
    isOperation .recv = true ∧ Inv (scripted [0x1003, 0x0800]) ∧ ∃ t, exec .recv (scripted [0x1003, 0x0800]) = .next t :=
  ⟨rfl, scripted_inv _, _, rfl⟩

/-- The three clauses on an unprobed context, at the last base that fits and the first that does not. -/
theorem witness_ProbeSetsTheContext :
    State.reset.position = .idle ∧ State.reset.ctx.probed = false ∧ (0xFFFFFFFFFFFF8000 : Word).toNat % 8 = 0 ∧
      (0xFFFFFFFFFFFF8000 : Word).toNat + 0x8000 ≤ 2 ^ 64 ∧ 2 ^ 64 < (0xFFFFFFFFFFFF8008 : Word).toNat + 0x8000 ∧
      (0xFFFFFFFFFFFF8008 : Word).toNat % 8 = 0 ∧ (4 : Word).toNat % 8 ≠ 0 ∧ (scripted []).ctx.probed = true := by decide

theorem witness_StopChangesNothing :
    (scripted []).position = .idle ∧ (scripted []).ctx.probed = true ∧ State.reset.ctx.probed = false := by decide

theorem witness_ResolverReadsAndWritesBack :
    (reference device).position = .idle ∧ ReadyAt (reference device) base ∧ Quiet (reference device) ∧
      State.reset.position = .idle ∧ State.reset.ctx.probed = false := by decide

theorem witness_StartConfiguresTheRing :
    ReadyAt { reference device with ctx := probedContext } base ∧ Quiet { reference device with ctx := probedContext } ∧
      (reference device).cfg.wellFormed = true := by decide

theorem witness_InitDoesWhatStartDoes :
    ReadyAt { reference device with ctx := probedContext } base ∧ Quiet { reference device with ctx := probedContext } ∧
      ({ reference device with ctx := probedContext } : State).cfg.wellFormed = true := by decide

theorem witness_MisorderedCallsFault :
    State.reset.position = .idle ∧ CtxOk State.reset.ctx ∧ State.reset.ctx.probed = false ∧ CtxOk probedContext ∧
      probedContext.probed = true ∧ probedContext.started = false ∧ CtxOk context :=
  ⟨rfl, ⟨rfl, rfl, id, fun h => absurd h Bool.false_ne_true, fun h => absurd h Bool.false_ne_true, fun _ h => by cases h⟩, rfl,
    ⟨rfl, rfl, fun _ => rfl, fun _ => rfl, fun h => h, context_ok.2.2.2.2.2⟩, rfl, rfl, context_ok⟩

theorem witness_ConcurrentCallsFault :
    ({ scripted [] with position := .running .recv (stepNo 3) } : State).position = .running .recv (stepNo 3) ∧
      ReadyAt { reference device with schedule := [[.device .txDone, .invoke .stop]] } base ∧
      ({ reference device with schedule := [[.device .txDone, .invoke .stop]] } : State).schedule =
        ([DeviceMove.txDone].map Move.device ++ Move.invoke .stop :: []) :: [] := by decide

/-- A landing before the last access of a recv, and before each access of a send of no bytes. -/
theorem witness_ConcurrentCallsFault_later :
    (∃ t, exec .recv { scripted [0x1003, 0x0800] with schedule := [[], []] } = .next t ∧
      [([] : List Move), []].length < (issued (scripted [0x1003, 0x0800]) t).length) ∧
    ∃ t, exec (.send [] 0) { scripted [] with schedule := [[]] } = .next t ∧
      [([] : List Move)].length < (issued (scripted []) t).length :=
  ⟨⟨_, rfl, by decide⟩, _, rfl, by decide⟩

theorem witness_SendStagesAndTriggers :
    ReadyAt (reference device) base ∧ (reference device).ctx.started = true ∧ Quiet (reference device) ∧
      (reference device).cfg.txWaitIdle = false ∧ (afterOthers (reference device)).dev.txBusy = false := by decide

theorem witness_SendAccessCounts :
    (reference device).cfg.txWaitIdle = false ∧ (reference device).ctx.ioBase = some base ∧
      ∃ t, exec (.send frameB 14) (reference device) = .next t := ⟨by decide, by decide, _, rfl⟩

/-- One busy poll: at the cap of 1 a timeout, and with one more poll left an idle one. -/
theorem witness_SendWaitsForIdle :
    let s : State := { scripted [0x80000000, 1] with cfg := { config .abstr with txWaitIdle := true, txWaitCap := 1 } }
    let u : State := { scripted [0x80000000, 1] with cfg := { config .abstr with txWaitIdle := true, txWaitCap := 2 } }
    (ReadyAt s base ∧ s.ctx.started = true ∧ Quiet s ∧ s.cfg.deviceMode = .abstr ∧ s.cfg.txWaitIdle = true ∧
      s.script = [0x80000000] ++ [1] ∧ (∀ v ∈ [(0x80000000 : Word)], v &&& s.cfg.tplrBusyMask ≠ 0) ∧
      [(0x80000000 : Word)].length = s.cfg.txWaitCap) ∧
      ReadyAt u base ∧ Quiet u ∧ u.script = [0x80000000] ++ [1] ∧
      [(0x80000000 : Word)].length < u.cfg.txWaitCap ∧ (1 : Word) &&& u.cfg.tplrBusyMask = 0 := by
  intro s u
  have q : Quiet s := fun ms h => by cases h
  have idle : ∀ v ∈ [(0x80000000 : Word)], v &&& s.cfg.tplrBusyMask ≠ 0 := by
    intro v hv
    cases List.mem_singleton.mp hv
    show (0x80000000 : Word) &&& 0x80000000 ≠ 0
    decide
  have clear : (1 : Word) &&& 0x80000000 = 0 := by decide
  exact ⟨⟨⟨rfl, rfl, rfl⟩, rfl, q, rfl, rfl, rfl, idle, rfl⟩, ⟨rfl, rfl, rfl⟩, q, rfl, Nat.lt_succ_self 1, clear⟩

theorem witness_OverlappingSendFaults :
    ReadyAt (reference { device with txBusy := true }) base ∧ Quiet (reference { device with txBusy := true }) ∧
      (reference { device with txBusy := true }).ctx.started = true ∧
      (reference { device with txBusy := true }).cfg.deviceMode = .reference ∧
      (reference { device with txBusy := true }).cfg.txWaitIdle = false ∧
      (afterOthers (reference { device with txBusy := true })).dev.txBusy = true := by decide

theorem witness_ReferenceSendReachesTheWire :
    let s : State := { reference device with agenda := [.request (.host 0x03 { frame := frameB, length := 14 })] }
    ReadyAt s base ∧ s.ctx.started = true ∧ s.schedule = [] ∧ s.cfg.deviceMode = .reference ∧ s.cfg.txWaitIdle = false ∧
      s.dev.txBusy = false := by decide

theorem witness_EmptyPollReadsRsrOnly :
    ReadyAt (scripted [0x0FFF]) base ∧ Quiet (scripted [0x0FFF]) ∧ (scripted [0x0FFF]).ctx.started = true ∧
      (scripted [0x0FFF]).cfg.deviceMode = .abstr ∧ (0x0FFF : Word).getLsbD 12 = false ∧
      (afterOthers (reference device)).dev.first = (afterOthers (reference device)).dev.next ∧
      ∃ t, exec .recv (scripted [0x0FFF]) = .next t :=
  ⟨by decide, by decide, by decide, by decide, by decide, by decide, _, rfl⟩

/-- RX22: slot 8, and a HOST call that would land before a second access. -/
theorem witness_SlotOutsideRingFaults :
    let s : State := { scripted [0x1008] with schedule := [[], [.invoke .stop]] }
    ReadyAt s base ∧ QuietNext s ∧ s.ctx.started = true ∧ s.cfg.deviceMode = .abstr ∧ s.script = 0x1008 :: [] ∧
      (0x1008 : Word).getLsbD 12 = true ∧ s.cfg.ringDepth ≤ ((0x1008 : Word).extractLsb' 0 4).toNat := by decide

/-- A REFERENCE ring of depth 8 under RING_DEPTH 4, at the first slot beyond the CORE's ring. -/
theorem witness_SlotOutsideRingFaults_reference :
    let r := reference { device with first := 4, next := 5 }
    let s : State := { r with cfg := { r.cfg with ringDepth := 4 }, schedule := [[], [.invoke .stop]] }
    ReadyAt s base ∧ QuietNext s ∧ s.ctx.started = true ∧ s.cfg.deviceMode = .reference ∧
      (afterOthers s).dev.first ≠ (afterOthers s).dev.next ∧ s.cfg.ringDepth ≤ (afterOthers s).dev.first.toNat := by decide

/-- RX7 and RX20: slots 3 and 7. -/
theorem witness_ErroredSlotDropped :
    ReadyAt (scripted [0x1003, 0x0008]) base ∧ Quiet (scripted [0x1003, 0x0008]) ∧
      (scripted [0x1003, 0x0008]).cfg.wellFormed = true ∧ (0x1003 : Word).getLsbD 12 = true ∧
      3 = ((0x1003 : Word).extractLsb' 0 4).toNat ∧ 3 < (scripted []).cfg.ringDepth ∧
      (0x0008 : Word) &&& (0x101#64 <<< 3) ≠ 0 ∧ 7 = ((0x1007 : Word).extractLsb' 0 4).toNat ∧
      7 < (scripted []).cfg.ringDepth ∧ (0x8080 : Word) &&& (0x101#64 <<< 7) ≠ 0 := by decide

/-- RX12 and RX15: raw lengths 17 and 1541. -/
theorem witness_InvalidLengthDropped :
    ReadyAt (scripted [0x1003, 0, 17]) base ∧ Quiet (scripted [0x1003, 0, 17]) ∧ (0x1003 : Word).getLsbD 12 = true ∧
      (0 : Word) &&& (0x101#64 <<< 3) = 0 ∧ 17 = ((17 : Word) &&& (scripted []).cfg.rplrLengthMask).toNat ∧
      1541 = ((1541 : Word) &&& (scripted []).cfg.rplrLengthMask).toNat ∧ 17 < 18 ∧ 1540 < 1541 := by decide

/-- RX4 and RX6: IPv6 and an unknown type. -/
theorem witness_UnsupportedProtocolDropped :
    ReadyAt (scripted [0x1003, 0, 46, 0x0000DD8609000000]) base ∧ Quiet (scripted [0x1003, 0, 46, 0x0000DD8609000000]) ∧
      46 = ((46 : Word) &&& (scripted []).cfg.rplrLengthMask).toNat ∧
      0x86DD#16 = (0x0000DD8609000000 : Word).extractLsb' 32 8 ++ (0x0000DD8609000000 : Word).extractLsb' 40 8 ∧
      0x1234#16 = (0x0000341200000000 : Word).extractLsb' 32 8 ++ (0x0000341200000000 : Word).extractLsb' 40 8 := by decide

/-- RX13: raw length 18, two words copied. -/
theorem witness_AcceptedFrameReturned :
    ReadyAt (scripted [0x1003, 0, 18, 0x0100060801000000, 1, 2]) base ∧
      Quiet (scripted [0x1003, 0, 18, 0x0100060801000000, 1, 2]) ∧
      (scripted [0x1003, 0, 18, 0x0100060801000000, 1, 2]).script = 0x1003 :: 0 :: 18 :: 0x0100060801000000 :: ([1, 2] ++ []) ∧
      18 = ((18 : Word) &&& (scripted []).cfg.rplrLengthMask).toNat ∧ [(1 : Word), 2].length = (18 - 4 + 7) / 8 ∧
      0x0806#16 = (0x0100060801000000 : Word).extractLsb' 32 8 ++ (0x0100060801000000 : Word).extractLsb' 40 8 := by decide

/-- A completed call for each of the five sequences: RX2, RX4, RX8, RX12 and RX3. -/
theorem witness_RecvAccessSequences :
    (scripted arpScript).ctx.ioBase = some base ∧ (∃ t, exec .recv (scripted [0x0FFF]) = .next t) ∧
      (∃ t, exec .recv (scripted [0x1003, 0, 46, 0x0000DD8609000000]) = .next t) ∧
      (∃ t, exec .recv (scripted [0x1003, 0x0800]) = .next t) ∧ (∃ t, exec .recv (scripted [0x1003, 0, 17]) = .next t) ∧
      ∃ t, exec .recv (scripted arpScript) = .next t :=
  ⟨by decide, ⟨_, rfl⟩, ⟨_, rfl⟩, ⟨_, rfl⟩, ⟨_, rfl⟩, _, rfl⟩

theorem witness_ReadyFrameAcknowledgedOnce :
    (scripted [0x1007, 0x8080]).ctx.ioBase = some base ∧ (0x1007 : Word).getLsbD 12 = true ∧
      ∃ t, exec .recv (scripted [0x1007, 0x8080]) = .next t := ⟨by decide, by decide, _, rfl⟩

/-- Slot 7 of a ring of 8 is the last one within the invariant of the ABSTRACT DEVICE. -/
theorem witness_RecvAlwaysCompletes :
    (Inv (scripted [0x1007]) ∧ Inv (reference device)) ∧ ReadyAt (scripted [0x1007]) base ∧ Quiet (scripted [0x1007]) ∧
      ((0x1007 : Word).extractLsb' 0 4).toNat < (scripted [0x1007]).cfg.ringDepth ∧
      ReadyAt (reference device) base ∧ ∀ d ∈ (reference device).dev.depth, d ≤ (reference device).cfg.ringDepth :=
  ⟨⟨scripted_inv _, reference_inv []⟩, by decide⟩

theorem witness_RingPointersDoNotMatter :
    (scripted []).cfg.deviceMode = .abstr ∧ (0x1005 : Word).extractLsb' 0 4 = (0x3FF5 : Word).extractLsb' 0 4 ∧
      (0x1005 : Word).getLsbD 12 = (0x3FF5 : Word).getLsbD 12 ∧
      ∃ t, exec .recv { scripted [] with script := 0x1005 :: [0x2020] } = .next t := ⟨by decide, by decide, by decide, _, rfl⟩

theorem witness_ReferenceArrivalIsDelivered :
    let s : State := { reference device with
      agenda := [.device (.arrive arpFrame 0 0xEFBEADDE), .request (.host 0x04 {})] }
    Inv s ∧ ReadyAt s base ∧ s.ctx.started = true ∧ s.schedule = [] ∧ s.cfg.deviceMode = .reference ∧
      s.cfg.rplrLengthMask = BitVec.allOnes 64 ∧ s.dev.depth = some 8 ∧ 8 ≤ s.cfg.ringDepth ∧ s.dev.first = s.dev.next ∧
      14 ≤ arpFrame.length ∧ arpFrame.length ≤ 1536 ∧ arpFrame[12]? = some 0x08 ∧ arpFrame[13]? = some 0x06 :=
  ⟨reference_inv _, by decide⟩

theorem witness_ClassifierAnswers : (Instr.classifyUnknown 0x0801).wellFormed = true := by decide

/-- The three clauses of an arrival: no depth, a full ring, and an empty one; and a lost frame, in either mode. -/
theorem witness_ArrivalFillsTheNextSlot :
    (reference device).cfg.deviceMode = .reference ∧ DeviceOk device ∧ DeviceOk { device with depth := none } ∧
      DeviceOk { device with first := 0, next := 7 } ∧ (({ device with first := 0, next := 7 } : Device).next.toNat + 1) % 8 = 0 ∧
      (device.next.toNat + 1) % 8 ≠ device.first.toNat ∧
      ({ reference device with agenda := [.device (.arrive arpFrame 0 0)] } : State).agenda = .device (.arrive arpFrame 0 0) :: [] ∧
      ({ reference device with agenda := [.device (.lose arpFrame)] } : State).agenda = .device (.lose arpFrame) :: [] ∧
      ({ scripted [] with agenda := [.device (.lose arpFrame)] } : State).agenda = .device (.lose arpFrame) :: [] := by decide

/-- The clauses about a byte: the last one of a slot is a frame byte or an FCS byte there, the next one is neither. -/
theorem witness_ArrivalFillsTheNextSlot_bytes :
    0x7FF < 0x800 ∧ (List.replicate 0x800 (1 : Byte))[0x7FF]? = some 1 ∧ 0x7FC + 3 < 0x800 ∧
      0x4000 + 0x800 * 3 + min (0x800 + 4) 0x800 ≤ 0x6000 := ⟨by decide, by rw [List.getElem?_replicate]; rfl, by decide, by decide⟩

theorem witness_TransmissionCompletes :
    (reference device).cfg.deviceMode = .reference ∧ (reference device).agenda = [] ∧
      (reference { device with txBusy := true }).dev.txBusy = true ∧
      ({ reference device with agenda := [.device .txDone] } : State).agenda = .device .txDone :: [] := by decide

theorem witness_ConsumedSlotIsStable :
    DeviceOk { device with first := 7, next := 6 } ∧ ({ device with first := 7, next := 6 } : Device).first ≠ 6 := by decide

theorem witness_ResetContextIsUnprobed :
    (readRow .rbadR).isSome = true ∧ (writeRow (.rsrW 0)).isSome = true ∧ State.reset.ctx.ioBase = none := by decide

theorem witness_StepKeepsInvariant :
    Inv { reference device with agenda := [.request (.host 0x05 {})] } ∧
      ∃ t, step { reference device with agenda := [.request (.host 0x05 {})] } = .next t := ⟨reference_inv _, _, rfl⟩

theorem witness_StepRunsTheDecodedInstruction :
    ({ scripted [] with agenda := [.request (.bus 0x0830 0)] } : State).agenda = .request (.bus 0x0830 0) :: [] ∧
      decode (.bus 0x0830 0) = .instr .rsrR := by decide

theorem witness_StepKeepsConfiguration : ∃ t, step (reference device) = .next t := ⟨_, rfl⟩

theorem witness_BaseNeverChanges :
    Inv (reference device) ∧ (reference device).ctx.ioBase = some base ∧ ∃ t, step (reference device) = .next t :=
  ⟨reference_inv [], rfl, _, rfl⟩

theorem witness_ReturnedBuffersAreKept :
    ∃ t, step { scripted [] with agenda := [.request (.host 0x05 {})], returned := [.frame [1] 1] } = .next t := ⟨_, rfl⟩

theorem witness_IrqEnableOnlyCleared :
    (reference device).cfg.deviceMode = .reference ∧ device.machi.getLsbD 21 = true ∧
      (∃ t, exec .start (reference device) = .next t) ∧ ∃ t, exec .stop (reference device) = .next t ∧ t.dev.machi.getLsbD 21 = true :=
  ⟨by decide, by decide, ⟨_, rfl⟩, _, rfl, by decide⟩

theorem witness_AccessCountsAreBounded :
    (∃ t, exec .start (reference device) = .next t) ∧ (∃ t, exec .hwaddr (reference device) = .next t) ∧
      (∃ t, exec (.probe base 0) State.reset = .next t) ∧ ∃ t, exec .recv (scripted [0x1003, 0x0800]) = .next t :=
  ⟨⟨_, rfl⟩, ⟨_, rfl⟩, ⟨_, rfl⟩, _, rfl⟩

theorem witness_OperationsTouchTheirRegistersOnly :
    (reference device).schedule = [] ∧ (∃ t, exec (.send frameB 14) (reference device) = .next t) ∧
      ∃ t, exec .recv (scripted [0]) = .next t := ⟨by decide, ⟨_, rfl⟩, _, rfl⟩

/-- The three clauses at their boundaries: an idle DEVICE with a cap of 1, a completion that lands before the last poll of a cap of
2, and no completion at all, as well as one that lands too late, before the access after the last poll. -/
theorem witness_ReferenceSendWaitsForIdle :
    let idle : State := { reference device with cfg := { config .reference with txWaitIdle := true, txWaitCap := 1 } }
    let busy : State := { reference { device with txBusy := true } with
      cfg := { config .reference with txWaitIdle := true, txWaitCap := 2 }, schedule := [[], [.device .txDone]] }
    let late : State := { busy with schedule := [[], [], [.device .txDone]] }
    (ReadyAt idle base ∧ Quiet idle ∧ idle.ctx.started = true ∧ (afterOthers idle).dev.txBusy = false ∧ 1 ≤ idle.cfg.txWaitCap) ∧
      (ReadyAt busy base ∧ Quiet busy ∧ busy.dev.txBusy = true ∧ busy.cfg.tplrBusyMask ≠ 0 ∧
        busy.schedule = [[]] ++ [.device .txDone] :: [] ∧ [([] : List Move)].length < busy.cfg.txWaitCap ∧
        (∀ q ∈ [([] : List Move)], Move.device .txDone ∉ q) ∧ Move.device .txDone ∈ [Move.device .txDone]) ∧
      Quiet late ∧ ∀ q ∈ late.schedule.take late.cfg.txWaitCap, Move.device .txDone ∉ q := by decide

end Sys2Proof.Tests
end

section
/-! What a completed step can do, said once: it moves the DEVICE, or it runs one operation from its entry to its return. -/

namespace Sys2Proof.Machine

open Sys2Proof

/-- `t` is `s` after a whole run of `op`: the body carried the entered state along, and one result was returned to where the
operation was called from. -/
def Returned (op : Op) (s t : State) : Prop :=
  ∃ r u, Carries (entered op s) u ∧ t = returnTo s.position r u

theorem Returned.cfg {op : Op} {s t : State} (h : Returned op s t) : t.cfg = s.cfg := by
  obtain ⟨r, u, c, rfl⟩ := h
  exact c.cfg

/-! ## The bodies of the operations -/

theorem probeBody_carries {ioBase : Word} {phyAddr : Int} {s t : State} {r : Result}
    (h : probeBody ioBase phyAddr s = .ok r t) : Carries s t := by
  unfold probeBody probeBase probeWindow at h
  split at h
  · cases h
  · split at h
    · cases h
    · split at h
      · cases h
      · cases h
        have c := (atStep_carries (stepNo 1) s).trans (atStep_carries (stepNo 2) _)
        exact ⟨c.cfg, c.agenda, c.returned, c.op, c.bus, c.trace, c.device, c.depth⟩

theorem resolveBody_carries {s t : State} {r : Result} (h : resolveBody s = .ok r t) : Carries s t := by
  obtain ⟨m, u, hu, h⟩ := andThen_eq_ok.mp h
  cases h
  exact (resolveMac_carries hu).1

theorem startBody_carries {s t : State} {r : Result} (h : startBody s = .ok r t) : Carries s t := by
  obtain ⟨m, s1, s2, h1, h2, -, rfl⟩ := startBody_cases h
  have c := (resolveMac_carries h1).1.trans (regWrite_carries h2)
  exact ⟨c.cfg, c.agenda, c.returned, c.op, c.bus, c.trace, c.device, c.depth⟩

theorem stopBody_eq {s t : State} {r : Result} (h : stopBody s = .ok r t) : t = s := by
  unfold stopBody at h
  split at h <;> cases h
  rfl

/-! ## Whole operations -/

theorem runOp_returned {op : Op} {body : State → Answer Result} {s t : State}
    (carries : ∀ {a b : State} {r : Result}, body a = .ok r b → Carries a b) (h : runOp op body s = .next t) :
    Returned op s t := by
  obtain ⟨r, u, hu, ht⟩ := runOp_cases h
  exact ⟨r, u, carries hu, ht⟩

theorem hostCall_returned {op : Op} {body : State → Answer Result} {s t : State}
    (carries : ∀ {a b : State} {r : Result}, body a = .ok r b → Carries a b) (h : hostCall op body s = .next t) :
    Returned op s t :=
  runOp_returned carries ((hostCall_idle (hostCall_cases h).1).symm.trans h)

theorem busRead_returned {off : Nat} {via : Via} {s t : State} (h : busRead off via s = .next t) : Returned .access s t := by
  refine runOp_returned (fun hb => ?_) h
  obtain ⟨v, u, hu, hv⟩ := andThen_eq_ok.mp hb
  cases hv
  exact (atStep_carries _ _).trans (readVia_carries hu).1

theorem busWrite_returned {off : Nat} {v : Word} {via : Via} {s t : State} (h : busWrite off v via s = .next t) :
    Returned .access s t := by
  refine runOp_returned (fun hb => ?_) h
  obtain ⟨_, u, hu, hv⟩ := andThen_eq_ok.mp hb
  cases hv
  exact (atStep_carries _ _).trans (writeVia_carries hu).1

theorem classifyAs_returned {etype : BitVec 16} {s t : State} (h : classifyAs etype s = .next t) : Returned .classify s t := by
  refine runOp_returned (fun hb => ?_) h
  cases hb
  exact .refl _

/-- Every completed instruction is a whole run of the operation it runs as. -/
theorem exec_returned {i : Instr} {s t : State} (h : exec i s = .next t) : Returned (runningOp i) s t := by
  cases i with
  | probe ioBase phyAddr => exact hostCall_returned probeBody_carries h
  | start => exact hostCall_returned startBody_carries h
  | init => exact hostCall_returned startBody_carries h
  | send frame length => exact hostCall_returned (fun hb => (sendBody_carries hb).1) h
  | recv => exact hostCall_returned (fun hb => (recvBody_carries hb).1) h
  | stop => exact hostCall_returned (fun hb => stopBody_eq hb ▸ .refl _) h
  | hwaddr => exact hostCall_returned resolveBody_carries h
  | resolve => exact runOp_returned resolveBody_carries h
  | classify | classifyIPv4 | classifyARP | classifyIPv6 | classifyUnknown => exact classifyAs_returned h
  | macloR | machiR | tplrR | mdioctrlR | rfcsR | rsrR | rbadR | rplrR | rxbuffR => exact busRead_returned h
  | machiW | tplrW | tfcsW | mdioctrlW | rfcsW | rsrW | txbuffW => exact busWrite_returned h

/-! ## Steps -/

/-- A request that completes is a whole run of some operation: a rejected one that does not stop is an access. -/
theorem runRequest_returned {r : Request} {s t : State} (h : runRequest r s = .next t) : ∃ op, Returned op s t := by
  unfold runRequest at h
  split at h
  · exact ⟨_, exec_returned h⟩
  · unfold rejectRequest at h
    split at h
    · cases h
    · cases h
    · exact ⟨.access, busRead_returned h⟩
    · exact ⟨.access, busWrite_returned h⟩

/-- Everything a completed step can do (log 2). -/
theorem step_cases {s t : State} (h : step s = .next t) :
    (s.agenda = [] ∧ t = idleTurn s) ∨
    (∃ d rest, s.agenda = .device d :: rest ∧ t = deviceMove d { s with agenda := rest }) ∨
    (∃ r rest op, s.agenda = .request r :: rest ∧ Returned op { s with agenda := rest } t) := by
  unfold step at h
  split at h
  · next ha => cases h; exact .inl ⟨ha, rfl⟩
  · next d rest ha => cases h; exact .inr (.inl ⟨d, rest, ha, rfl⟩)
  · next r rest ha =>
    obtain ⟨op, ho⟩ := runRequest_returned h
    exact .inr (.inr ⟨r, rest, op, ha, ho⟩)

/-- Settles O54: the DEVICE's moves leave the parameters alone, and a whole operation carries them along. -/
theorem stepKeepsConfiguration : Obligations.StepKeepsConfiguration := by
  intro s t h
  obtain ⟨-, rfl⟩ | ⟨d, rest, -, rfl⟩ | ⟨r, rest, op, -, ho⟩ := step_cases h
  · exact deviceMove_cfg .txDone s
  · exact deviceMove_cfg d _
  · exact ho.cfg

end Sys2Proof.Machine
end

section
/-! What a step does to the Device Context (10_state.md rules R30, R31), and that every step keeps the invariant. -/

namespace Sys2Proof.Machine

open Sys2Proof

/-! ## Moves of the Device Context -/

/-- What one completed step can make of the context `c`, in a machine of mode `mode` whose ring the step leaves with depth `depth`:
only `probe`, a resolution and `start` change it (45_lifecycle.md rules R260 to R263; 41_mac_resolver.md rule R160). -/
inductive ContextMove (mode : DeviceMode) (depth : Option Nat) (c : Ctx) : Ctx → Prop where
  | kept : ContextMove mode depth c c
  | probed (base : Word) (phy : Int) (fresh : c.probed = false) (ok : BaseOk base) :
      ContextMove mode depth c { c with ioBase := some base, phyAddr := some phy, probed := true }
  | resolved (m : Vector Byte 6) (probed : c.probed = true) : ContextMove mode depth c { c with mac := some m }
  | started (m : Vector Byte 6) (probed : c.probed = true) (ring : mode = .reference → depth.isSome = true) :
      ContextMove mode depth c { c with mac := some m, started := true }

/-- The context moves from `s` to `t`. -/
def ContextMoves (s t : State) : Prop := ContextMove s.cfg.deviceMode t.dev.depth s.ctx t.ctx

theorem ContextMoves.ofKept {s t : State} (h : t.ctx = s.ctx) : ContextMoves s t := by
  unfold ContextMoves
  rw [h]
  exact .kept

theorem ContextMove.ctxOk {mode : DeviceMode} {depth : Option Nat} {c d : Ctx} (h : ContextMove mode depth c d) (ok : CtxOk c) :
    CtxOk d := by
  obtain ⟨hbase, hphy, hstarted, hmac, hresolved, hok⟩ := ok
  cases h with
  | kept => exact ⟨hbase, hphy, hstarted, hmac, hresolved, hok⟩
  | probed base phy fresh ok => exact ⟨rfl, rfl, fun _ => rfl, fun _ => rfl, hresolved, by simpa using ok⟩
  | resolved m probed => exact ⟨hbase, hphy, hstarted, fun _ => probed, fun _ => rfl, hok⟩
  | started m probed ring => exact ⟨hbase, hphy, fun _ => probed, fun _ => probed, fun _ => rfl, hok⟩

/-- A started context was started before, or the step that started it set the depth of a REFERENCE ring. -/
theorem ContextMove.started_or_depth {mode : DeviceMode} {depth : Option Nat} {c d : Ctx} (h : ContextMove mode depth c d)
    (hd : d.started = true) (hm : mode = .reference) : c.started = true ∨ depth.isSome = true := by
  cases h with
  | kept => exact .inl hd
  | probed => exact .inl hd
  | resolved => exact .inl hd
  | started m probed ring => exact .inr (ring hm)

/-! ## The bodies of the operations -/

/-- Everything a completed `probe` is. -/
theorem probeBody_cases {ioBase : Word} {phyAddr : Int} {s t : State} {r : Result} (h : probeBody ioBase phyAddr s = .ok r t) :
    s.ctx.probed = false ∧ BaseOk ioBase ∧ r = .unit ∧
      t = { atStep (stepNo 2) s with
            ctx := { s.ctx with ioBase := some ioBase, phyAddr := some phyAddr, probed := true } } := by
  unfold probeBody at h
  split at h
  · cases h
  · next fresh =>
    unfold probeBase at h
    split at h
    · cases h
    · next aligned =>
      unfold probeWindow at h
      split at h
      · cases h
      · next fits =>
        rw [windowBytes] at fits
        cases h
        exact ⟨by simpa using fresh, ⟨by omega, by omega⟩, rfl, by rw [atStep_atStep, atStep_ctx]⟩

/-- The ring has a depth once the REFERENCE DEVICE has taken a write to RFCS (60_exceptions.md rule R305). -/
theorem regWrite_rfcs_depth {k : StepIndex} {s t : State} {v : Word} (h : regWrite k offRfcs v s = .ok () t)
    (hm : s.cfg.deviceMode = .reference) : t.dev.depth.isSome = true := by
  obtain ⟨base, r, u, w, -, hr, hu, hw, rfl⟩ := regWrite_cases h
  obtain rfl : WriteReg.rfcs = r := Mapped.at.inj (mapWrite_rfcs.symm.trans hr)
  have hmu : u.cfg.deviceMode = .reference := by rw [(othersTurn_carries hu).cfg]; exact hm
  rw [logAccess_dev]
  exact deviceWrite_depth hw (.inr ⟨hmu, rfl⟩)

theorem probeBody_contextMoves {ioBase : Word} {phyAddr : Int} {s t : State} {r : Result}
    (h : probeBody ioBase phyAddr s = .ok r t) : ContextMoves s t := by
  obtain ⟨fresh, ok, -, rfl⟩ := probeBody_cases h
  exact .probed ioBase phyAddr fresh ok

theorem resolveBody_contextMoves {s t : State} {r : Result} (h : resolveBody s = .ok r t) : ContextMoves s t := by
  obtain ⟨m, u, hu, h⟩ := andThen_eq_ok.mp h
  cases h
  obtain ⟨-, hctx, probed⟩ := resolveMac_carries hu
  unfold ContextMoves
  rw [hctx]
  exact .resolved m probed

theorem startBody_contextMoves {s t : State} {r : Result} (h : startBody s = .ok r t) : ContextMoves s t := by
  obtain ⟨m, s1, s2, h1, h2, -, rfl⟩ := startBody_cases h
  obtain ⟨c, -, probed⟩ := resolveMac_carries h1
  have ring (hm : s.cfg.deviceMode = .reference) : s2.dev.depth.isSome = true :=
    regWrite_rfcs_depth h2 (by rw [c.cfg]; exact hm)
  exact .started m probed ring

/-! ## Whole operations -/

/-- Entering an operation and returning from it leave the context to the operation's body. -/
theorem runOp_contextMoves {op : Op} {body : State → Answer Result} {s t : State}
    (moves : ∀ {a b : State} {r : Result}, body a = .ok r b → ContextMoves a b) (h : runOp op body s = .next t) :
    ContextMoves s t := by
  obtain ⟨r, u, hu, rfl⟩ := runOp_cases h
  have body_moves : ContextMoves (entered op s) u := moves hu
  exact body_moves

theorem hostCall_contextMoves {op : Op} {body : State → Answer Result} {s t : State}
    (moves : ∀ {a b : State} {r : Result}, body a = .ok r b → ContextMoves a b) (h : hostCall op body s = .next t) :
    ContextMoves s t :=
  runOp_contextMoves moves ((hostCall_idle (hostCall_cases h).1).symm.trans h)

theorem busRead_contextMoves {off : Nat} {via : Via} {s t : State} (h : busRead off via s = .next t) : ContextMoves s t := by
  refine runOp_contextMoves (fun hb => ?_) h
  obtain ⟨v, u, hu, hv⟩ := andThen_eq_ok.mp hb
  cases hv
  exact .ofKept (readVia_carries hu).2

theorem busWrite_contextMoves {off : Nat} {v : Word} {via : Via} {s t : State} (h : busWrite off v via s = .next t) :
    ContextMoves s t := by
  refine runOp_contextMoves (fun hb => ?_) h
  obtain ⟨_, u, hu, hv⟩ := andThen_eq_ok.mp hb
  cases hv
  exact .ofKept (writeVia_carries hu).2

theorem classifyAs_contextMoves {etype : BitVec 16} {s t : State} (h : classifyAs etype s = .next t) : ContextMoves s t := by
  refine runOp_contextMoves (fun hb => ?_) h
  cases hb
  exact .ofKept rfl

theorem exec_contextMoves {i : Instr} {s t : State} (h : exec i s = .next t) : ContextMoves s t := by
  cases i with
  | probe ioBase phyAddr => exact hostCall_contextMoves probeBody_contextMoves h
  | start => exact hostCall_contextMoves startBody_contextMoves h
  | init => exact hostCall_contextMoves startBody_contextMoves h
  | send frame length =>
    refine hostCall_contextMoves (fun hb => ?_) h
    obtain ⟨-, hctx, -⟩ := sendBody_carries hb
    exact .ofKept hctx
  | recv =>
    refine hostCall_contextMoves (fun hb => ?_) h
    obtain ⟨-, hctx, -⟩ := recvBody_carries hb
    exact .ofKept hctx
  | stop => exact hostCall_contextMoves (fun hb => .ofKept (by rw [stopBody_eq hb])) h
  | hwaddr => exact hostCall_contextMoves resolveBody_contextMoves h
  | resolve => exact runOp_contextMoves resolveBody_contextMoves h
  | classify | classifyIPv4 | classifyARP | classifyIPv6 | classifyUnknown => exact classifyAs_contextMoves h
  | macloR | machiR | tplrR | mdioctrlR | rfcsR | rsrR | rbadR | rplrR | rxbuffR => exact busRead_contextMoves h
  | machiW | tplrW | tfcsW | mdioctrlW | rfcsW | rsrW | txbuffW => exact busWrite_contextMoves h

theorem runRequest_contextMoves {r : Request} {s t : State} (h : runRequest r s = .next t) : ContextMoves s t := by
  unfold runRequest at h
  split at h
  · exact exec_contextMoves h
  · unfold rejectRequest at h
    split at h
    · cases h
    · cases h
    · exact busRead_contextMoves h
    · exact busWrite_contextMoves h

/-! ## Steps -/

theorem step_contextMoves {s t : State} (h : step s = .next t) : ContextMoves s t := by
  unfold step at h
  split at h
  · cases h
    exact .ofKept (deviceMove_ctx .txDone s)
  · next d rest _ =>
    cases h
    exact .ofKept (by rw [deviceMove_ctx])
  · next r rest _ =>
    have run : ContextMoves { s with agenda := rest } t := runRequest_contextMoves h
    exact run

theorem Returned.position {op : Op} {s t : State} (h : Returned op s t) : t.position = s.position := by
  obtain ⟨r, u, -, rfl⟩ := h
  rfl

theorem Returned.device {op : Op} {s t : State} (h : Returned op s t) (ok : DeviceOk s.dev) : DeviceOk t.dev := by
  obtain ⟨r, u, c, rfl⟩ := h
  exact c.device ok

theorem Returned.depth {op : Op} {s t : State} (h : Returned op s t) (hd : s.dev.depth.isSome = true) :
    t.dev.depth.isSome = true := by
  obtain ⟨r, u, c, rfl⟩ := h
  exact c.depth hd

/-- A step ends where it began: between steps the CORE's position does not change (10_state.md rule R33). -/
theorem step_position {s t : State} (h : step s = .next t) : t.position = s.position := by
  obtain ⟨-, rfl⟩ | ⟨d, rest, -, rfl⟩ | ⟨r, rest, op, -, ho⟩ := step_cases h
  · rw [idleTurn, deviceMove_eq]
  · rw [deviceMove_eq]
  · exact ho.position

theorem step_device {s t : State} (h : step s = .next t) (ok : DeviceOk s.dev) : DeviceOk t.dev := by
  obtain ⟨-, rfl⟩ | ⟨d, rest, -, rfl⟩ | ⟨r, rest, op, -, ho⟩ := step_cases h
  · exact deviceMove_ok .txDone s ok
  · exact deviceMove_ok d _ ok
  · exact ho.device ok

/-- No step unsets the depth of the ring. -/
theorem step_depth {s t : State} (h : step s = .next t) (hd : s.dev.depth.isSome = true) : t.dev.depth.isSome = true := by
  obtain ⟨-, rfl⟩ | ⟨d, rest, -, rfl⟩ | ⟨r, rest, op, -, ho⟩ := step_cases h
  · rw [idleTurn, deviceMove_depth]; exact hd
  · rw [deviceMove_depth]; exact hd
  · exact ho.depth hd

/-- Settles O52: position and parameters stay, the DEVICE stays sound, and each move of the context keeps it consistent; the one
that sets `started` comes after the write that sets the depth. -/
theorem stepKeepsInvariant : Obligations.StepKeepsInvariant := by
  intro s t ⟨hidle, hcfg, hctx, hdev, hstarted⟩ h
  have cfg : t.cfg = s.cfg := stepKeepsConfiguration s t h
  have moves : ContextMoves s t := step_contextMoves h
  refine ⟨(step_position h).trans hidle, by rw [cfg]; exact hcfg, moves.ctxOk hctx, step_device h hdev, fun hm ht => ?_⟩
  rw [cfg] at hm
  obtain hs | hdepth := moves.started_or_depth ht hm
  · exact step_depth h (hstarted hm hs)
  · exact hdepth

/-! ## Reset -/

theorem ctxOk_reset : CtxOk Ctx.reset := ⟨rfl, rfl, nofun, nofun, nofun, nofun⟩

/-- A ring whose depth is unset is sound, whatever its pointers hold (60_exceptions.md rule R310). -/
theorem deviceOk_reset : DeviceOk Device.reset := ⟨nofun, reset_memory_wf, nofun⟩

/-- Settles O51: a fresh context, an unset ring and an empty buffer memory, with the default parameters. -/
theorem resetMeetsInvariant : Obligations.ResetMeetsInvariant :=
  ⟨rfl, rfl, ctxOk_reset, deviceOk_reset, nofun⟩

/-! ## Before `probe` -/

/-- Without a base no read gets as far as its offset (log 39). -/
theorem readVia_notProbed {via : Via} {off : Nat} {s : State} (hb : s.ctx.ioBase = none) :
    readVia via off s = .stop (.notProbed (currentOp s)) := by
  cases via <;> simp [readVia, accessRead, regRead, withBase, hb]

theorem writeVia_notProbed {via : Via} {off : Nat} {v : Word} {s : State} (hb : s.ctx.ioBase = none) :
    writeVia via off v s = .stop (.notProbed (currentOp s)) := by
  cases via <;> simp [writeVia, accessWrite, regWrite, withBase, hb]

theorem busRead_notProbed {off : Nat} {via : Via} {s : State} (hb : s.ctx.ioBase = none) :
    busRead off via s = .fault (.notProbed .access) :=
  runOp_stop (by
    rw [readVia_notProbed (s := atStep (stepNo 1) (entered .access s)) hb, andThen_stop, currentOp_atStep, entered_currentOp])

theorem busWrite_notProbed {off : Nat} {v : Word} {via : Via} {s : State} (hb : s.ctx.ioBase = none) :
    busWrite off v via s = .fault (.notProbed .access) :=
  runOp_stop (by
    rw [writeVia_notProbed (s := atStep (stepNo 1) (entered .access s)) hb, andThen_stop, currentOp_atStep, entered_currentOp])

/-- Settles O50: the context at reset is the fresh one, and a bus row is one access, which looks for the base first. -/
theorem resetContextIsUnprobed : Obligations.ResetContextIsUnprobed := by
  refine ⟨rfl, rfl, fun i s hrow hb => ⟨.access, ?_⟩⟩
  obtain hread | hwrite := hrow
  · obtain ⟨⟨off, r, via⟩, hr⟩ := Option.isSome_iff_exists.mp hread
    rw [(readRow_exec hr s).1]
    exact busRead_notProbed hb
  · obtain ⟨⟨off, r, v⟩, hw⟩ := Option.isSome_iff_exists.mp hwrite
    rw [(writeRow_exec hw s).1]
    exact busWrite_notProbed hb

end Sys2Proof.Machine
end

section
/-! Which offsets select a register (20_memory.md rules R71, R73), and that an access at any other offset faults. -/

namespace Sys2Proof.Machine

open Sys2Proof

/-! ## What a row of the address decode can select -/

/-- A word that a row hits lies between the row's match, where every bit outside the mask is clear, and the word in which each of
them is set. -/
theorem hits_range {row : BusRow} {q : BitVec 16} (h : row.hits q = true) :
    row.mtch.toNat ≤ q.toNat ∧ q.toNat ≤ row.mtch.toNat + (~~~row.mask).toNat := by
  have masked : q &&& row.mask = row.mtch := by simpa [BusRow.hits] using h
  have disjoint : row.mtch &&& (q &&& ~~~row.mask) = 0#16 := by
    rw [← masked]
    ext k hk
    cases hm : row.mask[k] <;> simp [hm]
  have split : q = row.mtch + (q &&& ~~~row.mask) := by
    rw [BitVec.add_eq_or_of_and_eq_zero _ _ disjoint, ← masked, ← BitVec.and_or_distrib_left, BitVec.or_not_self,
      BitVec.and_allOnes]
  have low : (q &&& row.mask).toNat ≤ q.toNat := Nat.and_le_left
  have free : (q &&& ~~~row.mask).toNat ≤ (~~~row.mask).toNat := Nat.and_le_right
  have sum : q.toNat ≤ row.mtch.toNat + (q &&& ~~~row.mask).toNat := by
    conv_lhs => rw [split]
    rw [BitVec.toNat_add]
    exact Nat.mod_le _ _
  rw [masked] at low
  exact ⟨low, sum.trans (Nat.add_le_add_left free _)⟩

/-- A word that selects a register is one that a row hits. -/
theorem decodeBusWord_row {q : BitVec 16} {t : BusTarget} (h : decodeBusWord q = some t) :
    ∃ row ∈ busTable, row.hits q = true ∧ row.build q = t := by
  obtain ⟨row, hfind, hbuild⟩ := Option.map_eq_some_iff.mp h
  exact ⟨row, List.mem_of_find?_eq_some hfind, List.find?_some (p := fun row : BusRow => row.hits q) hfind, hbuild⟩

/-- The words of a row that reads are readable offsets. -/
theorem readable_of_row {row : BusRow} (hrow : row ∈ busTable) {q : BitVec 16} {r : ReadReg} (hbuild : row.build q = .rd r)
    {n : Nat} (range : row.mtch.toNat ≤ n ∧ n ≤ row.mtch.toNat + (~~~row.mask).toNat) : readable n := by
  simp only [busTable, List.mem_cons, List.not_mem_nil, or_false] at hrow
  obtain rfl | rfl | rfl | rfl | rfl | rfl | rfl | rfl | rfl | rfl | rfl | rfl | rfl | rfl | rfl | rfl := hrow <;>
    simp [readable] at hbuild range ⊢ <;> omega

/-- The words of a row that writes are, less bit 15, writable offsets. -/
theorem writable_of_row {row : BusRow} (hrow : row ∈ busTable) {q : BitVec 16} {r : WriteReg} (hbuild : row.build q = .wr r)
    {n : Nat} (range : row.mtch.toNat ≤ n ∧ n ≤ row.mtch.toNat + (~~~row.mask).toNat) : writable (n - 0x8000) := by
  simp only [busTable, List.mem_cons, List.not_mem_nil, or_false] at hrow
  obtain rfl | rfl | rfl | rfl | rfl | rfl | rfl | rfl | rfl | rfl | rfl | rfl | rfl | rfl | rfl | rfl := hrow <;>
    simp [writable] at hbuild range ⊢ <;> omega

theorem readable_of_decodeBusWord {q : BitVec 16} {r : ReadReg} (h : decodeBusWord q = some (.rd r)) : readable q.toNat := by
  obtain ⟨row, hrow, hhits, hbuild⟩ := decodeBusWord_row h
  exact readable_of_row hrow hbuild (hits_range hhits)

theorem writable_of_decodeBusWord {q : BitVec 16} {r : WriteReg} (h : decodeBusWord q = some (.wr r)) :
    writable (q.toNat - 0x8000) := by
  obtain ⟨row, hrow, hhits, hbuild⟩ := decodeBusWord_row h
  exact writable_of_row hrow hbuild (hits_range hhits)

theorem busWord_read_toNat {off : Nat} (h : off < 0x8000) : (busWord .read off).toNat = off :=
  Nat.mod_eq_of_lt (by omega)

theorem busWord_write_toNat {off : Nat} (h : off < 0x8000) : (busWord .write off).toNat = 0x8000 + off := by
  have bit15 : 2 ^ 15 * 1 + off = 2 ^ 15 * 1 ||| off := Nat.two_pow_add_eq_or_of_lt h 1
  rw [busWord, BitVec.toNat_or, BitVec.toNat_ofNat (x := off), Nat.mod_eq_of_lt (by omega)]
  exact bit15.symm

/-! ## The mapping of an offset -/

theorem mapRead_misaligned {off : Nat} (h : off % 8 ≠ 0) : mapRead off = .bad .misaligned := if_pos h

theorem mapWrite_misaligned {off : Nat} (h : off % 8 ≠ 0) : mapWrite off = .bad .misaligned := if_pos h

/-- An aligned offset selects a register to read, and is then readable, or it is unmapped. -/
theorem mapRead_aligned {off : Nat} (h : off % 8 = 0) :
    (∃ r, mapRead off = .at r ∧ readable off) ∨ mapRead off = .bad .unmapped := by
  unfold mapRead
  rw [if_neg (by omega)]
  split
  · exact .inr rfl
  · next hlt =>
    split
    · next r hr =>
      have hread := readable_of_decodeBusWord hr
      rw [busWord_read_toNat (by omega)] at hread
      exact .inl ⟨r, rfl, hread⟩
    · exact .inr rfl

/-- An aligned offset selects a register to write, and is then writable, or it is unmapped. -/
theorem mapWrite_aligned {off : Nat} (h : off % 8 = 0) :
    (∃ r, mapWrite off = .at r ∧ writable off) ∨ mapWrite off = .bad .unmapped := by
  unfold mapWrite
  rw [if_neg (by omega)]
  split
  · exact .inr rfl
  · next hlt =>
    split
    · next r hr =>
      have hwrite := writable_of_decodeBusWord hr
      rw [busWord_write_toNat (by omega), Nat.add_sub_cancel_left] at hwrite
      exact .inl ⟨r, rfl, hwrite⟩
    · exact .inr rfl

theorem mapRead_unmapped {off : Nat} (h : off % 8 = 0) (hn : ¬ readable off) : mapRead off = .bad .unmapped :=
  (mapRead_aligned h).resolve_left fun ⟨_, _, hr⟩ => hn hr

theorem mapWrite_unmapped {off : Nat} (h : off % 8 = 0) (hn : ¬ writable off) : mapWrite off = .bad .unmapped :=
  (mapWrite_aligned h).resolve_left fun ⟨_, _, hw⟩ => hn hw

/-- An offset that selects a register to read is readable. -/
theorem readable_of_mapRead {off : Nat} {r : ReadReg} (h : mapRead off = .at r) : readable off := by
  by_contra hn
  by_cases ha : off % 8 = 0
  · cases h.symm.trans (mapRead_unmapped ha hn)
  · cases h.symm.trans (mapRead_misaligned ha)

/-- An offset that selects a register to write is writable. -/
theorem writable_of_mapWrite {off : Nat} {r : WriteReg} (h : mapWrite off = .at r) : writable off := by
  by_contra hn
  by_cases ha : off % 8 = 0
  · cases h.symm.trans (mapWrite_unmapped ha hn)
  · cases h.symm.trans (mapWrite_misaligned ha)

/-- Every aligned readable offset is one of the fixed ones, a slot's RPLR or a word of a slot's RXBUFF. -/
theorem mapRead_readable {off : Nat} (h : off % 8 = 0) (hr : readable off) : ∃ r, mapRead off = .at r := by
  obtain hfixed | hrplr | hrxbuff := hr
  · simp only [List.mem_cons, List.not_mem_nil, or_false] at hfixed
    obtain rfl | rfl | rfl | rfl | rfl | rfl | rfl := hfixed
    exacts [⟨_, mapRead_maclo⟩, ⟨_, mapRead_machi⟩, ⟨_, mapRead_tplr⟩, ⟨_, mapRead_mdioctrl⟩, ⟨_, mapRead_rfcs⟩,
      ⟨_, mapRead_rsr⟩, ⟨_, mapRead_rbad⟩]
  · obtain ⟨slot, hslot, rfl⟩ : ∃ slot < 8, off = 0x0840 + 8 * slot := ⟨(off - 0x0840) / 8, by omega, by omega⟩
    exact ⟨_, mapRead_rplr slot hslot⟩
  · obtain ⟨slot, k, hslot, hk, rfl⟩ : ∃ slot k, slot < 8 ∧ k < 256 ∧ off = 0x4000 + 0x800 * slot + 8 * k :=
      ⟨(off - 0x4000) / 0x800, off % 0x800 / 8, by omega, by omega, by omega⟩
    exact ⟨_, mapRead_rxbuff slot k hslot hk⟩

/-- Every aligned writable offset is one of the fixed ones or a word of TXBUFF. -/
theorem mapWrite_writable {off : Nat} (h : off % 8 = 0) (hw : writable off) : ∃ r, mapWrite off = .at r := by
  obtain hfixed | htxbuff := hw
  · simp only [List.mem_cons, List.not_mem_nil, or_false] at hfixed
    obtain rfl | rfl | rfl | rfl | rfl | rfl := hfixed
    exacts [⟨_, mapWrite_machi⟩, ⟨_, mapWrite_tplr⟩, ⟨_, mapWrite_tfcs⟩, ⟨_, mapWrite_mdioctrl⟩, ⟨_, mapWrite_rfcs⟩,
      ⟨_, mapWrite_rsr⟩]
  · obtain ⟨k, hk, rfl⟩ : ∃ k < 256, off = 0x1000 + 8 * k := ⟨(off - 0x1000) / 8, by omega, by omega⟩
    exact ⟨_, mapWrite_txbuff k hk⟩

/-- Settles O5: the rows of the address decode stay within the ranges, and the fixed offsets, RPLR and the buffers fill them. -/
theorem offsetsSelectTheMappedRegisters : Obligations.OffsetsSelectTheMappedRegisters := by
  refine ⟨fun off h => ⟨mapRead_misaligned h, mapWrite_misaligned h⟩, fun off => mapRead_unmapped, fun off => mapWrite_unmapped,
    fun i off r via h => ?_, fun i off r v h => ?_, fun off => mapRead_readable, fun off => mapWrite_writable⟩
  · have selects : mapRead off = .at r := (readRow_exec h State.reset).2
    exact ⟨selects, readable_of_mapRead selects⟩
  · obtain ⟨-, selects, -⟩ := writeRow_exec h State.reset
    exact ⟨selects, writable_of_mapWrite selects⟩

/-! ## Accesses at an offset that selects no register -/

/-- A read of any kind faults there, unless the diagnostic build rejects it first, which it does at aligned offsets alone. -/
theorem readVia_fault {via : Via} {off : Nat} {s : State} {base : Word} {e : MapError} (hb : s.ctx.ioBase = some base)
    (hm : mapRead off = .bad e) (h : off % 8 ≠ 0 ∨ s.cfg.diagBuild = false ∨ off < 0x4000 ∨ via = .copy) :
    readVia via off s = .stop (mapFault e off) := by
  have bare : regRead (stepNo 3) off s = .stop (mapFault e off) := by simp [regRead, withBase, hb, hm]
  obtain ha | hbare := h
  · cases via with
    | copy => exact bare
    | control =>
      cases (mapRead_misaligned ha).symm.trans hm
      simp [readVia, accessRead, withBase, hb, ha, mapFault]
  · rw [readVia_bare hb hbare, bare]

/-- A write of any kind faults there, unless the diagnostic build rejects it first, which it does at aligned offsets alone. -/
theorem writeVia_fault {via : Via} {off : Nat} {s : State} {base v : Word} {e : MapError} (hb : s.ctx.ioBase = some base)
    (hm : mapWrite off = .bad e) (h : off % 8 ≠ 0 ∨ s.cfg.diagBuild = false ∨ off < 0x4000 ∨ via = .copy) :
    writeVia via off v s = .stop (mapFault e off) := by
  have bare : regWrite (stepNo 3) off v s = .stop (mapFault e off) := by simp [regWrite, withBase, hb, hm]
  obtain ha | hbare := h
  · cases via with
    | copy => exact bare
    | control =>
      cases (mapWrite_misaligned ha).symm.trans hm
      simp [writeVia, accessWrite, withBase, hb, ha, mapFault]
  · rw [writeVia_bare hb hbare, bare]

/-- A request that stands for a read there decodes to no instruction, and runs as the read it would have been. -/
theorem runRequest_read_fault {q : Request} {via : Via} {off : Nat} {s : State} {base : Word} {e : MapError}
    (hd : decode q = decodeRead off via) (hb : s.ctx.ioBase = some base) (hm : mapRead off = .bad e)
    (h : off % 8 ≠ 0 ∨ s.cfg.diagBuild = false ∨ off < 0x4000 ∨ via = .copy) :
    runRequest q s = .fault (mapFault e off) := by
  have run : runRequest q s = busRead off via s := by simp [runRequest, hd, decodeRead, hm, rejectRequest]
  rw [run]
  refine runOp_stop ?_
  rw [readVia_fault (s := atStep (stepNo 1) (entered .access s)) hb hm h, andThen_stop]

/-- A request that stands for a write there decodes to no instruction, and runs as the write it would have been. -/
theorem runRequest_write_fault {q : Request} {via : Via} {off : Nat} {s : State} {base v : Word} {e : MapError}
    (hd : decode q = decodeWrite off v via) (hb : s.ctx.ioBase = some base) (hm : mapWrite off = .bad e)
    (h : off % 8 ≠ 0 ∨ s.cfg.diagBuild = false ∨ off < 0x4000 ∨ via = .copy) :
    runRequest q s = .fault (mapFault e off) := by
  have run : runRequest q s = busWrite off 0 via s := by simp [runRequest, hd, decodeWrite, hm, rejectRequest]
  rw [run]
  refine runOp_stop ?_
  rw [writeVia_fault (s := atStep (stepNo 1) (entered .access s)) hb hm h, andThen_stop]

theorem decode_bus_read {q : BitVec 16} (v : Word) (h : q.getLsbD 15 = false) :
    decode (.bus q v) = decodeRead (q.extractLsb' 0 15).toNat .copy := by
  rw [decode, h]
  rfl

theorem decode_bus_write {q : BitVec 16} (v : Word) (h : q.getLsbD 15 = true) :
    decode (.bus q v) = decodeWrite (q.extractLsb' 0 15).toNat v .copy := by
  rw [decode, h]
  rfl

/-- Settles O20: a call of the accessor and a bus-request word are each a read or a write, at an offset that selects no register. -/
theorem unmappedAccessesFault : Obligations.UnmappedAccessesFault := by
  refine fun s base hb => ⟨fun dir off v => ⟨fun ha => ?_, fun ha hbare hdir hn => ?_, fun ha hbare hdir hn => ?_⟩,
    fun q off v hoff => ⟨fun ha => ?_, fun ha hdir hn => ?_, fun ha hdir hn => ?_⟩⟩
  · cases dir with
    | read => exact runRequest_read_fault rfl hb (mapRead_misaligned ha) (.inl ha)
    | write => exact runRequest_write_fault rfl hb (mapWrite_misaligned ha) (.inl ha)
  · subst hdir
    exact runRequest_read_fault (via := .control) rfl hb (mapRead_unmapped ha hn) (.inr (hbare.imp_right .inl))
  · subst hdir
    exact runRequest_write_fault (via := .control) rfl hb (mapWrite_unmapped ha hn) (.inr (hbare.imp_right .inl))
  · subst hoff
    cases hw : q.getLsbD 15 with
    | false => exact runRequest_read_fault (decode_bus_read v hw) hb (mapRead_misaligned ha) (.inl ha)
    | true => exact runRequest_write_fault (decode_bus_write v hw) hb (mapWrite_misaligned ha) (.inl ha)
  · subst hoff
    exact runRequest_read_fault (decode_bus_read v hdir) hb (mapRead_unmapped ha hn) (.inr (.inr (.inr rfl)))
  · subst hoff
    exact runRequest_write_fault (decode_bus_write v hdir) hb (mapWrite_unmapped ha hn) (.inr (.inr (.inr rfl)))

end Sys2Proof.Machine
end

section
/-! Decoding and encoding are inverse (30_encoding.md rules R100 to R103, R114): the address decode against the encoder's bus-request
words, and what a step does with a request. -/

namespace Sys2Proof.Machine

open Sys2Proof

/-! ## The rows of the address decode -/

/-- A word that a row hits agrees with the row's match on every field that the row's mask covers. -/
theorem hits_field {row : BusRow} {q : BitVec 16} (h : row.hits q = true) (lo w : Nat)
    (hm : row.mask.extractLsb' lo w = BitVec.allOnes w) : q.extractLsb' lo w = row.mtch.extractLsb' lo w := by
  have masked : q &&& row.mask = row.mtch := by simpa [BusRow.hits] using h
  rw [← masked, BitVec.extractLsb'_and, hm, BitVec.and_allOnes]

/-- Any two rows ask different values of a bit that both masks cover. -/
theorem busTable_pairwise_apart : busTable.Pairwise fun a b => a.mtch &&& b.mask ≠ b.mtch &&& a.mask := by
  simp [busTable]

theorem not_both_hit {a b : BusRow} (apart : a.mtch &&& b.mask ≠ b.mtch &&& a.mask) {q : BitVec 16} (ha : a.hits q = true) :
    b.hits q ≠ true := by
  intro hb
  have maskedA : q &&& a.mask = a.mtch := by simpa [BusRow.hits] using ha
  have maskedB : q &&& b.mask = b.mtch := by simpa [BusRow.hits] using hb
  refine apart ?_
  rw [← maskedA, ← maskedB, BitVec.and_assoc, BitVec.and_assoc, BitVec.and_comm a.mask]

/-- Settles O4: the earlier of two different rows excludes the later. -/
theorem busRowsExclusive : Obligations.BusRowsExclusive := by
  intro q m n a b hm hn ha hb
  obtain ⟨hmlt, rfl⟩ := List.getElem?_eq_some_iff.mp hm
  obtain ⟨hnlt, rfl⟩ := List.getElem?_eq_some_iff.mp hn
  have apart := List.pairwise_iff_getElem.mp busTable_pairwise_apart
  obtain hlt | heq | hgt := Nat.lt_trichotomy m n
  · exact absurd hb (not_both_hit (apart m n hmlt hnlt hlt) ha)
  · exact heq
  · exact absurd ha (not_both_hit (apart n m hnlt hmlt hgt) hb)

/-- No row takes an offset that is no multiple of 8. -/
theorem low_field_of_hits {row : BusRow} (hrow : row ∈ busTable) {q : BitVec 16} (h : row.hits q = true) :
    q.extractLsb' 0 3 = 0#3 := by
  have rows : ∀ row ∈ busTable, row.mask.extractLsb' 0 3 = BitVec.allOnes 3 ∧ row.mtch.extractLsb' 0 3 = 0#3 := by
    simp [busTable]
  obtain ⟨hmask, hmtch⟩ := rows row hrow
  rw [hits_field h 0 3 hmask, hmtch]

theorem decodeBusWord_aligned {q : BitVec 16} {t : BusTarget} (h : decodeBusWord q = some t) : q.toNat % 8 = 0 := by
  obtain ⟨row, hrow, hhits, -⟩ := decodeBusWord_row h
  simpa using congrArg BitVec.toNat (low_field_of_hits hrow hhits)

/-! ## The mapping of an offset and the bus-request word of the access -/

theorem mapRead_eq_at_iff {off : Nat} {r : ReadReg} (hoff : off < 0x8000) :
    mapRead off = .at r ↔ decodeBusWord (busWord .read off) = some (.rd r) := by
  constructor
  · intro h
    unfold mapRead at h
    split at h
    · cases h
    · rw [if_neg (by omega)] at h
      split at h
      · next hd => cases h; exact hd
      · cases h
  · intro h
    have aligned := decodeBusWord_aligned h
    rw [busWord_read_toNat hoff] at aligned
    simp [mapRead, aligned, hoff, h]

theorem mapWrite_eq_at_iff {off : Nat} {r : WriteReg} (hoff : off < 0x8000) :
    mapWrite off = .at r ↔ decodeBusWord (busWord .write off) = some (.wr r) := by
  constructor
  · intro h
    unfold mapWrite at h
    split at h
    · cases h
    · rw [if_neg (by omega)] at h
      split at h
      · next hd => cases h; exact hd
      · cases h
  · intro h
    have aligned := decodeBusWord_aligned h
    rw [busWord_write_toNat hoff] at aligned
    simp [mapWrite, show off % 8 = 0 by omega, hoff, h]

/-! ## A bus-request word and its offset -/

theorem bit15_eq (q : BitVec 16) : q.getLsbD 15 = decide (0x8000 ≤ q.toNat) := BitVec.msb_eq_decide q

theorem offset_toNat (q : BitVec 16) : (q.extractLsb' 0 15).toNat = q.toNat % 0x8000 := by simp

theorem busWord_offset_read {q : BitVec 16} (h : q.getLsbD 15 = false) : busWord .read (q.extractLsb' 0 15).toNat = q := by
  rw [bit15_eq, decide_eq_false_iff_not] at h
  apply BitVec.eq_of_toNat_eq
  rw [busWord_read_toNat (BitVec.isLt _), offset_toNat]
  omega

theorem busWord_offset_write {q : BitVec 16} (h : q.getLsbD 15 = true) : busWord .write (q.extractLsb' 0 15).toNat = q := by
  rw [bit15_eq, decide_eq_true_iff] at h
  apply BitVec.eq_of_toNat_eq
  rw [busWord_write_toNat (BitVec.isLt _), offset_toNat]
  omega

/-- Bit 15 of a word that selects a register to read is the direction of 30_encoding.md rule R102. -/
theorem bit15_of_decodeBusWord_rd {q : BitVec 16} {r : ReadReg} (h : decodeBusWord q = some (.rd r)) :
    q.getLsbD 15 = false := by
  have range := readable_of_decodeBusWord h
  simp only [readable, List.mem_cons, List.not_mem_nil, or_false] at range
  rw [bit15_eq, decide_eq_false_iff_not]
  omega

/-- See `bit15_of_decodeBusWord_rd`. -/
theorem bit15_of_decodeBusWord_wr {q : BitVec 16} {r : WriteReg} (h : decodeBusWord q = some (.wr r)) :
    q.getLsbD 15 = true := by
  have range := writable_of_decodeBusWord h
  simp only [writable, List.mem_cons, List.not_mem_nil, or_false] at range
  rw [bit15_eq, decide_eq_true_iff]
  omega

/-! ## The instruction a bus-request word stands for -/

/-- The instruction of a register selected by a bus-request word with the data `v` beside it: a read is bare (log 38). -/
def instrOfTarget (t : BusTarget) (v : Word) : Instr :=
  match t with
  | .rd r => instrOfRead r .copy
  | .wr r => instrOfWrite r v

/-- The word the encoder writes for that instruction. -/
def targetWord (t : BusTarget) : BitVec 16 := Laws.TableRow.wordOf (encode (instrOfTarget t 0))

/-- A bus-request word decodes through the address decode alone: bit 15 is the direction of the row it hits. -/
theorem decode_bus_iff {q : BitVec 16} {v : Word} {i : Instr} :
    decode (.bus q v) = .instr i ↔ ∃ t, decodeBusWord q = some t ∧ instrOfTarget t v = i := by
  have below : (q.extractLsb' 0 15).toNat < 0x8000 := BitVec.isLt _
  cases hdir : q.getLsbD 15 with
  | false =>
    have reads := fun r => mapRead_eq_at_iff (r := r) below
    rw [busWord_offset_read hdir] at reads
    rw [decode_bus_read v hdir, decodeRead]
    constructor
    · intro h
      split at h
      · next r hr => cases h; exact ⟨.rd r, (reads r).mp hr, rfl⟩
      · cases h
    · rintro ⟨t, ht, rfl⟩
      cases t with
      | rd r => rw [(reads r).mpr ht]; rfl
      | wr r => exact absurd (hdir.symm.trans (bit15_of_decodeBusWord_wr ht)) (by decide)
  | true =>
    have writes := fun r => mapWrite_eq_at_iff (r := r) below
    rw [busWord_offset_write hdir] at writes
    rw [decode_bus_write v hdir, decodeWrite]
    constructor
    · intro h
      split at h
      · next r hr => cases h; exact ⟨.wr r, (writes r).mp hr, rfl⟩
      · cases h
    · rintro ⟨t, ht, rfl⟩
      cases t with
      | wr r => rw [(writes r).mpr ht]; rfl
      | rd r => exact absurd (hdir.symm.trans (bit15_of_decodeBusWord_rd ht)) (by decide)

/-- The encoder writes the target's word, beside data from which the instruction is read back: none for a read. -/
theorem encode_instrOfTarget (t : BusTarget) (v : Word) :
    ∃ d, encode (instrOfTarget t v) = .bus (targetWord t) d ∧ instrOfTarget t d = instrOfTarget t v := by
  cases t with
  | rd r => exact ⟨0, by cases r <;> rfl, rfl⟩
  | wr r => exact ⟨v, by cases r <;> rfl, rfl⟩

theorem targetWord_rplr (slot : BitVec 3) : targetWord (.rd (.rplr slot)) = 0b0000100001#10 ++ slot ++ 0#3 := rfl

theorem targetWord_txbuff (index : BitVec 8) : targetWord (.wr (.txbuff index)) = 0b10010#5 ++ index ++ 0#3 := rfl

theorem targetWord_rxbuff (slot : BitVec 3) (index : BitVec 8) :
    targetWord (.rd (.rxbuff slot index)) = 0b01#2 ++ slot ++ index ++ 0#3 := rfl

theorem decodeBusWord_targetWord_txbuff (index : BitVec 8) :
    decodeBusWord (targetWord (.wr (.txbuff index))) = some (.wr (.txbuff index)) := by
  have htop : (0b10010#5 ++ index ++ 0#3).extractLsb' 11 5 = 0b10010#5 := by
    rw [BitVec.extractLsb'_append_eq_of_le (by decide), BitVec.extractLsb'_append_eq_left]
  have hindex : (0b10010#5 ++ index ++ 0#3).extractLsb' 3 8 = index := by
    rw [BitVec.extractLsb'_append_eq_of_le (by decide), BitVec.extractLsb'_append_eq_right]
  have hlow : (0b10010#5 ++ index ++ 0#3).extractLsb' 0 3 = 0#3 := BitVec.extractLsb'_append_eq_right
  rw [targetWord_txbuff, decodeBusWord_txbuff _ htop hlow, hindex]

theorem decodeBusWord_targetWord_rxbuff (slot : BitVec 3) (index : BitVec 8) :
    decodeBusWord (targetWord (.rd (.rxbuff slot index))) = some (.rd (.rxbuff slot index)) := by
  have htop : (0b01#2 ++ slot ++ index ++ 0#3).extractLsb' 14 2 = 0b01#2 := by
    rw [BitVec.extractLsb'_append_eq_of_le (by decide), BitVec.extractLsb'_append_eq_of_le (by decide),
      BitVec.extractLsb'_append_eq_left]
  have hslot : (0b01#2 ++ slot ++ index ++ 0#3).extractLsb' 11 3 = slot := by
    rw [BitVec.extractLsb'_append_eq_of_le (by decide), BitVec.extractLsb'_append_eq_of_le (by decide),
      BitVec.extractLsb'_append_eq_right]
  have hindex : (0b01#2 ++ slot ++ index ++ 0#3).extractLsb' 3 8 = index := by
    rw [BitVec.extractLsb'_append_eq_of_le (by decide), BitVec.extractLsb'_append_eq_right]
  have hlow : (0b01#2 ++ slot ++ index ++ 0#3).extractLsb' 0 3 = 0#3 := BitVec.extractLsb'_append_eq_right
  rw [targetWord_rxbuff, decodeBusWord_rxbuff _ htop hlow, hindex, hslot]

/-- The address decode selects the target of an encoded word. -/
theorem decodeBusWord_targetWord (t : BusTarget) : decodeBusWord (targetWord t) = some t := by
  cases t with
  | rd r =>
    cases r with
    | rplr slot => exact decodeBusWord_rplr slot
    | rxbuff slot index => exact decodeBusWord_targetWord_rxbuff slot index
    | _ => rfl
  | wr r =>
    cases r with
    | txbuff index => exact decodeBusWord_targetWord_txbuff index
    | _ => rfl

/-- A row without a field builds the target of its one word. -/
theorem targetWord_build_fixed {row : BusRow} (hrow : row ∈ busTable.take 13) {q : BitVec 16} (h : row.hits q = true) :
    targetWord (row.build q) = q := by
  obtain ⟨hmask, hword⟩ : row.mask = BitVec.allOnes 16 ∧ targetWord (row.build q) = row.mtch := by
    simp only [busTable, List.take, List.mem_cons, List.not_mem_nil, or_false] at hrow
    obtain rfl | rfl | rfl | rfl | rfl | rfl | rfl | rfl | rfl | rfl | rfl | rfl | rfl := hrow <;> exact ⟨rfl, rfl⟩
  have whole : q.extractLsb' 0 16 = row.mtch.extractLsb' 0 16 := hits_field h 0 16 (by rw [hmask]; rfl)
  rw [BitVec.extractLsb'_eq_self, BitVec.extractLsb'_eq_self] at whole
  rw [hword, whole]

theorem append_fields {a b c : Nat} (q : BitVec (a + b + c)) :
    q.extractLsb' (c + b) a ++ q.extractLsb' c b ++ q.extractLsb' 0 c = q := by
  rw [BitVec.extractLsb'_append_extractLsb'_eq_extractLsb' rfl,
    BitVec.extractLsb'_append_extractLsb'_eq_extractLsb' (Nat.zero_add c).symm, BitVec.extractLsb'_eq_self]

/-- The encoded word of what a row builds from a word it hits is that word: the mask covers every bit outside the fields. -/
theorem targetWord_build {row : BusRow} (hrow : row ∈ busTable) {q : BitVec 16} (h : row.hits q = true) :
    targetWord (row.build q) = q := by
  have hlow := low_field_of_hits hrow h
  rw [← List.take_append_drop 13 busTable, List.mem_append] at hrow
  obtain hfixed | hfield := hrow
  · exact targetWord_build_fixed hfixed h
  · simp only [busTable, List.drop, List.mem_cons, List.not_mem_nil, or_false] at hfield
    obtain rfl | rfl | rfl := hfield
    · have htop : q.extractLsb' 6 10 = 0b0000100001#10 := hits_field h 6 10 (by decide)
      rw [targetWord_rplr, ← htop, ← hlow]
      exact append_fields (a := 10) (b := 3) (c := 3) q
    · have htop : q.extractLsb' 11 5 = 0b10010#5 := hits_field h 11 5 (by decide)
      rw [targetWord_txbuff, ← htop, ← hlow]
      exact append_fields (a := 5) (b := 8) (c := 3) q
    · have htop : q.extractLsb' 14 2 = 0b01#2 := hits_field h 14 2 (by decide)
      rw [targetWord_rxbuff, ← htop, ← hlow, BitVec.extractLsb'_append_extractLsb'_eq_extractLsb' (by decide)]
      exact append_fields (a := 5) (b := 8) (c := 3) q

/-- Settles O3: the word hits a row, and the encoder writes for what the row builds the word itself. -/
theorem encodeInvertsBusDecode : Obligations.EncodeInvertsBusDecode := by
  intro q v i h
  obtain ⟨t, ht, rfl⟩ := decode_bus_iff.mp h
  obtain ⟨row, hrow, hhits, rfl⟩ := decodeBusWord_row ht
  obtain ⟨d, hd, -⟩ := encode_instrOfTarget (row.build q) v
  exact ⟨d, by rw [hd, targetWord_build hrow hhits]⟩

/-! ## Decoding an encoding -/

theorem decode_encode_instrOfTarget (t : BusTarget) (v : Word) :
    decode (encode (instrOfTarget t v)) = .instr (instrOfTarget t v) := by
  obtain ⟨d, henc, hinstr⟩ := encode_instrOfTarget t v
  rw [henc]
  exact decode_bus_iff.mpr ⟨t, decodeBusWord_targetWord t, hinstr⟩

/-- The accessor's read of a word of RXBUFF is encoded as the call, whose offset selects that word. -/
theorem decode_encode_rxbuffR_control (slot : BitVec 3) (index : BitVec 8) :
    decode (encode (.rxbuffR slot index .control)) = .instr (.rxbuffR slot index .control) := by
  have selects : mapRead (0x4000 + 0x800 * slot.toNat + 8 * index.toNat) = .at (.rxbuff slot index) := by
    simpa using mapRead_rxbuff slot.toNat index.toNat slot.isLt index.isLt
  simp [encode, decode, decodeRead, selects, instrOfRead]

/-- The catch-all row is the last: a well-formed Ethertype of its own is one that no row before takes. -/
theorem decodeEthertype_classifyUnknown {e : BitVec 16} (h : (Instr.classifyUnknown e).wellFormed = true) :
    decodeEthertype e = .classifyUnknown e := by
  simp only [Instr.wellFormed, Bool.and_eq_true, bne_iff_ne] at h
  obtain ⟨⟨hipv4, harp⟩, hipv6⟩ := h
  rw [decodeEthertype, if_neg hipv4, if_neg harp, if_neg hipv6]

/-- Settles O2: layer by layer of 30_encoding.md rule R100; a bus request is the instruction of its target. -/
theorem decodeInvertsEncode : Obligations.DecodeInvertsEncode := by
  intro i hwf
  cases i with
  | probe | start | send | recv | stop | hwaddr | resolve | classify | init => rfl
  | macloR => exact decode_encode_instrOfTarget (.rd .maclo) 0
  | machiR => exact decode_encode_instrOfTarget (.rd .machi) 0
  | machiW v => exact decode_encode_instrOfTarget (.wr .machi) v
  | tplrR => exact decode_encode_instrOfTarget (.rd .tplr) 0
  | tplrW v => exact decode_encode_instrOfTarget (.wr .tplr) v
  | tfcsW v => exact decode_encode_instrOfTarget (.wr .tfcs) v
  | mdioctrlR => exact decode_encode_instrOfTarget (.rd .mdioctrl) 0
  | mdioctrlW v => exact decode_encode_instrOfTarget (.wr .mdioctrl) v
  | rfcsR => exact decode_encode_instrOfTarget (.rd .rfcs) 0
  | rfcsW v => exact decode_encode_instrOfTarget (.wr .rfcs) v
  | rsrR => exact decode_encode_instrOfTarget (.rd .rsr) 0
  | rsrW v => exact decode_encode_instrOfTarget (.wr .rsr) v
  | rbadR => exact decode_encode_instrOfTarget (.rd .rbad) 0
  | rplrR slot => exact decode_encode_instrOfTarget (.rd (.rplr slot)) 0
  | txbuffW index v => exact decode_encode_instrOfTarget (.wr (.txbuff index)) v
  | rxbuffR slot index via =>
    cases via with
    | copy => exact decode_encode_instrOfTarget (.rd (.rxbuff slot index)) 0
    | control => exact decode_encode_rxbuffR_control slot index
  | classifyIPv4 | classifyARP | classifyIPv6 => rfl
  | classifyUnknown e => exact congrArg Decoded.instr (decodeEthertype_classifyUnknown hwf)

/-- Settles O1: three operation codes, five bus-request words and an Ethertype, each decoded by evaluation. -/
theorem writtenWordsDecode : Obligations.WrittenWordsDecode := by
  unfold Obligations.WrittenWordsDecode
  decide

/-! ## The first request of the agenda -/

theorem step_request {s : State} {r : Request} {rest : List Event} (h : s.agenda = .request r :: rest) :
    step s = runRequest r { s with agenda := rest } := by
  rw [step, h]

/-- Settles O53: the step takes the request, and the request runs what it decodes to. -/
theorem stepRunsTheDecodedInstruction : Obligations.StepRunsTheDecodedInstruction := by
  intro s r rest i ha hd
  rw [step_request ha, runRequest, hd]

theorem runRequest_reject {r : Request} {s : State} {e : DecodeError} (h : decode r = .reject e) :
    runRequest r s = rejectRequest e s := by
  rw [runRequest, h]

theorem decodeHost_internal {code : BitVec 8} (h : code = 0x80 ∨ code = 0x81) (a : Args) :
    decodeHost code a = .reject (.internalCode code) := by
  obtain rfl | rfl := h <;> rfl

theorem decodeHost_invalid {code : BitVec 8} (h : code = 0 ∨ (7 ≤ code.toNat ∧ code.toNat ≤ 0x7F) ∨ 0x82 ≤ code.toNat)
    (a : Args) : decodeHost code a = .reject (.invalidCode code) := by
  have assigned : ∀ c ∈ [0x01#8, 0x02#8, 0x03#8, 0x04#8, 0x05#8, 0x06#8, 0x80#8, 0x81#8],
      ¬ (c = 0 ∨ (7 ≤ c.toNat ∧ c.toNat ≤ 0x7F) ∨ 0x82 ≤ c.toNat) := by decide
  have unassigned := fun c hc (e : code = c) => assigned c hc (e ▸ h)
  simp only [List.mem_cons, List.not_mem_nil, or_false, imp_false, forall_eq_or_imp, forall_eq] at unassigned
  simp [decodeHost, unassigned]

/-- Settles O6: the codes decode to a rejection, which names the refusal. -/
theorem reservedCodesRefused : Obligations.ReservedCodesRefused := by
  refine fun code a s rest ha => ⟨fun h => ?_, fun h => ?_⟩
  · rw [step_request ha, runRequest_reject (r := .host code a) (decodeHost_internal h a), rejectRequest]
  · rw [step_request ha, runRequest_reject (r := .host code a) (decodeHost_invalid h a), rejectRequest]

end Sys2Proof.Machine
end

section
/-! The computed operands (30_encoding.md rules R106 to R111). -/

namespace Sys2Proof.Machine

open Sys2Proof

/-! ## The error mask (30_encoding.md rule R106) -/

theorem errorMask_eq (slot : Nat) : errorMask slot = BitVec.twoPow 64 (slot % 8) ||| BitVec.twoPow 64 (slot % 8 + 8) := by
  have rows : ∀ k < 8, errMaskBase <<< k = BitVec.twoPow 64 k ||| BitVec.twoPow 64 (k + 8) := by decide
  exact rows (slot % 8) (Nat.mod_lt _ (by decide))

theorem errorMask_getLsbD (slot k : Nat) :
    (errorMask slot).getLsbD k = true ↔ k = slot % 8 ∨ k = slot % 8 + 8 := by
  rw [errorMask_eq, BitVec.getLsbD_or, BitVec.getLsbD_twoPow, BitVec.getLsbD_twoPow]
  simp only [Bool.or_eq_true, Bool.and_eq_true, decide_eq_true_eq]
  omega

theorem slotUsable_iff (rbad : Word) (slot : Nat) : slotUsable rbad slot = true ↔ rbad &&& errorMask slot = 0 :=
  beq_iff_eq

/-- A word meets no bit of a mask where it is clear at each of them. -/
theorem and_eq_zero_iff_bits {w : Nat} (x m : BitVec w) :
    x &&& m = 0 ↔ ∀ k, m.getLsbD k = true → x.getLsbD k = false := by
  constructor
  · intro h k hk
    have bit := congrArg (BitVec.getLsbD · k) h
    simpa [hk] using bit
  · intro h
    apply BitVec.eq_of_getLsbD_eq
    intro k _
    cases hm : m.getLsbD k with
    | false => simp [hm]
    | true => simp [h k hm]

theorem slotUsable_false_iff (rbad : Word) (slot : Nat) :
    slotUsable rbad slot = false ↔ rbad.getLsbD (slot % 8) = true ∨ rbad.getLsbD (slot % 8 + 8) = true := by
  rw [← Bool.not_eq_true, slotUsable_iff, and_eq_zero_iff_bits]
  simp only [errorMask_getLsbD, forall_eq_or_imp, forall_eq]
  rw [← Bool.not_eq_true, ← Bool.not_eq_true]
  tauto

/-- Settles O7: the mask is the union of its two bits, and a word meets it where it has one of them set. -/
theorem errorMaskTestsBothBits : Obligations.ErrorMaskTestsBothBits :=
  ⟨fun slot k _ => errorMask_getLsbD slot k, slotUsable_iff, slotUsable_false_iff, by decide⟩

/-! ## The lengths (30_encoding.md rules R108, R109) -/

/-- Settles O8: the bounds on the payload are those on the masked value, each moved by the 4 bytes of the FCS. -/
theorem payloadLengthRange : Obligations.PayloadLengthRange := by
  intro mask rplr
  have value : payloadLength mask rplr = ((rplr &&& mask).toNat : Int) - 4 := rfl
  refine ⟨value, ?_⟩
  rw [value]
  omega

theorem ceil8_eq_wordCount (n : Nat) : ceil8 n = 8 * wordCount n := by
  unfold wordCount ceil8
  omega

theorem le_ceil8 (n : Nat) : n ≤ ceil8 n := by
  unfold ceil8
  omega

theorem ceil8_lt (n : Nat) : ceil8 n < n + 8 := by
  unfold ceil8
  omega

/-- Settles O9: the model's rounding is the rule's formula. -/
theorem roundedLength : Obligations.RoundedLength :=
  ⟨fun n => ⟨rfl, rfl, le_ceil8 n, ceil8_lt n, ceil8_eq_wordCount n⟩, by decide⟩

/-! ## The MAC registers (30_encoding.md rules R110, R111) -/

theorem macOctets_eq {maclo machi : Word} {m0 m1 m2 m3 m4 m5 : Byte} (h0 : machi.extractLsb' 8 8 = m0)
    (h1 : machi.extractLsb' 0 8 = m1) (h2 : maclo.extractLsb' 24 8 = m2) (h3 : maclo.extractLsb' 16 8 = m3)
    (h4 : maclo.extractLsb' 8 8 = m4) (h5 : maclo.extractLsb' 0 8 = m5) :
    macOctets maclo machi = #v[m0, m1, m2, m3, m4, m5] := by
  subst h0 h1 h2 h3 h4 h5
  rfl

/-- Settles O10: an octet of an append is what is left of it once the octets below are dropped. -/
theorem macOctetsRoundTrip : Obligations.MacOctetsRoundTrip := by
  intro m0 m1 m2 m3 m4 m5 lo hi
  have h0 : (hi ++ m0 ++ m1).extractLsb' 8 8 = m0 := by
    rw [BitVec.extractLsb'_append_eq_of_le (by decide), BitVec.extractLsb'_append_eq_right]
  have h1 : (hi ++ m0 ++ m1).extractLsb' 0 8 = m1 := BitVec.extractLsb'_append_eq_right
  have h2 : (lo ++ m2 ++ m3 ++ m4 ++ m5).extractLsb' 24 8 = m2 := by
    rw [BitVec.extractLsb'_append_eq_of_le (by decide), BitVec.extractLsb'_append_eq_of_le (by decide),
      BitVec.extractLsb'_append_eq_of_le (by decide), BitVec.extractLsb'_append_eq_right]
  have h3 : (lo ++ m2 ++ m3 ++ m4 ++ m5).extractLsb' 16 8 = m3 := by
    rw [BitVec.extractLsb'_append_eq_of_le (by decide), BitVec.extractLsb'_append_eq_of_le (by decide),
      BitVec.extractLsb'_append_eq_right]
  have h4 : (lo ++ m2 ++ m3 ++ m4 ++ m5).extractLsb' 8 8 = m4 := by
    rw [BitVec.extractLsb'_append_eq_of_le (by decide), BitVec.extractLsb'_append_eq_right]
  have h5 : (lo ++ m2 ++ m3 ++ m4 ++ m5).extractLsb' 0 8 = m5 := BitVec.extractLsb'_append_eq_right
  exact macOctets_eq h0 h1 h2 h3 h4 h5

/-- Each reading is the register under a mask. -/
def writebackMask (mode : Writeback) : Word :=
  match mode with
  | .masked => 0xFFFF
  | .clearIrqOnly => ~~~(1#64 <<< machiIrqEnBit)

theorem writebackValue_eq_and (mode : Writeback) (machi : Word) : writebackValue mode machi = machi &&& writebackMask mode := by
  cases mode <;> rfl

theorem writebackValue_irqEn (mode : Writeback) (machi : Word) : (writebackValue mode machi).getLsbD 21 = false := by
  have clear : (writebackMask mode).getLsbD 21 = false := by cases mode <;> decide
  rw [writebackValue_eq_and, BitVec.getLsbD_and, clear, Bool.and_false]

theorem writebackValue_low (mode : Writeback) (machi : Word) :
    (writebackValue mode machi).extractLsb' 0 16 = machi.extractLsb' 0 16 := by
  have low : (writebackMask mode).extractLsb' 0 16 = BitVec.allOnes 16 := by cases mode <;> decide
  rw [writebackValue_eq_and, BitVec.extractLsb'_and, low, BitVec.and_allOnes]

/-- Settles O11: either mask clears bit 21 and covers bits 15:0. -/
theorem writebackClearsIrqEnable : Obligations.WritebackClearsIrqEnable :=
  fun machi => ⟨rfl, rfl, fun mode => ⟨writebackValue_irqEn mode machi, writebackValue_low mode machi⟩⟩

end Sys2Proof.Machine
end

section
/-! The bus requests and the accessor's calls as instructions of their own (40_register_access.md rules R140, R141, R145). -/

namespace Sys2Proof.Machine

open Sys2Proof

/-! ## The others' turn: what `afterOthers` leaves alone -/

@[simp] theorem afterOthers_cfg (s : State) : (afterOthers s).cfg = s.cfg := by rw [afterOthers_eq]
@[simp] theorem afterOthers_ctx (s : State) : (afterOthers s).ctx = s.ctx := by rw [afterOthers_eq]
@[simp] theorem afterOthers_script (s : State) : (afterOthers s).script = s.script := by rw [afterOthers_eq]
@[simp] theorem afterOthers_draws (s : State) : (afterOthers s).draws = s.draws := by rw [afterOthers_eq]
@[simp] theorem afterOthers_schedule (s : State) : (afterOthers s).schedule = s.schedule.tail := by rw [afterOthers_eq]
@[simp] theorem afterOthers_agenda (s : State) : (afterOthers s).agenda = s.agenda := by rw [afterOthers_eq]
@[simp] theorem afterOthers_trace (s : State) : (afterOthers s).trace = s.trace := by rw [afterOthers_eq]
@[simp] theorem afterOthers_bus (s : State) : (afterOthers s).bus = s.bus := by rw [afterOthers_eq]
@[simp] theorem afterOthers_returned (s : State) : (afterOthers s).returned = s.returned := by rw [afterOthers_eq]

theorem afterOthers_dev_abstr {s : State} (hm : s.cfg.deviceMode = .abstr) : (afterOthers s).dev = s.dev := by
  rw [afterOthers_abstr s hm]

/-! ## Reads -/

/-- Settles O13: a bus row is one read at its offset, and the read is performed in the state the others' turn leaves, where it
changes the draws alone (20_memory.md rule R81). -/
theorem readRequestsComplete : Obligations.ReadRequestsComplete := by
  intro i off r via hrow s base hb hq hbare
  obtain ⟨hexec, hmap⟩ := readRow_exec hrow s
  have scripted (hm : s.cfg.deviceMode = .abstr) (d : Word) (rest : List Word) (hs : s.script = d :: rest) :
      (deviceRead r (atAccess s)).1 = d ∧ (deviceRead r (atAccess s)).2.script = rest ∧
        (deviceRead r (atAccess s)).2.draws = s.draws := by
    simpa using deviceRead_scripted r (atAccess s) d rest (by simpa using hm) (by simpa using hs)
  refine ⟨_, (deviceRead r (atAccess s)).1, hexec.trans (busRead_next hb hmap hq hbare), ?_⟩
  simpa using scripted

/-! ## Writes -/

/-- The REFERENCE DEVICE takes a write that meets no transmission, and to RFCS a depth from 1 to 8 (60_exceptions.md rules R305,
R306). -/
theorem referenceWrite_completes {r : WriteReg} {v : Word} {s : State}
    (idle : meetsTransmission r = true → s.dev.txBusy = false) (depth : r = .rfcs → 1 ≤ v.toNat ∧ v.toNat ≤ 8) :
    ∃ t, referenceWrite r v s = .ok () t := by
  cases r with
  | machi | mdioctrl | rsr => exact ⟨_, rfl⟩
  | tplr | tfcs | txbuff => simp [referenceWrite, unlessBusy, idle rfl]
  | rfcs => exact ⟨_, if_pos (depth rfl)⟩

theorem deviceWrite_completes {r : WriteReg} {v : Word} {s : State} (h : Accepted s r v) :
    ∃ t, deviceWrite r v (atAccess s) = .ok () t := by
  cases hm : s.cfg.deviceMode with
  | abstr => exact ⟨atAccess s, by simp [deviceWrite, hm]⟩
  | reference =>
    obtain ⟨idle, depth⟩ := h hm
    obtain ⟨t, ht⟩ := referenceWrite_completes (s := atAccess s) idle depth
    exact ⟨t, by simp [deviceWrite, hm, ht]⟩

/-- Settles O15: a bus row is one write at its offset, below the receive window, and the DEVICE that takes it changes its own
state and the draw counter alone. -/
theorem writeRequestsComplete : Obligations.WriteRequestsComplete := by
  intro i off r v hrow s base hb hq haccepted
  obtain ⟨hexec, hmap, hlow⟩ := writeRow_exec hrow s
  obtain ⟨w, hw⟩ := deviceWrite_completes haccepted
  have frame : w = { atAccess s with dev := w.dev, draws := w.draws } := deviceWrite_eq hw
  have kept (hm : s.cfg.deviceMode = .abstr) : w.dev = s.dev := by
    rw [deviceWrite_abstr hw (by simpa using hm), atAccess_dev, afterOthers_dev_abstr hm]
  refine ⟨_, hexec.trans (busWrite_next hb hmap hq (.inr (.inl hlow)) hw), ?_⟩
  rw [frame]
  simpa using kept

/-! ## A call of the accessor is the access it names -/

/-- The word the encoder writes for a register determines the word that selects it. -/
theorem targetWord_of_decodeBusWord {q : BitVec 16} {t : BusTarget} (h : decodeBusWord q = some t) : targetWord t = q := by
  obtain ⟨row, hrow, hhits, rfl⟩ := decodeBusWord_row h
  exact targetWord_build hrow hhits

/-- No two offsets select one register to read. -/
theorem mapRead_offset_unique {a b : Nat} {r : ReadReg} (ha : mapRead a = .at r) (hb : mapRead b = .at r) : a = b := by
  have bound {off : Nat} (h : mapRead off = .at r) : off < 0x8000 := by
    have range := readable_of_mapRead h
    simp only [readable, List.mem_cons, List.not_mem_nil, or_false] at range
    omega
  have word {off : Nat} (h : mapRead off = .at r) : targetWord (.rd r) = busWord .read off :=
    targetWord_of_decodeBusWord ((mapRead_eq_at_iff (bound h)).mp h)
  calc a = (busWord .read a).toNat := (busWord_read_toNat (bound ha)).symm
    _ = (busWord .read b).toNat := by rw [← word ha, word hb]
    _ = b := busWord_read_toNat (bound hb)

theorem readRow_instrOfRead (r : ReadReg) : ∃ off, readRow (instrOfRead r .control) = some (off, r, .control) := by
  cases r <;> exact ⟨_, rfl⟩

/-- The row of the register that an offset selects reads at that offset. -/
theorem exec_instrOfRead {off : Nat} {r : ReadReg} (h : mapRead off = .at r) (s : State) :
    exec (instrOfRead r .control) s = busRead off .control s := by
  obtain ⟨off', hrow⟩ := readRow_instrOfRead r
  obtain ⟨hexec, hmap⟩ := readRow_exec hrow s
  rw [hexec, mapRead_offset_unique hmap h]

theorem runRequest_access_read (off : Nat) (v : Word) (s : State) :
    runRequest (.access .read off v) s = busRead off .control s := by
  match hm : mapRead off with
  | .at r => simp [runRequest, decode, decodeRead, hm, exec_instrOfRead hm]
  | .bad e => simp [runRequest, decode, decodeRead, hm, rejectRequest]

/-- At an offset that selects no register to write, the call decodes to no instruction and its data is dropped. -/
theorem runRequest_access_write {off : Nat} {e : MapError} (hm : mapWrite off = .bad e) (v : Word) (s : State) :
    runRequest (.access .write off v) s = busWrite off 0 .control s := by
  simp [runRequest, decode, decodeWrite, hm, rejectRequest]

/-! ## The diagnostic build (40_register_access.md rule R145) -/

theorem diagRejects_iff {off : Nat} {s : State} :
    diagRejects off s = true ↔ s.cfg.diagBuild = true ∧ off % 8 = 0 ∧ 0x4000 ≤ off := by
  rw [diagRejects, Bool.and_eq_true, decide_eq_true_iff, offRxbuff]

theorem accessRead_rejected {off : Nat} {s : State} {base : Word} (hb : s.ctx.ioBase = some base)
    (h : diagRejects off s = true) : accessRead off s = rejectedRead off (atStep (stepNo 2) s) := by
  obtain ⟨-, aligned, -⟩ := diagRejects_iff.mp h
  have rejects : diagRejects off (atStep (stepNo 2) s) = true := h
  simp [accessRead, checkedRead, withBase, hb, aligned, rejects]

theorem accessWrite_rejected {off : Nat} {v : Word} {s : State} {base : Word} (hb : s.ctx.ioBase = some base)
    (h : diagRejects off s = true) :
    accessWrite off v s = .ok () (record .registerOutOfRange (.offset off) (atStep (stepNo 2) s)) := by
  obtain ⟨-, aligned, -⟩ := diagRejects_iff.mp h
  have rejects : diagRejects off (atStep (stepNo 2) s) = true := h
  simp [accessWrite, checkedWrite, withBase, hb, aligned, rejects]

/-- The state of a call of the accessor that the diagnostic build has rejected at its step 2. -/
def rejectedAt (off : Nat) (s : State) : State :=
  record .registerOutOfRange (.offset off) (atStep (stepNo 2) (entered .access s))

/-- A rejected read returns a draw. -/
theorem busRead_rejected {off : Nat} {s : State} {base : Word} (hb : s.ctx.ioBase = some base)
    (h : diagRejects off s = true) :
    busRead off .control s =
      .next (returnTo s.position (.value (drawWord (rejectedAt off s)).1) (drawWord (rejectedAt off s)).2) := by
  refine runOp_ok ?_
  rw [readVia, accessRead_rejected (s := atStep (stepNo 1) (entered .access s)) hb h, atStep_atStep]
  rfl

theorem busWrite_rejected {off : Nat} {v : Word} {s : State} {base : Word} (hb : s.ctx.ioBase = some base)
    (h : diagRejects off s = true) :
    busWrite off v .control s = .next (returnTo s.position .unit (rejectedAt off s)) := by
  refine runOp_ok ?_
  rw [writeVia, accessWrite_rejected (s := atStep (stepNo 1) (entered .access s)) hb h, atStep_atStep]
  rfl

/-- A rejected call leaves one trace record, of the accessor (log 12). -/
theorem returnTo_rejectedAt (off : Nat) (r : Result) (s : State) :
    returnTo s.position r (rejectedAt off s) =
      { s with trace := s.trace ++ [⟨.registerOutOfRange, .access, .offset off⟩], returned := s.returned ++ [r] } := rfl

theorem not_writable_of_receive_window {off : Nat} (h : 0x4000 ≤ off) : ¬ writable off := by
  simp only [writable, List.mem_cons, List.not_mem_nil, or_false]
  omega

/-- Settles O21: the accessor's call runs as an access that the diagnostic build rejects, and a window copy's read is a bus row
like any other. -/
theorem diagnosticBuildRejects : Obligations.DiagnosticBuildRejects := by
  refine fun s base hb hdiag => ⟨fun off v aligned high => ?_, fun hq slot index => ?_⟩
  · have rejects : diagRejects off s = true := diagRejects_iff.mpr ⟨hdiag, aligned, high⟩
    have unmapped : mapWrite off = .bad .unmapped := mapWrite_unmapped aligned (not_writable_of_receive_window high)
    have read := (runRequest_access_read off v s).trans (busRead_rejected hb rejects)
    refine ⟨⟨_, (drawWord (rejectedAt off s)).1, read, ?_⟩, ?_⟩
    · rw [drawWord_eq]
      rfl
    · rw [runRequest_access_write unmapped, busWrite_rejected hb rejects, returnTo_rejectedAt]
  · obtain ⟨t, v, hexec, hbus, -, -, -, -, -, -, htrace, -⟩ :=
      readRequestsComplete (.rxbuffR slot index .copy) _ _ _ rfl s base hb hq (.inr (.inr rfl))
    exact ⟨t, v, hexec, hbus, htrace⟩

end Sys2Proof.Machine
end

section
/-! What no step undoes in a probed Device Context (40_register_access.md rule R142; 10_state.md rules R30, R31). -/

namespace Sys2Proof.Machine

open Sys2Proof

/-- Once probed, a context keeps its base, its PHY address and its lifecycle bits: the one move that sets the first two is from an
unprobed context. -/
theorem ContextMove.of_probed {mode : DeviceMode} {depth : Option Nat} {c d : Ctx} (h : ContextMove mode depth c d)
    (hp : c.probed = true) :
    d.ioBase = c.ioBase ∧ d.phyAddr = c.phyAddr ∧ d.probed = true ∧ (c.started = true → d.started = true) := by
  cases h with
  | kept => exact ⟨rfl, rfl, hp, id⟩
  | probed base phy fresh ok => exact absurd (fresh.symm.trans hp) Bool.false_ne_true
  | resolved m probed => exact ⟨rfl, rfl, hp, id⟩
  | started m probed ring => exact ⟨rfl, rfl, hp, fun _ => rfl⟩

/-- Settles O55: in a consistent context a base means that it is probed. -/
theorem baseNeverChanges : Obligations.BaseNeverChanges := by
  intro s t base ⟨_, _, ⟨hprobed, _⟩, _⟩ hb h
  have probed : s.ctx.probed = true := by rw [hprobed, hb]; rfl
  obtain ⟨hbase, hphy, hkept, hstarted⟩ := (step_contextMoves h).of_probed probed
  exact ⟨hbase.trans hb, hphy, hkept, hstarted⟩

end Sys2Proof.Machine
end

section
/-! The moves of the CORE inside an operation, said once, and the register accesses among them (10_state.md rule R45). -/

namespace Sys2Proof.Machine

open Sys2Proof

/-! ## Runs of an operation's moves -/

/-- One move of the CORE inside an operation, whose register accesses are those that `p` allows. The base of the window stays where
it is. -/
inductive CoreMove (p : Dir → Nat → Prop) : State → State → Prop where
  | read {k : StepIndex} {off : Nat} {s t : State} {v : Word} (allowed : p .read off) (h : regRead k off s = .ok v t) :
      CoreMove p s t
  | write {k : StepIndex} {off : Nat} {s t : State} {v : Word} (allowed : p .write off) (h : regWrite k off v s = .ok () t) :
      CoreMove p s t
  | step (k : StepIndex) (s : State) : CoreMove p s (atStep k s)
  | trace (kind : ErrorKind) (detail : Detail) (s : State) : CoreMove p s (record kind detail s)
  | seed (s : State) : CoreMove p s { s with draws := s.draws + 1 }
  | context (c : Ctx) (s : State) (base : c.ioBase = s.ctx.ioBase) : CoreMove p s { s with ctx := c }

/-- Moves of the CORE in a row. -/
abbrev CoreRun (p : Dir → Nat → Prop) : State → State → Prop := Relation.ReflTransGen (CoreMove p)

/-- The access is at the base plus an offset that `p` allows for its direction. -/
def AllowedAt (p : Dir → Nat → Prop) (ioBase : Option Word) (a : Access) : Prop :=
  ∃ base off, ioBase = some base ∧ a.addr = base + BitVec.ofNat 64 off ∧ p a.dir off

theorem CoreMove.ioBase {p : Dir → Nat → Prop} {s t : State} (h : CoreMove p s t) : t.ctx.ioBase = s.ctx.ioBase := by
  cases h with
  | read allowed h => rw [regRead_ctx h]
  | write allowed h => rw [regWrite_ctx h]
  | step | trace | seed => rfl
  | context c _ base => exact base

/-- What one move adds to the bus. -/
theorem CoreMove.bus {p : Dir → Nat → Prop} {s t : State} (h : CoreMove p s t) :
    ∃ as, t.bus = s.bus ++ as ∧ ∀ a ∈ as, AllowedAt p s.ctx.ioBase a := by
  cases h with
  | read allowed h =>
    obtain ⟨base, r, u, hb, -⟩ := regRead_cases h
    exact ⟨_, (regRead_after h hb).bus, List.forall_mem_singleton.mpr ⟨base, _, hb, rfl, allowed⟩⟩
  | write allowed h =>
    obtain ⟨base, r, u, w, hb, -⟩ := regWrite_cases h
    exact ⟨_, (regWrite_after h hb).bus, List.forall_mem_singleton.mpr ⟨base, _, hb, rfl, allowed⟩⟩
  | step | trace | seed | context => exact ⟨[], (List.append_nil _).symm, nofun⟩

/-- A run adds to the bus the accesses that `p` allows, and nothing else. -/
theorem CoreRun.bus {p : Dir → Nat → Prop} {s t : State} (h : CoreRun p s t) :
    ∃ as, t.bus = s.bus ++ as ∧ ∀ a ∈ as, AllowedAt p s.ctx.ioBase a := by
  induction h using Relation.ReflTransGen.head_induction_on with
  | refl => exact ⟨[], (List.append_nil _).symm, nofun⟩
  | head move _ ih =>
    obtain ⟨as, has, allowed⟩ := move.bus
    obtain ⟨bs, hbs, allowed'⟩ := ih
    rw [move.ioBase] at allowed'
    exact ⟨as ++ bs, by rw [hbs, has, List.append_assoc], List.forall_mem_append.mpr ⟨allowed, allowed'⟩⟩

theorem CoreRun.issued {p : Dir → Nat → Prop} {s t : State} (h : CoreRun p s t) : ∀ a ∈ issued s t, AllowedAt p s.ctx.ioBase a := by
  obtain ⟨as, has, allowed⟩ := h.bus
  rwa [Machine.issued, has, List.drop_left]

/-! ## Window copies -/

theorem fetchWords_run {p : Dir → Nat → Prop} {n : Nat} {k : StepIndex} {off : Nat} {s t : State} {ws : List Word}
    (allowed : ∀ j < n, p .read (off + 8 * j)) (h : fetchWords k off n s = .ok ws t) : CoreRun p s t := by
  induction n generalizing k off s ws with
  | zero => cases h; exact .refl
  | succ n ih =>
    obtain ⟨w, u, hu, hk⟩ := andThen_eq_ok.mp h
    obtain ⟨vs, x, hx, he⟩ := andThen_eq_ok.mp hk
    cases he
    have rest (j : Nat) (hj : j < n) : p .read (off + 8 + 8 * j) := by
      have := allowed (j + 1) (by omega)
      rwa [show off + 8 * (j + 1) = off + 8 + 8 * j by omega] at this
    exact .head (.read (allowed 0 (by omega)) hu) (ih rest hx)

theorem stageWords_run {p : Dir → Nat → Prop} {ws : List Word} {k : StepIndex} {off : Nat} {s t : State}
    (allowed : ∀ j < ws.length, p .write (off + 8 * j)) (h : stageWords k off ws s = .ok () t) : CoreRun p s t := by
  induction ws generalizing k off s with
  | nil => cases h; exact .refl
  | cons w ws ih =>
    obtain ⟨_, u, hu, hk⟩ := andThen_eq_ok.mp h
    have rest (j : Nat) (hj : j < ws.length) : p .write (off + 8 + 8 * j) := by
      have := allowed (j + 1) (by simpa using hj)
      rwa [show off + 8 * (j + 1) = off + 8 + 8 * j by omega] at this
    exact .head (.write (allowed 0 (by simp)) hu) (ih rest hk)

/-! ## The receive side -/

/-- The reads of one slot of the ring are allowed: RBAD, its RPLR, and the words of its window. -/
structure SlotAllowed (p : Dir → Nat → Prop) (slot : Nat) : Prop where
  rbad  : p .read offRbad
  rplr  : p .read (rplrOffset slot)
  words : ∀ j < 256, p .read (rxbuffOffset slot + 8 * j)

/-- The longest frame has 192 words. -/
theorem wordCount_le {n : Nat} (h : n ≤ 1536) : wordCount n ≤ 192 := by
  unfold wordCount ceil8
  omega

theorem dropFrame_run {p : Dir → Nat → Prop} {reason : ErrorKind} {slot : Nat} {s t : State} {r : Result}
    (h : dropFrame reason slot s = .ok r t) : CoreRun p s t := by
  cases h
  exact .single (.trace _ _ s)

theorem dispatchFrame_run {p : Dir → Nat → Prop} {slot len : Nat} {s t : State} {r : Result} (allowed : SlotAllowed p slot)
    (hlen : len ≤ 1536) (h : dispatchFrame slot len s = .ok r t) : CoreRun p s t := by
  obtain ⟨w, u, hu, h⟩ := andThen_eq_ok.mp h
  refine .head (.read (allowed.words 1 (by omega)) hu) (.head (.step (stepPart 6 .b) u) ?_)
  unfold dispatchClass at h
  split at h
  · exact dropFrame_run h
  · obtain ⟨ws, x, hx, h⟩ := andThen_eq_ok.mp h
    cases h
    have := wordCount_le hlen
    exact fetchWords_run (fun j hj => allowed.words j (by omega)) hx

theorem validateLength_run {p : Dir → Nat → Prop} {slot : Nat} {len : Int} {s t : State} {r : Result}
    (allowed : SlotAllowed p slot) (h : validateLength slot len s = .ok r t) : CoreRun p s t := by
  unfold validateLength at h
  split at h
  · exact dropFrame_run h
  · split at h
    · exact dropFrame_run h
    · next hle =>
      rw [maxPacket] at hle
      exact dispatchFrame_run allowed (by omega) h

theorem consumeSlot_run {p : Dir → Nat → Prop} {slot : Nat} {s t : State} {r : Result} (allowed : SlotAllowed p slot)
    (h : consumeSlot slot s = .ok r t) : CoreRun p s t := by
  obtain ⟨rbad, s1, h1, h⟩ := andThen_eq_ok.mp h
  refine .head (.read allowed.rbad h1) ?_
  split at h
  · obtain ⟨rplr, s2, h2, h⟩ := andThen_eq_ok.mp h
    exact .head (.read allowed.rplr h2) (.head (.step (stepNo 5) s2) (validateLength_run allowed h))
  · exact dropFrame_run h

theorem recvBody_run {p : Dir → Nat → Prop} {s t : State} {r : Result} (rsr : p .read offRsr) (ack : p .write offRsr)
    (slots : ∀ slot < s.cfg.ringDepth, SlotAllowed p slot) (h : recvBody s = .ok r t) : CoreRun p s t := by
  obtain ⟨-, v, s1, h1, h⟩ := recvBody_cases h
  refine .head (.read rsr h1) ?_
  obtain ⟨-, -, rfl⟩ | ⟨-, hslot, s2, h2, h3⟩ := h
  · exact .refl
  · exact (consumeSlot_run (slots _ hslot) h2).tail (.write ack h3)

/-! ## The transmit side -/

/-- The accesses of `send` are allowed: the polls of a machine that waits, TFCS, the words of the longest frame, and TPLR. -/
structure SendAllowed (p : Dir → Nat → Prop) (cfg : Config) : Prop where
  poll    : cfg.txWaitIdle = true → p .read offTplr
  reset   : p .write offTfcs
  words   : ∀ j < 192, p .write (offTxbuff + 8 * j)
  trigger : p .write offTplr

theorem waitIdle_run {p : Dir → Nat → Prop} (poll : p .read offTplr) {n : Nat} {k : StepIndex} {s t : State} {idle : Bool}
    (h : waitIdle k n s = .ok idle t) : CoreRun p s t := by
  induction n generalizing k s with
  | zero => cases h; exact .refl
  | succ n ih =>
    obtain ⟨v, u, hu, h⟩ := andThen_eq_ok.mp h
    refine .head (.read poll hu) ?_
    split at h
    · cases h; exact .refl
    · exact ih h

theorem waitStep_run {p : Dir → Nat → Prop} {s t : State} {idle : Bool} (poll : s.cfg.txWaitIdle = true → p .read offTplr)
    (h : waitStep s = .ok idle t) : CoreRun p s t := by
  unfold waitStep at h
  split at h
  · next on => exact waitIdle_run (poll on) h
  · cases h; exact .refl

theorem transmitFrame_run {p : Dir → Nat → Prop} {cfg : Config} {frame : List Byte} {n : Nat} {s t : State}
    (allowed : SendAllowed p cfg) (hn : n ≤ 1536) (h : transmitFrame frame n s = .ok () t) : CoreRun p s t := by
  obtain ⟨_, s1, h1, h⟩ := andThen_eq_ok.mp h
  obtain ⟨_, s2, h2, h3⟩ := andThen_eq_ok.mp h
  have words (j : Nat) (hj : j < (stagingWords frame s1.draws n).length) : p .write (offTxbuff + 8 * j) := by
    rw [stagingWords_length] at hj
    exact allowed.words j (Nat.lt_of_lt_of_le hj (wordCount_le hn))
  exact .head (.write allowed.reset h1) (.head (.seed s1) ((stageWords_run words h2).tail (.write allowed.trigger h3)))

theorem recordOversize_run {p : Dir → Nat → Prop} (length : Nat) (s : State) : CoreRun p s (recordOversize length s) := by
  unfold recordOversize
  split
  · exact .single (.trace _ _ s)
  · exact .refl

theorem recordOversize_cfg (length : Nat) (s : State) : (recordOversize length s).cfg = s.cfg := by
  unfold recordOversize
  split <;> rfl

theorem sendBody_run {p : Dir → Nat → Prop} {frame : List Byte} {length : Nat} {s t : State} {r : Result}
    (allowed : SendAllowed p s.cfg) (h : sendBody frame length s = .ok r t) : CoreRun p s t := by
  unfold sendBody at h
  split at h
  · obtain ⟨idle, u, hu, h⟩ := andThen_eq_ok.mp h
    have wait : CoreRun p _ u := waitStep_run (by rw [atStep_cfg, recordOversize_cfg]; exact allowed.poll) hu
    refine .head (.step _ s) (.trans (recordOversize_run length _) (.head (.step _ _) (.trans wait ?_)))
    split at h
    · obtain ⟨_, v, hv, h⟩ := andThen_eq_ok.mp h
      cases h
      exact transmitFrame_run allowed (Nat.min_le_right _ _) hv
    · cases h
      exact .single (.trace _ _ u)
  · cases h

/-! ## The table of 10_state.md rule R45 -/

/-- The eight slots are in the table: slot `slot` has the 256 words from number `256 * slot` on. -/
theorem slotAllowed_listed (cfg : Config) {slot : Nat} (h : slot < 8) : SlotAllowed (listedAccess cfg) slot where
  rbad := by simp [listedAccess, offRbad]
  rplr := .inr (.inr (.inl ⟨slot, h, rfl⟩))
  words j hj := .inr (.inr (.inr ⟨256 * slot + j, by omega, by simp only [rxbuffOffset, offRxbuff, rxbuffStride]; omega⟩))

/-- Polls are in the table only where the wait is switched on. -/
theorem sendAllowed_listed (cfg : Config) : SendAllowed (listedAccess cfg) cfg where
  poll on := .inr (.inl ⟨rfl, on⟩)
  reset := by simp [listedAccess, offTfcs]
  words j hj := .inr ⟨j, hj, rfl⟩
  trigger := by simp [listedAccess, offTplr]

theorem ringDepth_le {cfg : Config} (h : cfg.wellFormed = true) : cfg.ringDepth ≤ 8 := by
  simp only [Config.wellFormed, decide_eq_true_eq] at h
  omega

/-- A ring of at most 8 slots keeps `recv` inside the mapped ones. -/
theorem recvBody_listed {s t : State} {r : Result} (hcfg : s.cfg.wellFormed = true) (h : recvBody s = .ok r t) :
    CoreRun (listedAccess s.cfg) s t :=
  recvBody_run (by simp [listedAccess, offRsr]) (by simp [listedAccess, offRsr])
    (fun _ hslot => slotAllowed_listed s.cfg (Nat.lt_of_lt_of_le hslot (ringDepth_le hcfg))) h

theorem resolveMac_listed (cfg : Config) {index : Nat → StepIndex} {s t : State} {m : Vector Byte 6}
    (h : resolveMac index s = .ok m t) : CoreRun (listedAccess cfg) s t := by
  obtain ⟨maclo, machi, s1, s2, s3, -, h1, h2, h3, -, rfl⟩ := resolveMac_cases h
  have base : s.ctx.ioBase = s3.ctx.ioBase := by rw [regWrite_ctx h3, regRead_ctx h2, regRead_ctx h1]
  exact .head (.read (by simp [listedAccess, offMaclo]) h1) <| .head (.read (by simp [listedAccess, offMachi]) h2) <|
    .head (.write (by simp [listedAccess, offMachi]) h3) <| .single (.context _ s3 base)

theorem resolveBody_listed (cfg : Config) {s t : State} {r : Result} (h : resolveBody s = .ok r t) :
    CoreRun (listedAccess cfg) s t := by
  obtain ⟨m, u, hu, h⟩ := andThen_eq_ok.mp h
  cases h
  exact resolveMac_listed cfg hu

theorem startBody_listed (cfg : Config) {s t : State} {r : Result} (h : startBody s = .ok r t) :
    CoreRun (listedAccess cfg) s t := by
  obtain ⟨m, s1, s2, h1, h2, -, rfl⟩ := startBody_cases h
  obtain ⟨-, hctx, -⟩ := resolveMac_carries h1
  have base : s.ctx.ioBase = s2.ctx.ioBase := by rw [regWrite_ctx h2, hctx]
  exact ((resolveMac_listed cfg h1).tail (.write (by simp [listedAccess, offRfcs]) h2)).tail (.context _ s2 base)

/-! ## Whole operations -/

/-- `probe` issues no access and leaves the DEVICE alone. -/
theorem probeBody_untouched {ioBase : Word} {phyAddr : Int} {s t : State} {r : Result} (h : probeBody ioBase phyAddr s = .ok r t) :
    t.bus = s.bus ∧ t.dev = s.dev := by
  obtain ⟨-, -, -, rfl⟩ := probeBody_cases h
  exact ⟨rfl, rfl⟩

/-- Entering an operation and returning from it issue nothing. -/
theorem runOp_issued {op : Op} {body : State → Answer Result} {s t : State} {p : Dir → Nat → Prop}
    (run : ∀ {r : Result} {u : State}, body (entered op s) = .ok r u → CoreRun p (entered op s) u)
    (h : runOp op body s = .next t) : ∀ a ∈ issued s t, AllowedAt p s.ctx.ioBase a := by
  obtain ⟨r, u, hu, rfl⟩ := runOp_cases h
  exact (run hu).issued

theorem hostCall_issued {op : Op} {body : State → Answer Result} {s t : State} {p : Dir → Nat → Prop}
    (run : ∀ {r : Result} {u : State}, body (entered op s) = .ok r u → CoreRun p (entered op s) u)
    (h : hostCall op body s = .next t) : ∀ a ∈ issued s t, AllowedAt p s.ctx.ioBase a :=
  runOp_issued run ((hostCall_idle (hostCall_cases h).1).symm.trans h)

/-- Settles O22: each operation is a run of moves whose accesses the table lists; the depth of the ring, which the invariant bounds,
keeps `recv` inside the mapped slots. -/
theorem onlyListedAccesses : Obligations.OnlyListedAccesses := by
  intro i s t hop ⟨_, hcfg, _⟩ h
  change ∀ a ∈ issued s t, AllowedAt (listedAccess s.cfg) s.ctx.ioBase a
  cases i with
  | probe ioBase phyAddr =>
    obtain ⟨-, r, u, hu, rfl⟩ := hostCall_cases h
    simp [issued, (probeBody_untouched hu).1]
  | start | init => exact hostCall_issued (startBody_listed s.cfg) h
  | send frame length => exact hostCall_issued (sendBody_run (sendAllowed_listed s.cfg)) h
  | recv => exact hostCall_issued (recvBody_listed (s := entered .recv s) hcfg) h
  | stop => exact hostCall_issued (fun hb => by rw [stopBody_eq hb]) h
  | hwaddr => exact hostCall_issued (resolveBody_listed s.cfg) h
  | resolve => exact runOp_issued (resolveBody_listed s.cfg) h
  | _ => cases hop

end Sys2Proof.Machine
end

section
/-! The MAC registers of the REFERENCE DEVICE, and what the resolver makes of them (41_mac_resolver.md rules R160, R163). -/

namespace Sys2Proof.Machine

open Sys2Proof

/-! ## What keeps the MAC registers -/

/-- The two MAC registers hold the same in both. -/
structure SameMac (d e : Device) : Prop where
  maclo : e.maclo = d.maclo
  machi : e.machi = d.machi

theorem SameMac.refl (d : Device) : SameMac d d := ⟨rfl, rfl⟩

theorem SameMac.trans {d e f : Device} (h : SameMac d e) (k : SameMac e f) : SameMac d f :=
  ⟨k.maclo.trans h.maclo, k.machi.trans h.machi⟩

theorem referenceMove_sameMac (dev : Device) (d : DeviceMove) : SameMac dev (referenceMove dev d) := by
  cases d with
  | arrive frame err fcs => simp only [referenceMove, arrive]; split <;> exact ⟨rfl, rfl⟩
  | lose frame => exact .refl dev
  | txDone => simp only [referenceMove, transmitDone]; split <;> exact ⟨rfl, rfl⟩

theorem deviceMove_sameMac (d : DeviceMove) (s : State) : SameMac s.dev (deviceMove d s).dev := by
  rw [deviceMove_dev]
  split
  · exact .refl s.dev
  · exact referenceMove_sameMac s.dev d

theorem otherMoves_sameMac {ms : List Move} {s t : State} (h : otherMoves ms s = .ok () t) : SameMac s.dev t.dev := by
  induction ms generalizing s with
  | nil => cases h; exact .refl _
  | cons m rest ih =>
    cases m with
    | device d => exact (deviceMove_sameMac d s).trans (ih h)
    | invoke op => cases h

theorem othersTurn_sameMac {s t : State} (h : othersTurn s = .ok () t) : SameMac s.dev t.dev := by
  unfold othersTurn at h
  split at h
  · cases h; exact .refl _
  · next ms rest _ => exact otherMoves_sameMac (s := { s with schedule := rest }) h

theorem regRead_sameMac {k : StepIndex} {off : Nat} {s t : State} {v : Word} (h : regRead k off s = .ok v t) :
    SameMac s.dev t.dev := by
  obtain ⟨base, r, u, -, -, hu, -, rfl⟩ := regRead_cases h
  simpa using othersTurn_sameMac hu

/-- No register but MACHI leads a write to the MAC registers. -/
theorem deviceWrite_sameMac {r : WriteReg} {v : Word} {s t : State} (h : deviceWrite r v s = .ok () t) (hr : r ≠ .machi) :
    SameMac s.dev t.dev := by
  unfold deviceWrite at h
  split at h
  · cases h; exact .refl _
  · obtain ⟨rfl, -⟩ | ⟨-, -, rfl⟩ | ⟨-, -, rfl⟩ | ⟨-, rfl⟩ | ⟨-, -, -, rfl⟩ | ⟨-, rfl⟩ | ⟨i, -, -, rfl⟩ := referenceWrite_cases h
    · exact absurd rfl hr
    all_goals exact ⟨rfl, rfl⟩

/-- One offset alone selects MACHI to write. -/
theorem offMachi_of_mapWrite {off : Nat} (h : mapWrite off = .at .machi) : off = offMachi := by
  have range := writable_of_mapWrite h
  simp only [writable, List.mem_cons, List.not_mem_nil, or_false] at range
  have bound : off < 0x8000 := by omega
  have word : targetWord (.wr .machi) = busWord .write off := targetWord_of_decodeBusWord ((mapWrite_eq_at_iff bound).mp h)
  have value : 0x8808 = 0x8000 + off := (congrArg BitVec.toNat word).trans (busWord_write_toNat bound)
  rw [offMachi]
  omega

theorem regWrite_sameMac {k : StepIndex} {off : Nat} {s t : State} {v : Word} (h : regWrite k off v s = .ok () t)
    (hoff : off ≠ offMachi) : SameMac s.dev t.dev := by
  obtain ⟨base, r, u, w, -, hr, hu, hw, rfl⟩ := regWrite_cases h
  have other : r ≠ .machi := by
    rintro rfl
    exact hoff (offMachi_of_mapWrite hr)
  rw [logAccess_dev]
  exact (othersTurn_sameMac (s := atStep k s) hu).trans (deviceWrite_sameMac hw other)

theorem CoreMove.sameMac {p : Dir → Nat → Prop} {s t : State} (apart : ¬ p .write offMachi) (h : CoreMove p s t) :
    SameMac s.dev t.dev := by
  cases h with
  | read allowed h => exact regRead_sameMac h
  | write allowed h => exact regWrite_sameMac h fun hoff => apart (hoff ▸ allowed)
  | step | trace | seed | context => exact .refl _

/-- A run without an access that writes MACHI keeps the MAC registers. -/
theorem CoreRun.sameMac {p : Dir → Nat → Prop} {s t : State} (apart : ¬ p .write offMachi) (h : CoreRun p s t) :
    SameMac s.dev t.dev := by
  induction h with
  | refl => exact .refl _
  | tail _ move ih => exact ih.trans (move.sameMac apart)

/-! ## The accesses of the resolver in the REFERENCE DEVICE -/

theorem regRead_reference {k : StepIndex} {off : Nat} {r : ReadReg} {s t : State} {v : Word} (h : regRead k off s = .ok v t)
    (hr : mapRead off = .at r) (hm : s.cfg.deviceMode = .reference) :
    ∃ u, SameMac s.dev u.dev ∧ v = (referenceRead r u).1 := by
  obtain ⟨base, r', u, -, hr', hu, rfl, -⟩ := regRead_cases h
  obtain rfl : r = r' := Mapped.at.inj (hr.symm.trans hr')
  have hmu : u.cfg.deviceMode = .reference := by rw [(othersTurn_carries hu).cfg]; exact hm
  exact ⟨u, othersTurn_sameMac (s := atStep k s) hu, by simp only [deviceRead, hmu]⟩

theorem regRead_maclo {k : StepIndex} {s t : State} {v : Word} (h : regRead k offMaclo s = .ok v t)
    (hm : s.cfg.deviceMode = .reference) : v = s.dev.maclo := by
  obtain ⟨u, same, rfl⟩ := regRead_reference h mapRead_maclo hm
  exact same.maclo

theorem regRead_machi {k : StepIndex} {s t : State} {v : Word} (h : regRead k offMachi s = .ok v t)
    (hm : s.cfg.deviceMode = .reference) : v = s.dev.machi := by
  obtain ⟨u, same, rfl⟩ := regRead_reference h mapRead_machi hm
  exact same.machi

/-- The REFERENCE DEVICE's MACHI takes what is written (60_exceptions.md rule R308). -/
theorem regWrite_machi {k : StepIndex} {s t : State} {v : Word} (h : regWrite k offMachi v s = .ok () t)
    (hm : s.cfg.deviceMode = .reference) : t.dev.machi = v := by
  obtain ⟨base, r, u, w, -, hr, hu, hw, rfl⟩ := regWrite_cases h
  obtain rfl : WriteReg.machi = r := Mapped.at.inj (mapWrite_machi.symm.trans hr)
  have hmu : u.cfg.deviceMode = .reference := by rw [(othersTurn_carries hu).cfg]; exact hm
  simp only [deviceWrite, hmu, referenceWrite] at hw
  cases hw
  rfl

/-- A completed resolution with its bus record, and, in the REFERENCE DEVICE, what the registers held and hold. -/
theorem resolveMac_registers {index : Nat → StepIndex} {s t : State} {m : Vector Byte 6} {base : Word}
    (h : resolveMac index s = .ok m t) (hb : s.ctx.ioBase = some base) :
    ∃ maclo machi u, m = macOctets maclo machi ∧ t = { u with ctx := { s.ctx with mac := some m } } ∧
      After s u [readAt base offMaclo maclo, readAt base offMachi machi,
        writeAt base offMachi (writebackValue s.cfg.machiWriteback machi)] ∧
      (s.cfg.deviceMode = .reference →
        maclo = s.dev.maclo ∧ machi = s.dev.machi ∧ u.dev.machi = writebackValue s.cfg.machiWriteback machi) := by
  obtain ⟨maclo, machi, s1, s2, s3, -, h1, h2, h3, hm, rfl⟩ := resolveMac_cases h
  have a := regRead_after h1 hb
  have b := a.trans (regRead_after h2 (a.ctx ▸ hb))
  refine ⟨maclo, machi, s3, hm, rfl, b.trans (regWrite_after h3 (b.ctx ▸ hb)), fun hmode => ⟨regRead_maclo h1 hmode, ?_, ?_⟩⟩
  · rw [regRead_machi h2 (a.cfg ▸ hmode), (regRead_sameMac h1).machi]
  · exact regWrite_machi h3 (b.cfg ▸ hmode)

/-- Where no HOST call lands in between, a resolution completes: the DEVICE takes every write to MACHI. -/
theorem resolveMac_completes {index : Nat → StepIndex} {s : State} {base : Word} (hp : s.ctx.probed = true)
    (hb : s.ctx.ioBase = some base) (hq : Quiet s) : ∃ m t, resolveMac index s = .ok m t := by
  obtain ⟨maclo, s1, h1⟩ := regRead_completes (k := index 1) hb mapRead_maclo hq
  have a := regRead_after h1 hb
  obtain ⟨machi, s2, h2⟩ := regRead_completes (k := index 2) (a.ctx ▸ hb) mapRead_machi (a.quiet hq)
  have b := a.trans (regRead_after h2 (a.ctx ▸ hb))
  have taken (v : Word) (u : State) : ∃ w, deviceWrite .machi v u = .ok () w := by
    unfold deviceWrite
    split <;> exact ⟨_, rfl⟩
  obtain ⟨w, hw⟩ := taken (writebackValue s2.cfg.machiWriteback machi) (atStep (index 5) (afterOthers s2))
  have h3 := regWrite_completes (k := index 5) (b.ctx ▸ hb) mapWrite_machi (b.quiet hq) hw
  exact ⟨_, _, by rw [resolveMac, if_pos hp, h1, andThen_ok, h2, andThen_ok, h3, andThen_ok]⟩

/-- `hwaddr` and `resolve` run the resolver, each under its own name. -/
theorem exec_resolving {i : Instr} (hi : i = .hwaddr ∨ i = .resolve) {s : State} (hp : s.position = .idle) :
    exec i s = runOp (if i = .hwaddr then .hwaddr else .resolve) resolveBody s := by
  obtain rfl | rfl := hi
  · exact hostCall_idle hp
  · rfl

theorem resolveBody_notProbed {s : State} (h : s.ctx.probed = false) : resolveBody s = .stop (.notProbed (currentOp s)) := by
  simp [resolveBody, resolveMac, h]

theorem resolveBody_completes {s t : State} {m : Vector Byte 6} (h : resolveMac stepNo s = .ok m t) :
    resolveBody s = .ok (.mac m) t := by
  rw [resolveBody, h, andThen_ok]

/-- Settles O25: a quiet resolution completes, and its bus record and registers are those of the three accesses. -/
theorem resolverReadsAndWritesBack : Obligations.ResolverReadsAndWritesBack := by
  intro i hi s hidle
  rw [exec_resolving hi hidle]
  generalize (if i = .hwaddr then Op.hwaddr else .resolve) = op
  refine ⟨fun hp => runOp_stop (resolveBody_notProbed hp), fun base ⟨_, hp, hb⟩ hq => ?_⟩
  obtain ⟨m, t, ht⟩ := resolveMac_completes (index := stepNo) (s := entered op s) hp hb hq
  obtain ⟨maclo, machi, u, rfl, rfl, after, registers⟩ := resolveMac_registers ht hb
  refine ⟨_, maclo, machi, writebackValue s.cfg.machiWriteback machi, runOp_ok (resolveBody_completes ht), rfl, after.bus,
    rfl, ?_, registers, after.dev, after.cfg, hidle, after.agenda, after.trace, after.schedule⟩
  exact congrArg (· ++ [Result.mac (macOctets maclo machi)]) after.returned

/-! ## The receive-interrupt enable -/

/-- `irq_en` is clear in MACHI (10_state.md rule R46). -/
def IrqEnClear (d : Device) : Prop := d.machi.getLsbD 21 = false

theorem resolveMac_irqEnClear {index : Nat → StepIndex} {s t : State} {m : Vector Byte 6} (h : resolveMac index s = .ok m t)
    (hm : s.cfg.deviceMode = .reference) : IrqEnClear t.dev := by
  obtain ⟨maclo, machi, s1, s2, s3, -, h1, h2, h3, -, rfl⟩ := resolveMac_cases h
  have hm2 : s2.cfg.deviceMode = .reference := by rw [(regRead_carries h2).cfg, (regRead_carries h1).cfg]; exact hm
  rw [IrqEnClear, regWrite_machi h3 hm2]
  exact writebackValue_irqEn _ machi

theorem resolveBody_irqEnClear {s t : State} {r : Result} (h : resolveBody s = .ok r t) (hm : s.cfg.deviceMode = .reference) :
    IrqEnClear t.dev := by
  obtain ⟨m, u, hu, h⟩ := andThen_eq_ok.mp h
  cases h
  exact resolveMac_irqEnClear hu hm

theorem startBody_irqEnClear {s t : State} {r : Result} (h : startBody s = .ok r t) (hm : s.cfg.deviceMode = .reference) :
    IrqEnClear t.dev := by
  obtain ⟨m, s1, s2, h1, h2, -, rfl⟩ := startBody_cases h
  rw [IrqEnClear, (regWrite_sameMac h2 (by decide)).machi]
  exact resolveMac_irqEnClear h1 hm

/-- Every access but a write of MACHI. -/
def besideMachi (dir : Dir) (off : Nat) : Prop := dir = .write → off ≠ offMachi

theorem CoreRun.machi {s t : State} (h : CoreRun besideMachi s t) : t.dev.machi = s.dev.machi :=
  (h.sameMac fun allowed => allowed rfl rfl).machi

theorem recvBody_machi {s t : State} {r : Result} (h : recvBody s = .ok r t) : t.dev.machi = s.dev.machi :=
  (recvBody_run (p := besideMachi) nofun (fun _ => by decide) (fun _ _ => ⟨nofun, nofun, fun _ _ => nofun⟩) h).machi

theorem sendBody_machi {frame : List Byte} {length : Nat} {s t : State} {r : Result} (h : sendBody frame length s = .ok r t) :
    t.dev.machi = s.dev.machi := by
  have words (j : Nat) (_ : j < 192) : besideMachi .write (offTxbuff + 8 * j) := fun _ => by
    rw [offTxbuff, offMachi]
    omega
  have allowed : SendAllowed besideMachi s.cfg := ⟨fun _ => nofun, fun _ => by decide, words, fun _ => by decide⟩
  exact (sendBody_run allowed h).machi

/-- Returning from an operation leaves the DEVICE to the operation's body. -/
theorem runOp_dev {op : Op} {body : State → Answer Result} {s t : State} (q : Device → Prop)
    (leads : ∀ {r : Result} {u : State}, body (entered op s) = .ok r u → q u.dev) (h : runOp op body s = .next t) : q t.dev := by
  obtain ⟨r, u, hu, rfl⟩ := runOp_cases h
  have reached : q u.dev := leads hu
  exact reached

theorem hostCall_dev {op : Op} {body : State → Answer Result} {s t : State} (q : Device → Prop)
    (leads : ∀ {r : Result} {u : State}, body (entered op s) = .ok r u → q u.dev) (h : hostCall op body s = .next t) : q t.dev :=
  runOp_dev q leads ((hostCall_idle (hostCall_cases h).1).symm.trans h)

theorem exec_irqEnClear {i : Instr} {s t : State} (hi : i = .start ∨ i = .hwaddr ∨ i = .init ∨ i = .resolve)
    (hm : s.cfg.deviceMode = .reference) (h : exec i s = .next t) : IrqEnClear t.dev := by
  obtain rfl | rfl | rfl | rfl := hi
  · exact hostCall_dev IrqEnClear (fun hb => startBody_irqEnClear hb hm) h
  · exact hostCall_dev IrqEnClear (fun hb => resolveBody_irqEnClear hb hm) h
  · exact hostCall_dev IrqEnClear (fun hb => startBody_irqEnClear hb hm) h
  · exact runOp_dev IrqEnClear (fun hb => resolveBody_irqEnClear hb hm) h

/-- Settles O57: the forms of the resolver leave the enable clear, and the other operations leave MACHI alone. -/
theorem irqEnableOnlyCleared : Obligations.IrqEnableOnlyCleared := by
  intro i s t hm h
  refine ⟨fun hi => exec_irqEnClear hi hm h, fun hop set => ?_⟩
  have resolving (hi : i = .start ∨ i = .hwaddr ∨ i = .init ∨ i = .resolve) : s.dev.machi.getLsbD 21 = true :=
    absurd (set.symm.trans (exec_irqEnClear hi hm h)) (by decide)
  have keeping {op : Op} {body : State → Answer Result}
      (keeps : ∀ {r : Result} {u : State}, body (entered op s) = .ok r u → u.dev.machi = s.dev.machi)
      (h : hostCall op body s = .next t) : s.dev.machi.getLsbD 21 = true :=
    hostCall_dev (fun d => d.machi = s.dev.machi) keeps h ▸ set
  cases i with
  | start | hwaddr | init | resolve => exact resolving (by simp)
  | probe ioBase phyAddr => exact keeping (fun hb => congrArg Device.machi (probeBody_untouched hb).2) h
  | send frame length => exact keeping sendBody_machi h
  | recv => exact keeping recvBody_machi h
  | stop => exact keeping (fun hb => by rw [stopBody_eq hb, entered_dev]) h
  | _ => cases hop

end Sys2Proof.Machine
end

section
/-! The words of a staged frame (30_encoding.md rule R112; 42_transmit.md rules R182 to R184), and what is read where they stand. -/

namespace Sys2Proof.Machine

open Sys2Proof

/-! ## Words and bytes -/

/-- Byte `j` of a packed word is the `j`-th byte packed (20_memory.md rule R78). -/
theorem packWord_extractLsb' (f : Nat → Byte) {j : Nat} (hj : j < 8) : (packWord f).extractLsb' (8 * j) 8 = f j := by
  unfold packWord
  obtain below | rfl : j < 7 ∨ j = 7 := by omega
  · interval_cases j
    all_goals
      repeat rw [BitVec.extractLsb'_append_eq_of_le (by decide)]
      exact BitVec.extractLsb'_append_eq_right
  · repeat rw [BitVec.extractLsb'_append_eq_of_le (by decide)]
    exact BitVec.extractLsb'_eq_self

@[simp] theorem unpackWord_packWord (f : Nat → Byte) : unpackWord (packWord f) = (List.range 8).map f :=
  List.map_congr_left fun _ hj => packWord_extractLsb' f (List.mem_range.mp hj)

/-- Bytes counted word by word are all the bytes. -/
theorem flatMap_words (f : Nat → Byte) (k : Nat) :
    ((List.range k).flatMap fun i => (List.range 8).map fun j => f (8 * i + j)) = (List.range (8 * k)).map f := by
  induction k with
  | zero => rfl
  | succ k ih =>
    rw [List.range_succ (n := k), List.flatMap_append, ih, List.flatMap_singleton, Nat.mul_succ, List.range_add, List.map_append,
      List.map_map]
    rfl

/-! ## The staging words of a frame -/

/-- The bytes of the staging words: those of the caller's buffer and the free values past its end, up to the rounded length. -/
def stagedBytes (frame : List Byte) (seed n : Nat) : List Byte := (List.range (8 * wordCount n)).map (frameByte frame seed)

@[simp] theorem stagedBytes_length (frame : List Byte) (seed n : Nat) : (stagedBytes frame seed n).length = 8 * wordCount n := by
  simp [stagedBytes]

theorem stagingWords_bytes (frame : List Byte) (seed n : Nat) :
    (stagingWords frame seed n).flatMap unpackWord = stagedBytes frame seed n := by
  simp only [stagingWords, List.flatMap_map, unpackWord_packWord]
  exact flatMap_words (frameByte frame seed) (wordCount n)

theorem frameByte_eq_getElem? {frame : List Byte} {k : Nat} (seed : Nat) (hk : k < frame.length) :
    some (frameByte frame seed k) = frame[k]? := by
  simp [frameByte, hk]

theorem wordCount_eq (n : Nat) : wordCount n = (n + 7) / 8 := by
  unfold wordCount ceil8
  omega

theorem stagingWords_stagedFrame (frame : List Byte) (seed n : Nat) : StagedFrame frame n (stagingWords frame seed n) := by
  refine ⟨by rw [stagingWords_length, wordCount_eq], fun i j w hj hw hlt => ?_⟩
  obtain ⟨hi, rfl⟩ := List.getElem?_eq_some_iff.mp hw
  simp only [stagingWords, List.getElem_map, List.getElem_range, packWord_extractLsb' _ hj]
  exact (frameByte_eq_getElem? seed hlt).symm

/-! ## The frame in the transmit window -/

/-- The frame a trigger of `n` bytes sends. -/
def sentFrame (frame : List Byte) (seed n : Nat) : List Byte := (List.range n).map (frameByte frame seed)

@[simp] theorem sentFrame_length (frame : List Byte) (seed n : Nat) : (sentFrame frame seed n).length = n := by simp [sentFrame]

theorem sentFrame_getElem? {frame : List Byte} {n k : Nat} (seed : Nat) (hk : k < n) (hf : k < frame.length) :
    (sentFrame frame seed n)[k]? = frame[k]? := by
  rw [← frameByte_eq_getElem? seed hf, sentFrame, List.getElem?_map, List.getElem?_range hk, Option.map_some]

theorem storeBytes_append (bs cs : List Byte) (m : Memory) (a : Nat) :
    Memory.storeBytes m a (bs ++ cs) = Memory.storeBytes (Memory.storeBytes m a bs) (a + bs.length) cs := by
  induction bs generalizing m a with
  | nil => rfl
  | cons b bs ih => simpa [Memory.storeBytes, Nat.add_assoc, Nat.add_comm 1] using ih (Memory.store m a b) (a + 1)

/-- Reading back, from its start, a frame that has been staged. -/
theorem readBytes_stagedBytes (frame : List Byte) (seed n : Nat) (m : Memory) (a : Nat) :
    Memory.readBytes (Memory.storeBytes m a (stagedBytes frame seed n)) a n = sentFrame frame seed n := by
  refine List.map_congr_left fun k hk => ?_
  have inside : k < (stagedBytes frame seed n).length := by
    have := le_ceil8 n
    rw [stagedBytes_length, ← ceil8_eq_wordCount]
    exact Nat.lt_of_lt_of_le (List.mem_range.mp hk) this
  rw [readByte_storeBytes_inside _ _ _ _ inside]
  simp [stagedBytes]

end Sys2Proof.Machine
end

section
/-! The transmit side of the DEVICE: what the other agents leave of it between two accesses of `send`, and what the writes of `send`
make of it (60_exceptions.md rules R303, R306, R307). -/

namespace Sys2Proof.Machine

open Sys2Proof

/-! ## What the other agents leave of the transmit side -/

/-- `e` has the transmit side of `d`: the same transmission, wire and frame-check state, and the same bytes below the receive window.
Where nothing moves the DEVICE, as `unmoved` says, the two are one. -/
structure SameTransmit (unmoved : Prop) (d e : Device) : Prop where
  txBusy  : e.txBusy = d.txBusy
  pending : e.pending = d.pending
  wire    : e.wire = d.wire
  tfcs    : e.tfcs = d.tfcs
  bytes   : ∀ a < offRxbuff, Memory.readByte e.buf a = Memory.readByte d.buf a
  same    : unmoved → e = d

theorem SameTransmit.refl (p : Prop) (d : Device) : SameTransmit p d d := ⟨rfl, rfl, rfl, rfl, fun _ _ => rfl, fun _ => rfl⟩

theorem SameTransmit.trans {p : Prop} {d e f : Device} (h : SameTransmit p d e) (k : SameTransmit p e f) : SameTransmit p d f :=
  ⟨k.txBusy.trans h.txBusy, k.pending.trans h.pending, k.wire.trans h.wire, k.tfcs.trans h.tfcs,
    fun a ha => (k.bytes a ha).trans (h.bytes a ha), fun hp => (k.same hp).trans (h.same hp)⟩

/-- A stronger reason for the DEVICE not to have moved. -/
theorem SameTransmit.of_imp {p q : Prop} {d e : Device} (h : SameTransmit p d e) (hqp : q → p) : SameTransmit q d e :=
  ⟨h.txBusy, h.pending, h.wire, h.tfcs, h.bytes, fun hq => h.same (hqp hq)⟩

theorem transmitDone_idle {d : Device} (h : d.txBusy = false) : transmitDone d = d := by simp [transmitDone, h]

/-- An arrival fills a slot of the receive window; a completion is a move of a DEVICE that transmits. -/
theorem referenceMove_sameTransmit (d : Device) (m : DeviceMove) (h : d.txBusy = false ∨ m ≠ .txDone) :
    SameTransmit False d (referenceMove d m) := by
  cases m with
  | arrive frame err fcs =>
    obtain e | ⟨depth, -, -, e⟩ := arrive_cases d frame err fcs <;> rw [referenceMove, e]
    · exact .refl _ d
    · refine ⟨rfl, rfl, rfl, rfl, fun a ha => readByte_storeBytes_outside _ _ _ _ (.inl ?_), False.elim⟩
      rw [offRxbuff] at ha
      omega
  | lose frame => exact .refl _ d
  | txDone =>
    rw [referenceMove, transmitDone_idle (h.resolve_right (· rfl))]
    exact .refl _ d

theorem moveEffect_cfg (s : State) (m : Move) : (moveEffect s m).cfg = s.cfg := by
  cases m with
  | device d => exact deviceMove_cfg d s
  | invoke op => rfl

theorem moveEffect_sameTransmit (s : State) (m : Move) (h : s.dev.txBusy = false ∨ m ≠ .device .txDone) :
    SameTransmit False s.dev (moveEffect s m).dev := by
  cases m with
  | device d =>
    rw [moveEffect, deviceMove_dev]
    split
    · exact .refl _ s.dev
    · exact referenceMove_sameTransmit s.dev d (h.imp_right fun hm hd => hm (hd ▸ rfl))
  | invoke op => exact .refl _ s.dev

theorem foldl_moveEffect_sameTransmit (ms : List Move) (s : State) (h : s.dev.txBusy = false ∨ Move.device .txDone ∉ ms) :
    SameTransmit False s.dev (ms.foldl moveEffect s).dev := by
  induction ms generalizing s with
  | nil => exact .refl _ s.dev
  | cons m ms ih =>
    rw [List.mem_cons, not_or] at h
    have first := moveEffect_sameTransmit s m (h.imp_right fun hm => Ne.symm hm.1)
    exact first.trans (ih _ (h.imp first.txBusy.trans And.right))

/-- The turn of the others keeps the transmit side, unless it completes a transmission. -/
theorem afterOthers_sameTransmit (s : State) (h : s.dev.txBusy = false ∨ ∀ ms ∈ s.schedule.head?, Move.device .txDone ∉ ms) :
    SameTransmit (s.schedule = []) s.dev (afterOthers s).dev := by
  cases hs : s.schedule with
  | nil => rw [afterOthers_nil s hs]; exact .refl _ s.dev
  | cons ms rest =>
    simp only [afterOthers, hs]
    exact (foldl_moveEffect_sameTransmit ms { s with schedule := rest } (h.imp_right fun hm => hm ms (by rw [hs]; rfl))).of_imp nofun

/-- The first completion puts the pending frame on the wire, and nothing after it touches the transmit side. -/
theorem foldl_moveEffect_txDone (ms : List Move) (s : State) (hm : s.cfg.deviceMode = .reference) (busy : s.dev.txBusy = true)
    (done : Move.device .txDone ∈ ms) :
    (ms.foldl moveEffect s).dev.txBusy = false ∧ (ms.foldl moveEffect s).dev.wire = s.dev.wire ++ [s.dev.pending] := by
  induction ms generalizing s with
  | nil => cases done
  | cons m ms ih =>
    by_cases hd : m = .device .txDone
    · subst hd
      have completed : (moveEffect s (.device .txDone)).dev =
          { s.dev with wire := s.dev.wire ++ [s.dev.pending], txBusy := false } := by
        simp [moveEffect, deviceMove, hm, referenceMove, transmitDone, busy]
      have rest := foldl_moveEffect_sameTransmit ms (moveEffect s (.device .txDone)) (.inl (by rw [completed]))
      rw [completed] at rest
      exact ⟨rest.txBusy, rest.wire⟩
    · have first := moveEffect_sameTransmit s m (.inr hd)
      rw [← first.wire, ← first.pending]
      exact ih _ (by rw [moveEffect_cfg]; exact hm) (first.txBusy.trans busy) ((List.mem_cons.mp done).resolve_left (Ne.symm hd))

theorem afterOthers_txDone {s : State} {ms : List Move} {rest : List (List Move)} (hs : s.schedule = ms :: rest)
    (hm : s.cfg.deviceMode = .reference) (busy : s.dev.txBusy = true) (done : Move.device .txDone ∈ ms) :
    (afterOthers s).dev.txBusy = false ∧ (afterOthers s).dev.wire = s.dev.wire ++ [s.dev.pending] := by
  simp only [afterOthers, hs]
  exact foldl_moveEffect_txDone ms { s with schedule := rest } hm busy done

/-- What the turn of the others makes of the DEVICE depends on the mode, the DEVICE and the schedule. -/
theorem afterOthers_dev_congr {s u : State} (cfg : u.cfg = s.cfg) (dev : u.dev = s.dev) (schedule : u.schedule = s.schedule) :
    (afterOthers u).dev = (afterOthers s).dev := by
  have fold (ms : List Move) : ∀ a b : State, b.cfg = a.cfg → b.dev = a.dev →
      (ms.foldl moveEffect b).dev = (ms.foldl moveEffect a).dev := by
    induction ms with
    | nil => exact fun _ _ _ h => h
    | cons m ms ih =>
      intro a b hcfg hdev
      refine ih _ _ (by rw [moveEffect_cfg, moveEffect_cfg, hcfg]) ?_
      cases m with
      | device d => rw [moveEffect, moveEffect, deviceMove_dev, deviceMove_dev, hcfg, hdev]
      | invoke op => exact hdev
  cases hs : s.schedule with
  | nil => rw [afterOthers_nil s hs, afterOthers_nil u (schedule.trans hs), dev]
  | cons ms rest =>
    simp only [afterOthers, schedule.trans hs, hs]
    exact fold ms { s with schedule := rest } { u with schedule := rest } cfg dev

/-! ## What the writes of `send` make of the transmit side -/

/-- The DEVICE with the bytes `bs` stored from the offset `a`. -/
def Device.withBytes (d : Device) (a : Nat) (bs : List Byte) : Device := { d with buf := Memory.storeBytes d.buf a bs }

/-- The DEVICE with the first `n` bytes of TXBUFF in flight. -/
def Device.triggered (d : Device) (n : Nat) : Device := { d with txBusy := true, pending := Memory.readBytes d.buf offTxbuff n }

theorem Device.withBytes_append (d : Device) (a : Nat) (bs cs : List Byte) :
    (d.withBytes a bs).withBytes (a + bs.length) cs = d.withBytes a (bs ++ cs) := by
  simp [Device.withBytes, storeBytes_append]

theorem SameTransmit.withBytes {p : Prop} {d e : Device} (h : SameTransmit p d e) (a : Nat) (bs : List Byte) :
    SameTransmit p (d.withBytes a bs) (e.withBytes a bs) := by
  refine ⟨h.txBusy, h.pending, h.wire, h.tfcs, fun c hc => ?_, fun hp => by rw [h.same hp]⟩
  simp only [Device.withBytes]
  by_cases inside : a ≤ c ∧ c < a + bs.length
  · obtain ⟨j, rfl⟩ := Nat.exists_eq_add_of_le inside.1
    rw [readByte_storeBytes_inside _ _ _ _ (by omega), readByte_storeBytes_inside _ _ _ _ (by omega)]
  · rw [readByte_storeBytes_outside _ _ _ _ (by omega), readByte_storeBytes_outside _ _ _ _ (by omega), h.bytes c hc]

theorem SameTransmit.triggered {p : Prop} {d e : Device} (h : SameTransmit p d e) {n : Nat} (hn : n ≤ 1536) :
    SameTransmit p (d.triggered n) (e.triggered n) := by
  refine ⟨rfl, List.map_congr_left fun k hk => h.bytes _ ?_, h.wire, h.tfcs, h.bytes, fun hp => by rw [h.same hp]⟩
  have := List.mem_range.mp hk
  rw [offTxbuff, offRxbuff]
  omega

/-- A quiet write of the transmit side that meets no transmission completes. -/
theorem regWrite_transmit_completes {k : StepIndex} {off : Nat} {s : State} {base : Word} {r : WriteReg} (v : Word)
    (hb : s.ctx.ioBase = some base) (hr : mapWrite off = .at r) (hq : Quiet s) (transmits : meetsTransmission r = true)
    (idle : s.cfg.deviceMode = .reference → (afterOthers s).dev.txBusy = false) : ∃ t, regWrite k off v s = .ok () t := by
  have taken : ∃ w, deviceWrite r v (atStep k (afterOthers s)) = .ok () w := by
    unfold deviceWrite
    split
    · exact ⟨_, rfl⟩
    · next hm =>
      rw [atStep_cfg, afterOthers_cfg] at hm
      exact referenceWrite_completes (fun _ => idle hm) (by rintro rfl; cases transmits)
  obtain ⟨w, hw⟩ := taken
  exact ⟨_, regWrite_completes hb hr hq hw⟩

/-- A completed quiet write in the REFERENCE DEVICE is the DEVICE's taking it after the others' turn. -/
theorem regWrite_reference {k : StepIndex} {off : Nat} {r : WriteReg} {s t : State} {v : Word} (h : regWrite k off v s = .ok () t)
    (hr : mapWrite off = .at r) (hq : Quiet s) (hm : s.cfg.deviceMode = .reference) :
    ∃ w, referenceWrite r v (atStep k (afterOthers s)) = .ok () w ∧ t.dev = w.dev := by
  obtain ⟨base, r', u, w, -, hr', hu, hw, rfl⟩ := regWrite_cases h
  obtain rfl : r = r' := Mapped.at.inj (hr.symm.trans hr')
  rw [othersTurn_quiet (atStep k s) hq, afterOthers_atStep] at hu
  cases hu
  rw [deviceWrite, atStep_cfg, afterOthers_cfg, hm] at hw
  exact ⟨w, hw, rfl⟩

theorem regWrite_tfcs_dev {k : StepIndex} {s t : State} {v : Word} (h : regWrite k offTfcs v s = .ok () t) (hq : Quiet s)
    (hm : s.cfg.deviceMode = .reference) : t.dev = { (afterOthers s).dev with tfcs := v } := by
  obtain ⟨w, hw, hd⟩ := regWrite_reference h mapWrite_tfcs hq hm
  obtain ⟨-, rfl⟩ := unlessBusy_cases hw
  exact hd

theorem regWrite_txbuff_dev {k : StepIndex} {i : Nat} {s t : State} {v : Word} (hi : i < 256)
    (h : regWrite k (offTxbuff + 8 * i) v s = .ok () t) (hq : Quiet s) (hm : s.cfg.deviceMode = .reference) :
    t.dev = (afterOthers s).dev.withBytes (offTxbuff + 8 * i) (unpackWord v) := by
  obtain ⟨w, hw, hd⟩ := regWrite_reference h (mapWrite_txbuff i hi) hq hm
  obtain ⟨-, rfl⟩ := unlessBusy_cases hw
  rw [BitVec.toNat_ofNat, Nat.mod_eq_of_lt hi] at hd
  exact hd

theorem regWrite_tplr_dev {k : StepIndex} {n : Nat} {s t : State} (hn : n ≤ 1536)
    (h : regWrite k offTplr (BitVec.ofNat 64 n) s = .ok () t) (hq : Quiet s) (hm : s.cfg.deviceMode = .reference) :
    t.dev = (afterOthers s).dev.triggered n := by
  obtain ⟨w, hw, hd⟩ := regWrite_reference h mapWrite_tplr hq hm
  obtain ⟨-, rfl⟩ := unlessBusy_cases hw
  have value : (BitVec.ofNat 64 n).toNat = n := by rw [BitVec.toNat_ofNat]; omega
  have frame (d : Device) (seed : Nat) : triggeredFrame d (BitVec.ofNat 64 n) seed = Memory.readBytes d.buf offTxbuff n := by
    rw [triggeredFrame, value, if_pos (by rw [txWindowBytes]; omega)]
  rw [frame] at hd
  exact hd

/-! ## Staging and trigger -/

/-- A quiet staging that meets no transmission completes, and in the REFERENCE DEVICE it leaves the words where they were written. -/
theorem stageWords_completes {ws : List Word} {i : Nat} {k : StepIndex} {s : State} {base : Word} (hb : s.ctx.ioBase = some base)
    (hq : Quiet s) (hi : i + ws.length ≤ 256) (idle : s.cfg.deviceMode = .reference → s.dev.txBusy = false) :
    ∃ t, stageWords k (offTxbuff + 8 * i) ws s = .ok () t ∧ (s.cfg.deviceMode = .reference →
      SameTransmit (s.schedule = []) (s.dev.withBytes (offTxbuff + 8 * i) (ws.flatMap unpackWord)) t.dev) := by
  induction ws generalizing i k s with
  | nil => exact ⟨s, rfl, fun _ => .refl _ _⟩
  | cons w ws ih =>
    rw [List.length_cons] at hi
    have turn (hm : s.cfg.deviceMode = .reference) := afterOthers_sameTransmit s (.inl (idle hm))
    obtain ⟨u, hu⟩ := regWrite_transmit_completes (k := k) w hb (mapWrite_txbuff i (by omega)) hq rfl
      fun hm => (turn hm).txBusy.trans (idle hm)
    have a := regWrite_after hu hb
    have written (hm : s.cfg.deviceMode = .reference) := regWrite_txbuff_dev (by omega) hu hq hm
    obtain ⟨t, ht, kept⟩ := ih (i := i + 1) (k := k.nextItem) (a.ctx ▸ hb) (a.quiet hq) (by omega) fun hm => by
      rw [a.cfg] at hm
      rw [written hm]
      exact (turn hm).txBusy.trans (idle hm)
    refine ⟨t, ?_, fun hm => ?_⟩
    · rw [stageWords]
      exact (congrArg (Answer.andThen · _) hu).trans ht
    · have rest := (kept (a.cfg ▸ hm)).of_imp (q := s.schedule = []) (by rw [a.schedule]; simp +contextual)
      have next : offTxbuff + 8 * (i + 1) = offTxbuff + 8 * i + (unpackWord w).length := by rw [unpackWord_length]; omega
      rw [written hm, next, Device.withBytes_append] at rest
      exact ((turn hm).withBytes _ _).trans rest

/-- The DEVICE with a frame of `n` bytes staged, and in flight. -/
def Device.sending (d : Device) (frame : List Byte) (seed n : Nat) : Device :=
  (Device.withBytes { d with tfcs := 0 } offTxbuff (stagedBytes frame seed n)).triggered n

@[simp] theorem sending_pending (d : Device) (frame : List Byte) (seed n : Nat) :
    (d.sending frame seed n).pending = sentFrame frame seed n :=
  readBytes_stagedBytes frame seed n d.buf offTxbuff

/-- A quiet transmission that meets none in flight completes, and in the REFERENCE DEVICE it leaves the frame in flight. -/
theorem transmitFrame_completes {n : Nat} {s : State} {base : Word} (frame : List Byte) (hn : n ≤ 1536)
    (hb : s.ctx.ioBase = some base) (hq : Quiet s)
    (idle : s.cfg.deviceMode = .reference → (afterOthers s).dev.txBusy = false) :
    ∃ t, transmitFrame frame n s = .ok () t ∧ t.script = s.script ∧ (s.cfg.deviceMode = .reference →
      ∃ seed, SameTransmit (s.schedule = []) ((afterOthers s).dev.sending frame seed n) t.dev) := by
  obtain ⟨u, hu⟩ := regWrite_transmit_completes (k := stepNo 4) 0 hb mapWrite_tfcs hq rfl idle
  have a := regWrite_after hu hb
  have reset (hm : s.cfg.deviceMode = .reference) := regWrite_tfcs_dev hu hq hm
  obtain ⟨w, hw, staged⟩ := stageWords_completes (ws := stagingWords frame u.draws n) (i := 0) (k := stepNo 5)
    (s := { u with draws := u.draws + 1 }) (a.ctx ▸ hb) (a.quiet hq)
    (by have := wordCount_le hn; rw [stagingWords_length]; omega) fun hm => by
      rw [a.cfg] at hm
      rw [reset hm]
      exact idle hm
  have b := stageWords_after hw (a.ctx ▸ hb)
  rw [stagingWords_bytes] at staged
  have turn (hm : s.cfg.deviceMode = .reference) : SameTransmit (s.schedule = [])
      (Device.withBytes { (afterOthers s).dev with tfcs := 0 } offTxbuff (stagedBytes frame u.draws n)) (afterOthers w).dev := by
    have kept := staged (a.cfg ▸ hm)
    rw [reset hm] at kept
    have last := afterOthers_sameTransmit w (.inl (kept.txBusy.trans (idle hm)))
    refine (kept.of_imp fun hs => ?_).trans (last.of_imp fun hs => ?_)
    · simp [a.schedule, hs]
    · simp [b.schedule, a.schedule, hs]
  obtain ⟨t, ht⟩ := regWrite_transmit_completes (k := stepNo 6) (BitVec.ofNat 64 n) (b.ctx ▸ a.ctx ▸ hb) mapWrite_tplr
    (b.quiet (a.quiet hq)) rfl fun hm => by
      rw [b.cfg, a.cfg] at hm
      exact (turn hm).txBusy.trans (idle hm)
  refine ⟨t, ?_, ?_, fun hm => ⟨u.draws, ?_⟩⟩
  · rw [transmitFrame, hu, andThen_ok]
    exact (congrArg (Answer.andThen · _) hw).trans ht
  · rw [(regWrite_script ht).1, (stageWords_script hw).1, (regWrite_script hu).1]
  · rw [regWrite_tplr_dev hn ht (b.quiet (a.quiet hq)) (by rw [b.cfg, a.cfg]; exact hm)]
    exact (turn hm).triggered hn

end Sys2Proof.Machine
end

section
/-! A whole `send` (42_transmit.md rules R180 to R189, R192): its stages, how each completes, and what it makes of the machine. -/

namespace Sys2Proof.Machine

open Sys2Proof

/-! ## The stages of `send` -/

/-- The state in which `send` comes to its optional wait: an oversize length has been recorded (42_transmit.md rule R181). -/
def atWait (length : Nat) (s : State) : State :=
  { s with position := .running .send (stepNo 3), trace := s.trace ++ oversizeRecords length }

/-- What `send` does after the wait: it transmits, or reports the time-out. -/
def afterWait (frame : List Byte) (length : Nat) (idle : Bool) (s : State) : Answer Result :=
  if idle then (transmitFrame frame (clampedLength length) s).andThen fun _ t => .ok .unit t
  else .ok .timeout (record .timeout (.length length) s)

theorem recordOversize_entered (length : Nat) (s : State) :
    atStep (stepNo 3) (recordOversize length (atStep (stepNo 1) (entered .send s))) = atWait length s := by
  unfold recordOversize atWait oversizeRecords maxPacket
  split
  · rfl
  · rw [List.append_nil]
    rfl

/-- `send` in a started context is its wait and what comes after it. -/
theorem sendBody_entered {s : State} (hs : s.ctx.started = true) (frame : List Byte) (length : Nat) :
    sendBody frame length (entered .send s) = (waitStep (atWait length s)).andThen (afterWait frame length) := by
  rw [sendBody, entered_ctx, if_pos hs, recordOversize_entered]
  rfl

theorem sendBody_started {frame : List Byte} {length : Nat} {s t : State} {r : Result}
    (h : sendBody frame length (entered .send s) = .ok r t) : s.ctx.started = true :=
  (sendBody_carries h).2.2

/-- A `send` completes with what its stages complete with. -/
theorem exec_send_next {frame : List Byte} {length : Nat} {s u v : State} {idle : Bool} {r : Result} (hp : s.position = .idle)
    (hs : s.ctx.started = true) (wait : waitStep (atWait length s) = .ok idle u) (rest : afterWait frame length idle u = .ok r v) :
    exec (.send frame length) s = .next (returnTo .idle r v) := by
  have body : sendBody frame length (entered .send s) = .ok r v := by rw [sendBody_entered hs, wait, andThen_ok, rest]
  exact hp ▸ (hostCall_idle hp).trans (runOp_ok body)

/-- Everything a completed `send` is. -/
theorem exec_send_cases {frame : List Byte} {length : Nat} {s t : State} (h : exec (.send frame length) s = .next t) :
    ∃ idle u r v, waitStep (atWait length s) = .ok idle u ∧ afterWait frame length idle u = .ok r v ∧
      t = returnTo .idle r v := by
  obtain ⟨-, r, v, hv, rfl⟩ := hostCall_cases h
  have body : sendBody frame length (entered .send s) = .ok r v := hv
  rw [sendBody_entered (sendBody_started hv)] at body
  obtain ⟨idle, u, wait, rest⟩ := andThen_eq_ok.mp body
  exact ⟨idle, u, r, v, wait, rest, rfl⟩

/-- Without the optional wait nothing comes before the transmission. -/
theorem waitStep_off {s : State} (off : s.cfg.txWaitIdle = false) (length : Nat) :
    waitStep (atWait length s) = .ok true (atWait length s) := by
  simp [waitStep, atWait, off]

theorem waitStep_on {s : State} (on : s.cfg.txWaitIdle = true) (length : Nat) :
    waitStep (atWait length s) = waitIdle (stepNo 3) s.cfg.txWaitCap (atWait length s) := by
  simp [waitStep, atWait, on]

/-- Coming to the wait changes nothing of what the others' turn makes of the DEVICE. -/
theorem afterOthers_atWait_dev (length : Nat) (s : State) : (afterOthers (atWait length s)).dev = (afterOthers s).dev :=
  afterOthers_dev_congr (s := s) (u := atWait length s) rfl rfl rfl

/-! ## A `send` that transmits -/

@[simp] theorem sendAccesses_length (base : Word) (ws : List Word) (n : Nat) : (sendAccesses base ws n).length = ws.length + 2 := by
  simp [sendAccesses]

/-- The accesses of a transmission. -/
theorem transmitFrame_accesses {frame : List Byte} {n : Nat} {s t : State} {base : Word} (h : transmitFrame frame n s = .ok () t)
    (hb : s.ctx.ioBase = some base) : ∃ ws, StagedFrame frame n ws ∧ After s t (sendAccesses base ws n) := by
  obtain ⟨seed, after⟩ := transmitFrame_after h hb
  exact ⟨_, stagingWords_stagedFrame frame seed n, after⟩

/-- `send` goes on from `u`, reached by the polls `as`, stages the words `ws` and triggers, and its body ends in `v`. -/
structure Transmits (base : Word) (frame : List Byte) (length : Nat) (as : List Access) (s u : State) (ws : List Word) (v : State) :
    Prop where
  exec   : exec (.send frame length) s = .next (returnTo .idle .unit v)
  staged : StagedFrame frame (min length 1536) ws
  after  : After (atWait length s) v (as ++ sendAccesses base ws (min length 1536))
  script : v.script = u.script
  sent   : s.cfg.deviceMode = .reference → ∃ seed,
    SameTransmit (u.schedule = []) ((afterOthers u).dev.sending frame seed (min length 1536)) v.dev

/-- A quiet `send` whose wait ends with the busy bits clear, and whose first write meets no transmission, transmits. -/
theorem send_transmits {base : Word} {length : Nat} {as : List Access} {s u : State} (frame : List Byte) (ready : ReadyAt s base)
    (hs : s.ctx.started = true) (hq : Quiet s) (wait : waitStep (atWait length s) = .ok true u)
    (polled : After (atWait length s) u as) (idle : s.cfg.deviceMode = .reference → (afterOthers u).dev.txBusy = false) :
    ∃ ws v, Transmits base frame length as s u ws v := by
  obtain ⟨hp, -, hb⟩ := ready
  have hbu : u.ctx.ioBase = some base := by rw [polled.ctx]; exact hb
  have hcfg : u.cfg = s.cfg := polled.cfg
  obtain ⟨v, hv, script, sent⟩ :=
    transmitFrame_completes frame (Nat.min_le_right length 1536) hbu (polled.quiet hq) (hcfg ▸ idle)
  obtain ⟨ws, staged, after⟩ := transmitFrame_accesses hv hbu
  have rest : afterWait frame length true u = .ok .unit v := by rw [afterWait, if_pos rfl, clampedLength, maxPacket, hv, andThen_ok]
  exact ⟨ws, v, exec_send_next hp hs wait rest, staged, polled.trans after, script, hcfg ▸ sent⟩

/-- Settles O30: without the wait the transmission begins in the state in which `send` would wait. -/
theorem sendStagesAndTriggers : Obligations.SendStagesAndTriggers := by
  intro s base frame length ready hs hq off idle
  obtain ⟨ws, v, exec, ⟨length_eq, bytes⟩, after, script, -⟩ :=
    send_transmits frame ready hs hq (waitStep_off off length) (.refl _) (by rw [afterOthers_atWait_dev]; exact idle)
  have schedule := after.schedule
  rw [List.nil_append, sendAccesses_length, length_eq] at schedule
  have bus : v.bus = s.bus ++ ([] ++ sendAccesses base ws (min length 1536)) := after.bus
  refine ⟨_, ws, exec, length_eq, bytes, ?_, congrArg (· ++ [Result.unit]) after.returned, after.trace, after.dev, after.cfg,
    after.ctx, rfl, after.agenda, script, schedule⟩
  simpa [sendAccesses] using bus

/-- Settles O33: the first access is the TFCS write, and the DEVICE in flight refuses it. -/
theorem overlappingSendFaults : Obligations.OverlappingSendFaults := by
  intro s base frame length ⟨hp, _, hb⟩ hs hq hm off busy
  have write : regWrite (stepNo 4) offTfcs 0 (atWait length s) = .stop (.txOverlap 0x0818) := by
    have met : (atStep (stepNo 4) (afterOthers (atWait length s))).dev.txBusy = true := by
      rw [atStep_dev, afterOthers_atWait_dev]
      exact busy
    have mode : (atStep (stepNo 4) (afterOthers (atWait length s))).cfg.deviceMode = .reference := by
      rw [atStep_cfg, afterOthers_cfg]
      exact hm
    rw [regWrite_quiet (s := atWait length s) hb mapWrite_tfcs hq, performWrite, deviceWrite, mode]
    simp only [referenceWrite, unlessBusy, if_pos met]
    rfl
  have body : sendBody frame length (entered .send s) = .stop (.txOverlap 0x0818) := by
    rw [sendBody_entered hs, waitStep_off off, andThen_ok, afterWait, if_pos rfl, transmitFrame, write]
    rfl
  exact (hostCall_idle hp).trans (runOp_stop body)

/-! ## The frame on the wire -/

/-- Of the buffer memory, sending changes TXBUFF below the rounded length alone. -/
theorem sending_bytes_outside (d : Device) (frame : List Byte) (seed n a : Nat)
    (h : a < 0x1000 ∨ 0x1000 + 8 * ((n + 7) / 8) ≤ a) :
    Memory.readByte (d.sending frame seed n).buf a = Memory.readByte d.buf a :=
  readByte_storeBytes_outside _ _ _ _ (by rw [stagedBytes_length, wordCount_eq, offTxbuff]; exact h)

/-- A `send` that no other agent interrupts, and that meets no transmission, leaves its frame in flight in the REFERENCE DEVICE. -/
theorem send_unmoved {s : State} {base : Word} (frame : List Byte) (length : Nat) (ready : ReadyAt s base)
    (hs : s.ctx.started = true) (schedule : s.schedule = []) (hm : s.cfg.deviceMode = .reference) (off : s.cfg.txWaitIdle = false)
    (idle : s.dev.txBusy = false) :
    ∃ v seed, exec (.send frame length) s = .next (returnTo .idle .unit v) ∧
      v.dev = s.dev.sending frame seed (min length 1536) ∧ v.cfg = s.cfg ∧ v.agenda = s.agenda := by
  have turn : (afterOthers (atWait length s)).dev = s.dev := by rw [afterOthers_atWait_dev, afterOthers_nil s schedule]
  obtain ⟨ws, v, sends⟩ := send_transmits frame ready hs (by simp [Quiet, schedule]) (waitStep_off off length) (.refl _)
    fun _ => by rw [turn]; exact idle
  obtain ⟨seed, sent⟩ := sends.sent hm
  exact ⟨v, seed, sends.exec, by rw [sent.same schedule, turn], sends.after.cfg, sends.after.agenda⟩

theorem run_two {s t u : State} (first : step s = .next t) (second : step t = .next u) : Host.Core.run core 2 s = .next u := by
  simp [Host.Core.run, core, first, second]

/-- The completion of a transmission, with the frame sent still in the field `pending` (log 23). -/
theorem transmitDone_sending (d : Device) (frame : List Byte) (seed n : Nat) :
    transmitDone (d.sending frame seed n) =
      { d.sending frame seed n with wire := d.wire ++ [sentFrame frame seed n], txBusy := false } := by
  rw [← sending_pending d]
  rfl

/-- Settles O34: the second step is the completion that fairness forces, and it finds the caller's frame in flight. -/
theorem referenceSendReachesTheWire : Obligations.ReferenceSendReachesTheWire := by
  intro s base frame length ready hs schedule hm off idle agenda
  obtain ⟨v, seed, exec, dev, cfg, rest⟩ := send_unmoved (s := { s with agenda := [] }) frame length ready hs schedule hm off idle
  have call : step s = .next (returnTo .idle .unit v) := (stepRunsTheDecodedInstruction s _ [] _ agenda rfl).trans exec
  have completion : step (returnTo .idle .unit v) = .next (idleTurn (returnTo .idle .unit v)) := by
    rw [step, returnTo_agenda, rest]
  have mode : v.cfg.deviceMode = .reference := by rw [cfg]; exact hm
  have completed : (idleTurn (returnTo .idle .unit v)).dev = transmitDone (s.dev.sending frame seed (min length 1536)) := by
    rw [idleTurn, deviceMove_dev, returnTo_cfg, mode, returnTo_dev, dev]
    rfl
  refine ⟨_, sentFrame frame seed (min length 1536), run_two call completion, ?_⟩
  rw [completed, transmitDone_sending, sentFrame_length]
  refine ⟨rfl, rfl, rfl, fun k hk hf => sentFrame_getElem? seed hk hf, sending_bytes_outside s.dev frame seed _, ?_⟩
  rw [← sending_pending s.dev, ← idle]
  rfl

end Sys2Proof.Machine
end

section
/-! How many accesses an operation issues (42_transmit.md rules R190, R192; 70_reset_and_hazards.md rule R352). -/

namespace Sys2Proof.Machine

open Sys2Proof

/-! ## The accesses of a `send` without the wait -/

/-- The accesses a run adds to the bus are those issued. -/
theorem issued_of_bus {s t : State} {as : List Access} (h : t.bus = s.bus ++ as) : issued s t = as := by
  rw [issued, h, List.drop_left]

/-- A transmission that completes has found a base: its first write looks for it. -/
theorem transmitFrame_base {frame : List Byte} {n : Nat} {s t : State} (h : transmitFrame frame n s = .ok () t) :
    ∃ base, s.ctx.ioBase = some base := by
  obtain ⟨_, u, hu, -⟩ := andThen_eq_ok.mp h
  obtain ⟨base, -, -, -, hb, -⟩ := regWrite_cases hu
  exact ⟨base, hb⟩

/-- The rest of a `send` after a wait that found the DEVICE idle is a transmission. -/
theorem afterWait_idle {frame : List Byte} {length : Nat} {s t : State} {r : Result} (h : afterWait frame length true s = .ok r t) :
    r = .unit ∧ transmitFrame frame (min length 1536) s = .ok () t := by
  rw [afterWait, if_pos rfl, clampedLength, maxPacket] at h
  obtain ⟨_, u, hu, h⟩ := andThen_eq_ok.mp h
  cases h
  exact ⟨rfl, hu⟩

/-- A completed `send` without the wait issues the accesses of a transmission. -/
theorem send_issued {frame : List Byte} {length : Nat} {s t : State} (off : s.cfg.txWaitIdle = false)
    (h : exec (.send frame length) s = .next t) :
    ∃ base ws, s.ctx.ioBase = some base ∧ StagedFrame frame (min length 1536) ws ∧
      issued s t = sendAccesses base ws (min length 1536) := by
  obtain ⟨idle, u, r, v, wait, rest, rfl⟩ := exec_send_cases h
  rw [waitStep_off off] at wait
  cases wait
  obtain ⟨-, transmitted⟩ := afterWait_idle rest
  obtain ⟨base, hb⟩ := transmitFrame_base transmitted
  obtain ⟨ws, staged, after⟩ := transmitFrame_accesses transmitted hb
  exact ⟨base, ws, hb, staged, issued_of_bus after.bus⟩

theorem sendAccesses_write {base : Word} {ws : List Word} {n : Nat} : ∀ a ∈ sendAccesses base ws n, a.dir = .write := by
  simp only [sendAccesses, List.mem_append, List.mem_map, List.mem_singleton]
  rintro a ((rfl | ⟨p, -, rfl⟩) | rfl) <;> rfl

/-- The access goes to the transmit window at `base`. -/
def inTxWindow (base : Word) (a : Access) : Bool :=
  decide (0x1000 ≤ (a.addr - base).toNat ∧ (a.addr - base).toNat < 0x1800)

theorem writeAt_offset (base v : Word) {off : Nat} (h : off < 0x8000) : ((writeAt base off v).addr - base).toNat = off := by
  rw [writeAt, BitVec.add_comm, BitVec.add_sub_cancel, BitVec.toNat_ofNat]
  omega

theorem inTxWindow_writeAt (base v : Word) {off : Nat} (h : off < 0x8000) :
    inTxWindow base (writeAt base off v) = decide (0x1000 ≤ off ∧ off < 0x1800) := by
  rw [inTxWindow, writeAt_offset base v h]

/-- Of the accesses of a transmission, the staged words go to the transmit window, and no others. -/
theorem filter_inTxWindow {base : Word} {ws : List Word} {n : Nat} (h : ws.length ≤ 192) :
    ((sendAccesses base ws n).filter (inTxWindow base)).length = ws.length := by
  have words : ∀ a ∈ ws.zipIdx.map (fun p => writeAt base (0x1000 + 8 * p.2) p.1), inTxWindow base a = true := by
    rintro a ha
    obtain ⟨p, hp, rfl⟩ := List.mem_map.mp ha
    have := List.snd_lt_of_mem_zipIdx hp
    rw [inTxWindow_writeAt _ _ (by omega), decide_eq_true_eq]
    omega
  rw [sendAccesses, List.filter_append, List.filter_append, List.filter_eq_self.mpr words]
  simp [inTxWindow_writeAt]

/-- Settles O31: the accesses are those of the transmission, and the words staged are the ones in the window. -/
theorem sendAccessCounts : Obligations.SendAccessCounts := by
  refine ⟨fun s t frame length off h => ?_, by decide⟩
  obtain ⟨base, ws, hb, ⟨words, -⟩, accesses⟩ := send_issued off h
  rw [accesses]
  refine ⟨?_, sendAccesses_write, fun _ _ base' hb' => ?_⟩
  · rw [sendAccesses_length, words, ceil8]
    omega
  · obtain rfl : base = base' := Option.some.inj (hb.symm.trans hb')
    change 8 * ((sendAccesses base ws (min length 1536)).filter (inTxWindow base)).length = _
    rw [filter_inTxWindow (by omega)]
    omega

/-! ## Bounds -/

/-- A read that completes has found a base. -/
theorem regRead_base {k : StepIndex} {off : Nat} {s t : State} {v : Word} (h : regRead k off s = .ok v t) :
    ∃ base, s.ctx.ioBase = some base := by
  obtain ⟨base, -, -, hb, -⟩ := regRead_cases h
  exact ⟨base, hb⟩

/-- The longest receive of a slot reads RBAD, its RPLR, the Ethertype and 192 words. -/
theorem consumeSlot_accesses {slot : Nat} {s t : State} {r : Result} (h : consumeSlot slot s = .ok r t) :
    ∃ as, t.bus = s.bus ++ as ∧ as.length ≤ 195 := by
  obtain ⟨_, _, h1, -⟩ := andThen_eq_ok.mp h
  obtain ⟨base, hb⟩ := regRead_base h1
  obtain ⟨u, rbad, ⟨-, after, -, rfl⟩ | ⟨-, rplr, ⟨-, after, -, rfl⟩ | ⟨-, -, after, -, rfl⟩ |
    ⟨-, short, w, ⟨-, after, -, rfl⟩ | ⟨-, ws, words, after, -, rfl⟩⟩⟩⟩ := consumeSlot_cases h hb
  case inr.inr.inr.inr =>
    have := wordCount_le (n := (payloadLength s.cfg.rplrLengthMask rplr).toNat) (by omega)
    refine ⟨_, after.bus, ?_⟩
    simp only [List.length_append, List.length_cons, List.length_nil, fetched_length, words]
    omega
  all_goals exact ⟨_, after.bus, by simp⟩

theorem recvBody_accesses {s t : State} {r : Result} (h : recvBody s = .ok r t) : (issued s t).length ≤ 197 := by
  obtain ⟨-, rsr, s1, h1, h⟩ := recvBody_cases h
  obtain ⟨base, hb⟩ := regRead_base h1
  have a := regRead_after h1 hb
  obtain ⟨-, -, rfl⟩ | ⟨-, -, s2, h2, h3⟩ := h
  · simp [issued_of_bus a.bus]
  · obtain ⟨as, bus, bound⟩ := consumeSlot_accesses h2
    have hb2 : s2.ctx.ioBase = some base := by rw [(consumeSlot_carries h2).2, a.ctx, hb]
    have whole : t.bus = s.bus ++ ([readAt base offRsr rsr] ++ as ++ [writeAt base offRsr (ackValue (slotOf rsr))]) := by
      rw [(regWrite_after h3 hb2).bus, bus, a.bus]
      simp
    rw [issued_of_bus whole]
    simp only [List.length_append, List.length_cons, List.length_nil]
    omega

/-- A wait polls no more often than it may. -/
theorem waitIdle_accesses {k : Nat} {step : StepIndex} {s t : State} {idle : Bool} (h : waitIdle step k s = .ok idle t) :
    ∃ as, t.bus = s.bus ++ as ∧ as.length ≤ k := by
  cases k with
  | zero => cases h; exact ⟨[], by simp, Nat.le_refl 0⟩
  | succ k =>
    obtain ⟨v, u, hu, -⟩ := andThen_eq_ok.mp h
    obtain ⟨base, hb⟩ := regRead_base hu
    obtain ⟨polls, hl, after⟩ := waitIdle_after h hb
    exact ⟨_, after.bus, by simpa using hl⟩

theorem waitStep_accesses {length : Nat} {s t : State} {idle : Bool} (h : waitStep (atWait length s) = .ok idle t) :
    ∃ as, t.bus = s.bus ++ as ∧ as.length ≤ if s.cfg.txWaitIdle then s.cfg.txWaitCap else 0 := by
  cases on : s.cfg.txWaitIdle with
  | false => rw [waitStep_off on] at h; cases h; exact ⟨[], by simp [atWait], Nat.le_refl 0⟩
  | true => rw [waitStep_on on] at h; exact waitIdle_accesses (s := atWait length s) h

theorem afterWait_accesses {frame : List Byte} {length : Nat} {idle : Bool} {s t : State} {r : Result}
    (h : afterWait frame length idle s = .ok r t) : ∃ as, t.bus = s.bus ++ as ∧ as.length ≤ 194 := by
  cases idle with
  | false => cases h; exact ⟨[], by simp, by simp⟩
  | true =>
    obtain ⟨-, transmitted⟩ := afterWait_idle h
    obtain ⟨base, hb⟩ := transmitFrame_base transmitted
    obtain ⟨ws, ⟨words, -⟩, after⟩ := transmitFrame_accesses transmitted hb
    refine ⟨_, after.bus, ?_⟩
    rw [sendAccesses_length, words]
    omega

theorem send_accesses {frame : List Byte} {length : Nat} {s t : State} (h : exec (.send frame length) s = .next t) :
    (issued s t).length ≤ 194 + if s.cfg.txWaitIdle then s.cfg.txWaitCap else 0 := by
  obtain ⟨idle, u, r, v, wait, rest, rfl⟩ := exec_send_cases h
  obtain ⟨as, hu, polls⟩ := waitStep_accesses wait
  obtain ⟨bs, hv, accesses⟩ := afterWait_accesses rest
  rw [issued_of_bus (as := as ++ bs) (by rw [returnTo_bus, hv, hu, List.append_assoc]), List.length_append]
  omega

theorem resolveMac_accesses {index : Nat → StepIndex} {s t : State} {m : Vector Byte 6} (h : resolveMac index s = .ok m t) :
    ∃ as, t.bus = s.bus ++ as ∧ as.length = 3 := by
  obtain ⟨_, _, _, _, _, -, h1, -⟩ := resolveMac_cases h
  obtain ⟨base, hb⟩ := regRead_base h1
  obtain ⟨maclo, machi, u, -, rfl, after⟩ := resolveMac_bus h hb
  exact ⟨_, after.bus, rfl⟩

theorem resolveBody_accesses {s t : State} {r : Result} (h : resolveBody s = .ok r t) : (issued s t).length = 3 := by
  obtain ⟨m, u, hu, h⟩ := andThen_eq_ok.mp h
  cases h
  obtain ⟨as, bus, three⟩ := resolveMac_accesses hu
  rw [issued_of_bus bus, three]

theorem startBody_accesses {s t : State} {r : Result} (h : startBody s = .ok r t) : (issued s t).length = 4 := by
  obtain ⟨m, s1, s2, h1, h2, -, rfl⟩ := startBody_cases h
  obtain ⟨as, bus, three⟩ := resolveMac_accesses h1
  obtain ⟨base, r, u, w, hb, -⟩ := regWrite_cases h2
  have ring : s2.bus = s.bus ++ (as ++ [writeAt base offRfcs (BitVec.ofNat 64 s.cfg.ringDepth)]) := by
    rw [(regWrite_after h2 hb).bus, bus, List.append_assoc]
  exact (congrArg List.length (issued_of_bus (t := s2) ring)).trans (by rw [List.length_append, three]; rfl)

/-- A HOST call issues what its body issues. -/
theorem hostCall_accesses {op : Op} {body : State → Answer Result} {s t : State} (q : List Access → Prop)
    (leads : ∀ {r : Result} {u : State}, body (entered op s) = .ok r u → q (issued (entered op s) u))
    (h : hostCall op body s = .next t) : q (issued s t) := by
  obtain ⟨-, r, u, hu, rfl⟩ := hostCall_cases h
  have reached : q (issued (entered op s) u) := leads hu
  exact reached

/-- Settles O58: each body bounds its own accesses. -/
theorem accessCountsAreBounded : Obligations.AccessCountsAreBounded := by
  intro s t
  refine ⟨hostCall_accesses (·.length ≤ 197) recvBody_accesses, fun frame length => send_accesses,
    hostCall_accesses (·.length = 4) startBody_accesses, hostCall_accesses (·.length = 3) resolveBody_accesses,
    fun base phy => hostCall_accesses (· = []) fun hb => issued_of_bus ?_, hostCall_accesses (· = []) fun hb => issued_of_bus ?_⟩
  · rw [(probeBody_untouched hb).1, List.append_nil]
  · rw [stopBody_eq hb, List.append_nil]

end Sys2Proof.Machine
end

section
/-! A `send` with the optional wait (42_transmit.md rule R190): its polls, and how it ends. -/

namespace Sys2Proof.Machine

open Sys2Proof

/-! ## The polls -/

/-- From `s` the wait at `step` makes the busy polls `polls`, and goes on in `t` with the polls it has left. -/
structure BusyPolls (base : Word) (step : StepIndex) (polls : List Word) (s t : State) : Prop where
  after   : After s t (polls.map (readAt base offTplr))
  busy    : ∀ v ∈ polls, v &&& s.cfg.tplrBusyMask ≠ 0
  resumes : ∃ step', ∀ left, waitIdle step (polls.length + left) s = waitIdle step' left t

theorem BusyPolls.nil (base : Word) (step : StepIndex) (s : State) : BusyPolls base step [] s s :=
  ⟨.refl s, nofun, step, fun left => by rw [List.length_nil, Nat.zero_add]⟩

theorem BusyPolls.cons {base v : Word} {vs : List Word} {step : StepIndex} {s t u : State} (hb : s.ctx.ioBase = some base)
    (poll : regRead step offTplr s = .ok v u) (busy : v &&& s.cfg.tplrBusyMask ≠ 0) (rest : BusyPolls base step.nextItem vs u t) :
    BusyPolls base step (v :: vs) s t := by
  have a := regRead_after poll hb
  obtain ⟨step', resumes⟩ := rest.resumes
  refine ⟨a.trans rest.after, List.forall_mem_cons.mpr ⟨busy, a.cfg ▸ rest.busy⟩, step', fun left => ?_⟩
  have length : (v :: vs).length + left = vs.length + left + 1 := by rw [List.length_cons]; omega
  rw [length, waitIdle, poll, andThen_ok, if_neg (a.cfg ▸ busy), resumes]

/-- A wait whose every poll is busy times out. -/
theorem BusyPolls.timesOut {base : Word} {step : StepIndex} {polls : List Word} {s t : State} (h : BusyPolls base step polls s t) :
    waitIdle step polls.length s = .ok false t := by
  obtain ⟨step', resumes⟩ := h.resumes
  exact resumes 0

/-- A wait whose next poll finds the busy bits clear ends there. -/
theorem BusyPolls.goesOn {base : Word} {step : StepIndex} {polls : List Word} {s t : State} (h : BusyPolls base step polls s t)
    (hb : s.ctx.ioBase = some base) (hq : Quiet s) {cap : Nat} (left : polls.length < cap)
    (clear : ∀ {step' : StepIndex} {v : Word} {u : State}, regRead step' offTplr t = .ok v u → v &&& s.cfg.tplrBusyMask = 0) :
    ∃ step' v u, regRead step' offTplr t = .ok v u ∧ waitIdle step cap s = .ok true u ∧
      After s u (polls.map (readAt base offTplr) ++ [readAt base offTplr v]) := by
  obtain ⟨step', resumes⟩ := h.resumes
  have hbt : t.ctx.ioBase = some base := h.after.ctx ▸ hb
  obtain ⟨v, u, poll⟩ := regRead_completes (k := step') hbt mapRead_tplr (h.after.quiet hq)
  have a := regRead_after poll hbt
  refine ⟨step', v, u, poll, ?_, h.after.trans a⟩
  have cut : cap = polls.length + (cap - polls.length - 1 + 1) := by omega
  rw [cut, resumes, waitIdle, poll, andThen_ok, if_pos (by rw [a.cfg, h.after.cfg]; exact clear poll)]

/-! ## A `send` that times out -/

/-- The fields a run of accesses leaves alone, or changes in the known way. -/
theorem After.state_eq {s t : State} {as : List Access} (h : After s t as) :
    t = { s with position := t.position, dev := t.dev, script := t.script, draws := t.draws,
                 schedule := s.schedule.drop as.length, bus := s.bus ++ as } := by
  rw [← h.schedule, ← h.bus, ← h.trace, ← h.ctx, ← h.cfg, ← h.agenda, ← h.returned]

/-- A `send` that times out has polled, and nothing else. -/
theorem send_timesOut {base : Word} {length : Nat} {as : List Access} {s u : State} (frame : List Byte) (ready : ReadyAt s base)
    (hs : s.ctx.started = true) (wait : waitStep (atWait length s) = .ok false u) (polled : After (atWait length s) u as) :
    exec (.send frame length) s =
      .next { s with dev := u.dev, script := u.script, draws := u.draws, schedule := s.schedule.drop as.length, bus := s.bus ++ as,
                     trace := s.trace ++ oversizeRecords length ++ [⟨.timeout, .send, .length length⟩],
                     returned := s.returned ++ [.timeout] } := by
  rw [exec_send_next ready.1 hs wait (frame := frame) rfl, record, show currentOp u = .send from polled.op, polled.state_eq, returnTo,
    ← ready.1]
  rfl

/-! ## The wait in ABSTRACT mode -/

/-- The busy values at the head of the script are polled. -/
theorem busyPolls_scripted {base : Word} {polls rest : List Word} {step : StepIndex} {s : State} (hb : s.ctx.ioBase = some base)
    (hq : Quiet s) (hm : s.cfg.deviceMode = .abstr) (script : s.script = polls ++ rest)
    (busy : ∀ v ∈ polls, v &&& s.cfg.tplrBusyMask ≠ 0) :
    ∃ t, BusyPolls base step polls s t ∧ t.script = rest ∧ t.draws = s.draws := by
  induction polls generalizing step s with
  | nil => exact ⟨s, .nil base step s, script, rfl⟩
  | cons v vs ih =>
    obtain ⟨v', u, poll⟩ := regRead_completes (k := step) hb mapRead_tplr hq
    obtain ⟨rfl, script', draws⟩ := regRead_scripted poll hm script
    have a := regRead_after poll hb
    obtain ⟨first, later⟩ := List.forall_mem_cons.mp busy
    obtain ⟨t, ht, script'', draws'⟩ :=
      ih (step := step.nextItem) (a.ctx ▸ hb) (a.quiet hq) (a.cfg ▸ hm) script' (a.cfg ▸ later)
    exact ⟨t, .cons hb poll first ht, script'', draws'.trans draws⟩

/-- Settles O32: the script's busy values are the polls; the wait ends with the cap, or at the first value that is not busy. -/
theorem sendWaitsForIdle : Obligations.SendWaitsForIdle := by
  intro s base frame length polls rest ready hs hq hm on script busy
  obtain ⟨w, polled, script_w, draws⟩ := busyPolls_scripted (s := atWait length s) (step := stepNo 3) ready.2.2 hq hm script busy
  refine ⟨fun cap => ?_, fun v more next left clear => ?_⟩
  · have wait : waitStep (atWait length s) = .ok false w := by rw [waitStep_on on, ← cap]; exact polled.timesOut
    rw [send_timesOut frame ready hs wait polled.after, script_w, draws, polled.after.dev hm, List.length_map]
    rfl
  · have answer {step' : StepIndex} {v' : Word} {u : State} (poll : regRead step' offTplr w = .ok v' u) :=
      regRead_scripted poll (by rw [polled.after.cfg]; exact hm) (script_w.trans next)
    obtain ⟨step', v', u, poll, wait, after⟩ := polled.goesOn ready.2.2 hq left fun poll => by rw [(answer poll).1]; exact clear
    obtain ⟨rfl, script_u, -⟩ := answer poll
    obtain ⟨ws, t, sends⟩ := send_transmits frame ready hs hq ((waitStep_on on length).trans wait) after
      fun reference => absurd (hm.symm.trans reference) nofun
    have schedule := sends.after.schedule
    rw [List.length_append, List.length_append, List.length_map, sendAccesses_length, sends.staged.1] at schedule
    have bus : t.bus = s.bus ++ _ := sends.after.bus
    rw [← List.append_assoc, ← List.append_assoc] at bus
    exact ⟨_, ws, sends.exec, sends.staged, bus, congrArg (· ++ [Result.unit]) sends.after.returned,
      sends.script.trans script_u, sends.after.trace, schedule, sends.after.dev hm, sends.after.ctx, sends.after.cfg, rfl,
      sends.after.agenda⟩

/-! ## The wait in REFERENCE mode -/

theorem tplrValue_busy {mask : Word} (h : mask ≠ 0) (d : Word) : tplrValue mask true d &&& mask ≠ 0 := by
  rw [tplrValue, if_pos rfl]
  split
  · have absorbed : (d ||| mask) &&& mask = mask := by ext i; simp +contextual
    rwa [absorbed]
  · assumption

theorem tplrValue_idle (mask d : Word) : tplrValue mask false d &&& mask = 0 := by
  ext i
  simp [tplrValue]

/-- What a poll of the REFERENCE DEVICE reads, and that it leaves the DEVICE as the others' turn has made it. -/
theorem regRead_tplr_reference {step : StepIndex} {s t : State} {v : Word} (h : regRead step offTplr s = .ok v t) (hq : Quiet s)
    (hm : s.cfg.deviceMode = .reference) :
    (∃ d, v = tplrValue s.cfg.tplrBusyMask (afterOthers s).dev.txBusy d) ∧ t.dev = (afterOthers s).dev := by
  obtain ⟨base, r, u, -, hr, hu, rfl, rfl⟩ := regRead_cases h
  obtain rfl : ReadReg.tplr = r := Mapped.at.inj (mapRead_tplr.symm.trans hr)
  rw [othersTurn_quiet (atStep step s) hq, afterOthers_atStep] at hu
  cases hu
  refine ⟨⟨(drawWord (atStep step (afterOthers s))).1, ?_⟩, by simp⟩
  simp [deviceRead, hm, referenceRead]

/-- While a transmission is in flight, and no completion lands, the polls are busy. -/
theorem busyPolls_transmitting {base : Word} {n : Nat} {step : StepIndex} {s : State} (hb : s.ctx.ioBase = some base) (hq : Quiet s)
    (hm : s.cfg.deviceMode = .reference) (mask : s.cfg.tplrBusyMask ≠ 0) (busy : s.dev.txBusy = true)
    (pending : ∀ q ∈ s.schedule.take n, Move.device .txDone ∉ q) :
    ∃ polls t, polls.length = n ∧ BusyPolls base step polls s t ∧ SameTransmit (s.schedule = []) s.dev t.dev := by
  induction n generalizing step s with
  | zero => exact ⟨[], s, rfl, .nil base step s, .refl _ s.dev⟩
  | succ n ih =>
    have first : ∀ q ∈ s.schedule.head?, Move.device .txDone ∉ q := by
      intro q hq
      obtain ⟨rest, hrest⟩ := List.head?_eq_some_iff.mp hq
      exact pending q (by rw [hrest]; exact List.mem_cons_self)
    have later : ∀ q ∈ (s.schedule.drop 1).take n, Move.device .txDone ∉ q := by
      rw [List.take_drop, Nat.add_comm]
      exact fun q hq => pending q (List.mem_of_mem_drop hq)
    have turn := afterOthers_sameTransmit s (.inr first)
    obtain ⟨v, u, poll⟩ := regRead_completes (k := step) hb mapRead_tplr hq
    obtain ⟨⟨d, rfl⟩, dev⟩ := regRead_tplr_reference poll hq hm
    have a := regRead_after poll hb
    rw [← dev] at turn
    obtain ⟨polls, t, length, polled, kept⟩ := ih (step := step.nextItem) (a.ctx ▸ hb) (a.quiet hq) (a.cfg ▸ hm)
      (a.cfg ▸ mask) (turn.txBusy.trans busy) (a.schedule ▸ later)
    refine ⟨_ :: polls, t, by rw [List.length_cons, length], .cons hb poll ?_ polled, turn.trans (kept.of_imp ?_)⟩
    · rw [← dev, turn.txBusy, busy]
      exact tplrValue_busy mask d
    · intro hs
      rw [a.schedule, hs]
      rfl

/-- Where the busy polls of a `send` end in a state whose next poll meets no transmission, the frame is staged and in flight, and the
wire is as that poll finds it. -/
theorem send_goesOn {base : Word} {length : Nat} {polls : List Word} {s w : State} (frame : List Byte) (ready : ReadyAt s base)
    (hs : s.ctx.started = true) (hq : Quiet s) (hm : s.cfg.deviceMode = .reference) (on : s.cfg.txWaitIdle = true)
    (polled : BusyPolls base (stepNo 3) polls (atWait length s) w) (left : polls.length < s.cfg.txWaitCap)
    (idle : (afterOthers w).dev.txBusy = false) :
    ∃ t v ws, exec (.send frame length) s = .next t ∧ v &&& s.cfg.tplrBusyMask = 0 ∧ StagedFrame frame (min length 1536) ws ∧
      t.bus = s.bus ++ polls.map (readAt base 0x0810) ++ [readAt base 0x0810 v] ++ sendAccesses base ws (min length 1536) ∧
      t.returned = s.returned ++ [.unit] ∧ t.trace = s.trace ++ oversizeRecords length ∧ t.ctx = s.ctx ∧ t.position = .idle ∧
      t.dev.txBusy = true ∧ t.dev.wire = (afterOthers w).dev.wire ∧ t.dev.pending.length = min length 1536 ∧
      ∀ k < min length 1536, k < frame.length → t.dev.pending[k]? = frame[k]? := by
  have answer {step' : StepIndex} {v : Word} {u : State} (poll : regRead step' offTplr w = .ok v u) :=
    regRead_tplr_reference poll (polled.after.quiet hq) (by rw [polled.after.cfg]; exact hm)
  have clear {step' : StepIndex} {v : Word} {u : State} (poll : regRead step' offTplr w = .ok v u) :
      v &&& s.cfg.tplrBusyMask = 0 := by
    obtain ⟨⟨d, rfl⟩, -⟩ := answer poll
    rw [idle, polled.after.cfg]
    exact tplrValue_idle _ d
  obtain ⟨step', v, u, poll, wait, after⟩ := polled.goesOn ready.2.2 hq left clear
  have dev := (answer poll).2
  have turn := afterOthers_sameTransmit u (.inl (dev ▸ idle))
  obtain ⟨ws, t, sends⟩ := send_transmits frame ready hs hq ((waitStep_on on length).trans wait) after
    fun _ => turn.txBusy.trans (dev ▸ idle)
  obtain ⟨seed, sent⟩ := sends.sent hm
  have frame_eq : t.dev.pending = sentFrame frame seed (min length 1536) := sent.pending.trans (sending_pending _ _ _ _)
  have bus : t.bus = s.bus ++ _ := sends.after.bus
  rw [← List.append_assoc, ← List.append_assoc] at bus
  refine ⟨_, v, ws, sends.exec, clear poll, sends.staged, bus, congrArg (· ++ [Result.unit]) sends.after.returned,
    sends.after.trace, sends.after.ctx, rfl, sent.txBusy, sent.wire.trans (turn.wire.trans (congrArg Device.wire dev)), ?_, fun k hk hf => ?_⟩
  · rw [returnTo_dev, frame_eq, sentFrame_length]
  · rw [returnTo_dev, frame_eq, sentFrame_getElem? seed hk hf]

/-- Settles O60: the polls are busy until the turn of the others in which the completion lands. -/
theorem referenceSendWaitsForIdle : Obligations.ReferenceSendWaitsForIdle := by
  intro s base frame length ready hs hq hm on
  refine ⟨fun idle cap => ?_, fun busy mask => ⟨fun qs ms rest schedule cap pending done => ?_, fun pending => ?_⟩⟩
  · obtain ⟨t, v, ws, sends⟩ := send_goesOn frame ready hs hq hm on (.nil base (stepNo 3) (atWait length s)) cap
      (by rw [afterOthers_atWait_dev]; exact idle)
    rw [afterOthers_atWait_dev, List.map_nil, List.append_nil] at sends
    exact ⟨t, v, ws, sends⟩
  · obtain ⟨polls, w, count, polled, kept⟩ := busyPolls_transmitting (s := atWait length s) (n := qs.length) (step := stepNo 3)
      ready.2.2 hq hm mask busy (by simpa [atWait, schedule] using pending)
    have next : w.schedule = ms :: rest := by
      rw [polled.after.schedule, List.length_map, count]
      simp [atWait, schedule]
    obtain ⟨idle, wire⟩ := afterOthers_txDone next (by rw [polled.after.cfg]; exact hm) (kept.txBusy.trans busy) done
    obtain ⟨t, v, ws, sends⟩ := send_goesOn frame ready hs hq hm on polled (count ▸ cap) idle
    obtain ⟨exec, clear, staged, bus, returned, trace, ctx, position, txBusy, wire_t, sent⟩ := sends
    exact ⟨t, polls, v, ws, exec, count, polled.busy, clear, staged, bus, returned, trace, ctx, position, txBusy,
      wire_t.trans (by rw [wire, kept.wire, kept.pending]; rfl), sent⟩
  · obtain ⟨polls, w, count, polled, kept⟩ := busyPolls_transmitting (s := atWait length s) (n := s.cfg.txWaitCap)
      (step := stepNo 3) ready.2.2 hq hm mask busy pending
    have wait : waitStep (atWait length s) = .ok false w := by rw [waitStep_on on, ← count]; exact polled.timesOut
    refine ⟨_, polls, send_timesOut frame ready hs wait polled.after, count, polled.busy, rfl, rfl, rfl, rfl, ready.1,
      kept.txBusy.trans busy, kept.wire, kept.pending, kept.tfcs, fun still => ?_⟩
    rw [kept.same still, still, List.drop_nil, ← still]
    rfl

end Sys2Proof.Machine
end

section
/-! The records of the machine only grow (43_receive.md rule R231; 70_reset_and_hazards.md rule R346; log 28). -/

namespace Sys2Proof.Machine

open Sys2Proof

/-- The results, the bus record and the trace of `s` are beginnings of those of `t`. -/
structure Grows (s t : State) : Prop where
  returned : s.returned.IsPrefix t.returned
  bus      : s.bus.IsPrefix t.bus
  trace    : s.trace.IsPrefix t.trace

theorem Carries.grows {s t : State} (h : Carries s t) : Grows s t :=
  ⟨h.returned ▸ List.prefix_refl _, h.bus, h.trace⟩

/-- A whole operation adds one result, after what its body adds to the bus and the trace. -/
theorem Returned.grows {op : Op} {s t : State} (h : Returned op s t) : Grows s t := by
  obtain ⟨r, u, c, rfl⟩ := h
  exact ⟨by rw [returnTo_returned, c.returned]; exact List.prefix_append _ _, c.bus, c.trace⟩

/-- Settles O56: a DEVICE step carries the records along, and a whole operation adds to them. -/
theorem returnedBuffersAreKept : Obligations.ReturnedBuffersAreKept := by
  intro s t h
  have grows : Grows s t := by
    obtain ⟨-, rfl⟩ | ⟨d, rest, -, rfl⟩ | ⟨r, rest, op, -, ho⟩ := step_cases h
    · exact (deviceMove_carries .txDone s).grows
    · have moved : Grows { s with agenda := rest } _ := (deviceMove_carries d _).grows
      exact ⟨moved.returned, moved.bus, moved.trace⟩
    · exact ⟨ho.grows.returned, ho.grows.bus, ho.grows.trace⟩
  exact ⟨grows.returned, grows.bus, grows.trace⟩

end Sys2Proof.Machine
end

section
/-! The stages of `recv` (43_receive.md rule R200): what each decision point makes of the values read before it. -/

namespace Sys2Proof.Machine

open Sys2Proof

/-! ## The whole call -/

theorem exec_recv_ok {s t : State} {r : Result} (hp : s.position = .idle) (h : recvBody (entered .recv s) = .ok r t) :
    exec .recv s = .next (returnTo .idle r t) :=
  hp ▸ (hostCall_idle hp).trans (runOp_ok h)

theorem exec_recv_stop {s : State} {f : Fault} (hp : s.position = .idle) (h : recvBody (entered .recv s) = .stop f) :
    exec .recv s = .fault f :=
  (hostCall_idle hp).trans (runOp_stop h)

theorem recvBody_empty {s s1 : State} {rsr : Word} (hs : s.ctx.started = true) (h : regRead (stepNo 1) offRsr s = .ok rsr s1)
    (clear : rsrDone rsr = false) : recvBody s = .ok .noFrame s1 := by
  simp [recvBody, hs, h, clear]

/-- A slot outside the ring is noticed before any other access (43_receive.md rule R203). -/
theorem recvBody_outside {s s1 : State} {rsr : Word} (hs : s.ctx.started = true) (h : regRead (stepNo 1) offRsr s = .ok rsr s1)
    (done : rsrDone rsr = true) (outside : s.cfg.ringDepth ≤ slotOf rsr) : recvBody s = .stop (.slotRange (slotOf rsr)) := by
  simp [recvBody, hs, h, done, receiveSlot, (regRead_carries h).cfg, outside]

theorem recvBody_ready {s s1 s2 t : State} {rsr : Word} {r : Result} (hs : s.ctx.started = true)
    (h : regRead (stepNo 1) offRsr s = .ok rsr s1) (done : rsrDone rsr = true) (inside : slotOf rsr < s.cfg.ringDepth)
    (consumed : consumeSlot (slotOf rsr) s1 = .ok r s2)
    (ack : regWrite (stepNo 7) offRsr (ackValue (slotOf rsr)) s2 = .ok () t) : recvBody s = .ok r t := by
  simp [recvBody, hs, h, done, receiveSlot, (regRead_carries h).cfg, Nat.not_le.mpr inside, consumed, acknowledgeSlot, ack]

/-! ## The class of a frame (44_classifier.md rules R240, R241) -/

theorem classifyType_drops_iff (e : BitVec 16) : (classifyType e).drops = true ↔ e ≠ 0x0800 ∧ e ≠ 0x0806 := by
  unfold classifyType
  split
  · simp [Class.drops, *]
  · split
    · simp [Class.drops, *]
    · split <;> simp [Class.drops, *]

theorem classifyType_accepts_iff (e : BitVec 16) : (classifyType e).drops = false ↔ e = 0x0800 ∨ e = 0x0806 := by
  rw [← Bool.not_eq_true, classifyType_drops_iff]
  tauto

/-- The class of a frame that is neither IPv4 nor ARP. -/
theorem classifyType_of_drops {e : BitVec 16} (h : (classifyType e).drops = true) :
    classifyType e = if e = 0x86DD then .dropIPv6 else .dropUnknown := by
  obtain ⟨h4, h6⟩ := (classifyType_drops_iff e).mp h
  exact (if_neg h4).trans (if_neg h6)

/-! ## The length of a frame, in terms of the raw value read (30_encoding.md rule R108) -/

theorem validateLength_invalid {raw : Nat} (slot : Nat) (s : State) (h : raw < 18 ∨ 1540 < raw) :
    validateLength slot ((raw : Int) - 4) s =
      dropFrame (if raw < 18 then .undersizeFrame else .oversizeFrame) slot s := by
  unfold validateLength minFrame maxPacket
  by_cases short : raw < 18
  · rw [if_pos (by omega), if_pos short]
  · rw [if_neg (by omega), if_pos (by omega), if_neg short]

theorem validateLength_valid {raw : Nat} (slot : Nat) (s : State) (h1 : 18 ≤ raw) (h2 : raw ≤ 1540) :
    validateLength slot ((raw : Int) - 4) s = dispatchFrame slot (raw - 4) s := by
  unfold validateLength minFrame maxPacket
  rw [if_neg (by omega), if_neg (by omega), show ((raw : Int) - 4).toNat = raw - 4 by omega]

/-! ## Steps 3 to 6c -/

theorem consumeSlot_errored {slot : Nat} {s s1 : State} {rbad : Word} (h1 : regRead (stepNo 3) offRbad s = .ok rbad s1)
    (bad : slotUsable rbad slot = false) : consumeSlot slot s = dropFrame .ringSlotError slot s1 := by
  simp [consumeSlot, h1, bad]

section

variable {slot : Nat} {s s1 s2 s3 t : State} {rbad rplr w : Word} {ws : List Word}
  (h1 : regRead (stepNo 3) offRbad s = .ok rbad s1) (usable : slotUsable rbad slot = true)
  (h2 : regRead (stepNo 4) (rplrOffset slot) s1 = .ok rplr s2)

include h1 usable h2

theorem consumeSlot_usable : consumeSlot slot s =
    validateLength slot (((rplr &&& s.cfg.rplrLengthMask).toNat : Int) - 4) (atStep (stepNo 5) s2) := by
  have cfg : s2.cfg = s.cfg := (regRead_carries h2).cfg.trans (regRead_carries h1).cfg
  simp [consumeSlot, h1, usable, validateFrame, h2, payloadLength, fcsBytes, cfg]

theorem consumeSlot_badLength
    (invalid : (rplr &&& s.cfg.rplrLengthMask).toNat < 18 ∨ 1540 < (rplr &&& s.cfg.rplrLengthMask).toNat) :
    consumeSlot slot s = dropFrame (if (rplr &&& s.cfg.rplrLengthMask).toNat < 18 then .undersizeFrame else .oversizeFrame) slot
      (atStep (stepNo 5) s2) := by
  rw [consumeSlot_usable h1 usable h2, validateLength_invalid slot _ invalid]

variable (long : 18 ≤ (rplr &&& s.cfg.rplrLengthMask).toNat) (short : (rplr &&& s.cfg.rplrLengthMask).toNat ≤ 1540)
  (h3 : regRead (stepPart 6 .a) (rxbuffOffset slot + 8) s2 = .ok w s3)

include long short h3

theorem consumeSlot_validLength : consumeSlot slot s = dispatchClass (classifyType (etherTypeOf w)) slot
    ((rplr &&& s.cfg.rplrLengthMask).toNat - 4) (atStep (stepPart 6 .b) s3) := by
  rw [consumeSlot_usable h1 usable h2, validateLength_valid slot _ long short, dispatchFrame, regRead_atStep, h3, andThen_ok]

theorem consumeSlot_otherProtocol (drops : (classifyType (etherTypeOf w)).drops = true) :
    consumeSlot slot s = dropFrame (.unsupportedProtocol (classifyType (etherTypeOf w))) slot (atStep (stepPart 6 .b) s3) := by
  rw [consumeSlot_validLength h1 usable h2 long short h3, dispatchClass, if_pos drops]

theorem consumeSlot_accepted (accepts : (classifyType (etherTypeOf w)).drops = false)
    (copied : fetchWords (stepPart 6 .c) (rxbuffOffset slot) (wordCount ((rplr &&& s.cfg.rplrLengthMask).toNat - 4))
      (atStep (stepPart 6 .b) s3) = .ok ws t) :
    consumeSlot slot s = .ok (.frame (ws.flatMap unpackWord) ((rplr &&& s.cfg.rplrLengthMask).toNat - 4)) t := by
  rw [consumeSlot_validLength h1 usable h2 long short h3, dispatchClass, if_neg (by simp [accepts]), copyFrame, copied,
    andThen_ok]

end

/-! ## The RSR read -/

/-- A read before which no HOST call lands completes. -/
theorem regRead_completes_quietNext {k : StepIndex} {off : Nat} {s : State} {base : Word} {r : ReadReg}
    (hb : s.ctx.ioBase = some base) (hr : mapRead off = .at r) (hq : QuietNext s) : ∃ v t, regRead k off s = .ok v t := by
  rw [regRead_quietNext hb hr hq]
  exact ⟨_, _, rfl⟩

/-- What the REFERENCE DEVICE answers a read is its answer as the others' turn has left it, and it stays so. -/
theorem regRead_reference_quietNext {k : StepIndex} {off : Nat} {r : ReadReg} {s t : State} {v : Word}
    (h : regRead k off s = .ok v t) (hr : mapRead off = .at r) (hq : QuietNext s) (hm : s.cfg.deviceMode = .reference) :
    ∃ u, v = (referenceRead r u).1 ∧ u.dev = (afterOthers s).dev ∧ t.dev = (afterOthers s).dev := by
  obtain ⟨base, r', u, -, hr', hu, rfl, rfl⟩ := regRead_cases h
  obtain rfl : r = r' := Mapped.at.inj (hr.symm.trans hr')
  rw [othersTurn_quietNext (atStep k s) hq, afterOthers_atStep] at hu
  cases hu
  exact ⟨atStep k (afterOthers s), by simp [deviceRead, hm], rfl, by simp⟩

/-- What `recv` learns of the REFERENCE ring from RSR (60_exceptions.md rule R302). -/
theorem regRead_rsr_reference {s t : State} {v : Word} (h : regRead (stepNo 1) offRsr (entered .recv s) = .ok v t)
    (hq : QuietNext s) (hm : s.cfg.deviceMode = .reference) :
    slotOf v = (afterOthers s).dev.first.toNat ∧ rsrDone v = ringDone (afterOthers s).dev ∧ t.dev = (afterOthers s).dev := by
  obtain ⟨u, rfl, hu, ht⟩ := regRead_reference_quietNext h mapRead_rsr hq hm
  rw [afterOthers_entered] at hu ht
  refine ⟨?_, ?_, ht⟩
  · simp [referenceRead, slotOf, hu]
  · simp [referenceRead, hu]

theorem ringDone_iff (dev : Device) : ringDone dev = true ↔ dev.first ≠ dev.next := bne_iff_ne

theorem ringDone_false_iff (dev : Device) : ringDone dev = false ↔ dev.first = dev.next := by
  rw [← Bool.not_eq_true, ringDone_iff, not_not]

/-- Settles O36: the slot is that of the RSR value, and the fault comes right after the read. -/
theorem slotOutsideRingFaults : Obligations.SlotOutsideRingFaults := by
  intro s base ⟨hp, _, hb⟩ hs hq
  obtain ⟨v, s1, read⟩ := regRead_completes_quietNext (k := stepNo 1) (s := entered .recv s) hb mapRead_rsr hq
  have faults (done : rsrDone v = true) (outside : s.cfg.ringDepth ≤ slotOf v) :
      exec .recv s = .fault (.slotRange (slotOf v)) :=
    exec_recv_stop hp (recvBody_outside (s := entered .recv s) hs read done outside)
  refine ⟨fun hm rsr rest script done outside => ?_, fun hm done outside => ?_⟩
  · obtain ⟨rfl, -⟩ := regRead_scripted read hm script
    exact faults done outside
  · obtain ⟨slot, done_eq, -⟩ := regRead_rsr_reference read hq hm
    rw [← slot] at outside ⊢
    exact faults (done_eq.trans ((ringDone_iff _).mpr done)) outside

end Sys2Proof.Machine
end

section
/-! The runs of `recv` (43_receive.md rule R223): the accesses of a completed call, with what the values read decide. -/

namespace Sys2Proof.Machine

open Sys2Proof

/-! ## The runs -/

/-- What can become of a slot of the ring (43_receive.md rules R210 to R216): the reads made, the trace record, and the result. -/
inductive SlotRun (base mask : Word) (slot : Nat) : List Access → List TraceRecord → Result → Prop where
  | errored (rbad : Word) (bad : rbad &&& errorMask slot ≠ 0) :
      SlotRun base mask slot [readAt base offRbad rbad] [⟨.ringSlotError, .recv, .slot slot⟩] .noFrame
  | badLength (rbad rplr : Word) (usable : rbad &&& errorMask slot = 0)
      (invalid : (rplr &&& mask).toNat < 18 ∨ 1540 < (rplr &&& mask).toNat) :
      SlotRun base mask slot [readAt base offRbad rbad, readAt base (rplrOffset slot) rplr]
        [⟨if (rplr &&& mask).toNat < 18 then .undersizeFrame else .oversizeFrame, .recv, .slot slot⟩] .noFrame
  | otherProtocol (rbad rplr w : Word) (usable : rbad &&& errorMask slot = 0) (long : 18 ≤ (rplr &&& mask).toNat)
      (short : (rplr &&& mask).toNat ≤ 1540) (drops : (classifyType (etherTypeOf w)).drops = true) :
      SlotRun base mask slot
        [readAt base offRbad rbad, readAt base (rplrOffset slot) rplr, readAt base (rxbuffOffset slot + 8) w]
        [⟨.unsupportedProtocol (classifyType (etherTypeOf w)), .recv, .slot slot⟩] .noFrame
  | accepted (rbad rplr w : Word) (ws : List Word) (usable : rbad &&& errorMask slot = 0) (long : 18 ≤ (rplr &&& mask).toNat)
      (short : (rplr &&& mask).toNat ≤ 1540) (accepts : (classifyType (etherTypeOf w)).drops = false)
      (words : ws.length = wordCount ((rplr &&& mask).toNat - 4)) :
      SlotRun base mask slot
        ([readAt base offRbad rbad, readAt base (rplrOffset slot) rplr, readAt base (rxbuffOffset slot + 8) w] ++
          fetched base (rxbuffOffset slot) ws)
        [] (.frame (ws.flatMap unpackWord) ((rplr &&& mask).toNat - 4))

/-- What a completed call can be (43_receive.md rules R201, R220). -/
inductive RecvRun (base : Word) (cfg : Config) : List Access → List TraceRecord → Result → Prop where
  | empty (rsr : Word) (clear : rsrDone rsr = false) : RecvRun base cfg [readAt base offRsr rsr] [] .noFrame
  | ready (rsr : Word) (as : List Access) (records : List TraceRecord) (r : Result) (done : rsrDone rsr = true)
      (inside : slotOf rsr < cfg.ringDepth) (slot : SlotRun base cfg.rplrLengthMask (slotOf rsr) as records r) :
      RecvRun base cfg (readAt base offRsr rsr :: as ++ [writeAt base offRsr (ackValue (slotOf rsr))]) records r

/-! ## Every completed call is one of the runs -/

theorem slotUsable_eq_false_iff_and (rbad : Word) (slot : Nat) : slotUsable rbad slot = false ↔ rbad &&& errorMask slot ≠ 0 := by
  rw [← Bool.not_eq_true, slotUsable_iff]

/-- The state with more records in the trace. -/
def traced (records : List TraceRecord) (s : State) : State := { s with trace := s.trace ++ records }

theorem traced_nil (s : State) : traced [] s = s := by simp [traced]

theorem consumeSlot_slotRun {slot : Nat} {s t : State} {r : Result} {base : Word} (h : consumeSlot slot s = .ok r t)
    (hb : s.ctx.ioBase = some base) (hop : currentOp s = .recv) :
    ∃ as records u, SlotRun base s.cfg.rplrLengthMask slot as records r ∧ After s u as ∧ t = traced records u := by
  have length (rplr : Word) : payloadLength s.cfg.rplrLengthMask rplr = ((rplr &&& s.cfg.rplrLengthMask).toNat : Int) - 4 := rfl
  have recorded {u : State} {as : List Access} (kind : ErrorKind) (after : After s u as) :
      record kind (.slot slot) u = traced [⟨kind, .recv, .slot slot⟩] u := by
    rw [record, after.op, hop]
    rfl
  obtain ⟨u, rbad, ⟨bad, after, rfl, rfl⟩ | ⟨usable, rplr, rest⟩⟩ := consumeSlot_cases h hb
  · exact ⟨_, _, u, .errored rbad ((slotUsable_eq_false_iff_and rbad slot).mp bad), after, recorded _ after⟩
  · have usable := (slotUsable_iff rbad slot).mp usable
    simp only [length] at rest
    obtain ⟨below, after, rfl, rfl⟩ | ⟨-, above, after, rfl, rfl⟩ | ⟨long, short, w, ⟨drops, after, rfl, rfl⟩ |
      ⟨accepts, ws, words, after, rfl, rfl⟩⟩ := rest
    · have run := SlotRun.badLength (base := base) (mask := s.cfg.rplrLengthMask) rbad rplr usable (.inl (by omega))
      rw [if_pos (by omega)] at run
      exact ⟨_, _, u, run, after, recorded _ after⟩
    · have run := SlotRun.badLength (base := base) (mask := s.cfg.rplrLengthMask) rbad rplr usable (.inr (by omega))
      rw [if_neg (by omega)] at run
      exact ⟨_, _, u, run, after, recorded _ after⟩
    · exact ⟨_, _, u, .otherProtocol rbad rplr w usable (by omega) (by omega) drops, after, recorded _ after⟩
    · have natural : (((rplr &&& s.cfg.rplrLengthMask).toNat : Int) - 4).toNat = (rplr &&& s.cfg.rplrLengthMask).toNat - 4 := by
        omega
      rw [natural] at words ⊢
      exact ⟨_, _, t, .accepted rbad rplr w ws usable (by omega) (by omega) accepts words, after, (traced_nil t).symm⟩

theorem recvBody_recvRun {s t : State} {r : Result} {base : Word} (h : recvBody s = .ok r t) (hb : s.ctx.ioBase = some base)
    (hop : currentOp s = .recv) :
    ∃ as records, RecvRun base s.cfg as records r ∧ t.bus = s.bus ++ as ∧ t.trace = s.trace ++ records := by
  obtain ⟨-, rsr, s1, read, ⟨clear, rfl, rfl⟩ | ⟨done, inside, s2, consumed, ack⟩⟩ := recvBody_cases h
  · have after := regRead_after read hb
    exact ⟨_, _, .empty rsr clear, after.bus, by rw [after.trace, List.append_nil]⟩
  · have first := regRead_after read hb
    obtain ⟨as, records, u, run, after, rfl⟩ := consumeSlot_slotRun consumed (by rw [first.ctx, hb]) (first.op.trans hop)
    rw [first.cfg] at run
    have last := regWrite_after ack (base := base) (by change u.ctx.ioBase = _; rw [after.ctx, first.ctx, hb])
    refine ⟨_, records, .ready rsr as records r done inside run, ?_, ?_⟩
    · rw [last.bus, traced, after.bus, first.bus]
      simp
    · rw [last.trace, traced, after.trace, first.trace]

theorem exec_recv_recvRun {s t : State} {base : Word} (h : exec .recv s = .next t) (hb : s.ctx.ioBase = some base) :
    ∃ as records r, RecvRun base s.cfg as records r ∧ issued s t = as ∧ t.trace = s.trace ++ records ∧
      t.returned = s.returned ++ [r] := by
  obtain ⟨-, r, u, body, rfl⟩ := hostCall_cases h
  obtain ⟨as, records, run, bus, trace⟩ := recvBody_recvRun (s := entered .recv s) body hb rfl
  exact ⟨as, records, r, run, issued_of_bus bus, trace, congrArg (· ++ [r]) (recvBody_carries body).1.returned⟩

/-! ## The five sequences -/

/-- The buffer holds the bytes of the words read, in their order (43_receive.md rule R231). -/
theorem flatMap_unpackWord_length (ws : List Word) : (ws.flatMap unpackWord).length = 8 * ws.length := by
  simp [Nat.mul_comm]

theorem flatMap_unpackWord_getElem? (ws : List Word) {i j : Nat} {v : Word} (hv : ws[i]? = some v) (hj : j < 8) :
    (ws.flatMap unpackWord)[8 * i + j]? = some (v.extractLsb' (8 * j) 8) := by
  induction ws generalizing i with
  | nil => cases hv
  | cons w ws ih =>
    rw [List.flatMap_cons]
    cases i with
    | zero =>
      obtain rfl : w = v := Option.some.inj hv
      rw [List.getElem?_append_left (by simpa using hj)]
      simp [unpackWord, hj]
    | succ i =>
      rw [List.getElem?_append_right (by simp; omega), unpackWord_length,
        show 8 * (i + 1) + j - 8 = 8 * i + j by omega]
      exact ih hv

/-- Settles O41: each run is one of the five sequences. -/
theorem recvAccessSequences : Obligations.RecvAccessSequences := by
  intro s t base hb h
  obtain ⟨as, records, r, run, accesses, trace, returned⟩ := exec_recv_recvRun h hb
  cases run with
  | empty rsr clear => exact ⟨rsr, _, rfl, .inl ⟨clear, accesses, by simpa using trace, returned⟩⟩
  | ready rsr as records r done inside slot =>
    refine ⟨rsr, _, rfl, .inr ⟨done, inside, ?_⟩⟩
    cases slot with
    | errored rbad bad => exact .inl ⟨rbad, bad, accesses, trace, returned⟩
    | badLength rbad rplr usable invalid =>
      exact .inr (.inl ⟨rbad, rplr, _, usable, rfl, invalid, accesses, trace, returned⟩)
    | otherProtocol rbad rplr w usable long short drops =>
      obtain ⟨not_ipv4, not_arp⟩ := (classifyType_drops_iff _).mp drops
      rw [classifyType_of_drops drops] at trace
      exact .inr (.inr ⟨rbad, rplr, w, _, _, usable, rfl, long, short, rfl, .inl ⟨not_ipv4, not_arp, accesses, trace, returned⟩⟩)
    | accepted rbad rplr w ws usable long short accepts words =>
      refine .inr (.inr ⟨rbad, rplr, w, _, _, usable, rfl, long, short, rfl, .inr ⟨(classifyType_accepts_iff _).mp accepts, ws,
        ws.flatMap unpackWord, words.trans (wordCount_eq _), flatMap_unpackWord_length ws,
        fun i j v hv hj => flatMap_unpackWord_getElem? ws hv hj, ?_, by simpa using trace, returned⟩⟩)
      rw [accesses]
      rfl

/-! ## The reads of a slot, and the acknowledge -/

/-- A read of a register past RSR. -/
def ReadPastRsr (base : Word) (a : Access) : Prop := ∃ off v, a = readAt base off v ∧ offRsr < off ∧ off < 2 ^ 64

/-- Whatever becomes of a slot, nothing is written, and RSR is not read. -/
theorem SlotRun.reads {base mask : Word} {slot : Nat} {as : List Access} {records : List TraceRecord} {r : Result}
    (h : SlotRun base mask slot as records r) (hslot : slot < 16) : ∀ a ∈ as, ReadPastRsr base a := by
  have rbad (v : Word) : ReadPastRsr base (readAt base offRbad v) := ⟨_, v, rfl, by decide, by decide⟩
  have rplr (v : Word) : ReadPastRsr base (readAt base (rplrOffset slot) v) :=
    ⟨_, v, rfl, by rw [offRsr, rplrOffset]; omega, by rw [rplrOffset]; omega⟩
  have window (k : Nat) (v : Word) (hk : k < 256) : ReadPastRsr base (readAt base (rxbuffOffset slot + 8 * k) v) :=
    ⟨_, v, rfl, by rw [offRsr, rxbuffOffset, offRxbuff]; omega, by rw [rxbuffOffset, offRxbuff, rxbuffStride]; omega⟩
  cases h with
  | errored v => simpa using rbad v
  | badLength v u => simpa using ⟨rbad v, rplr u⟩
  | otherProtocol v u w => simpa using ⟨rbad v, rplr u, window 1 w (by decide)⟩
  | accepted v u w ws usable long short accepts words =>
    have := wordCount_le (n := (u &&& mask).toNat - 4) (by omega)
    refine List.forall_mem_append.mpr ⟨by simpa using ⟨rbad v, rplr u, window 1 w (by decide)⟩, fun a ha => ?_⟩
    obtain ⟨p, hp, rfl⟩ := List.mem_map.mp ha
    have := List.snd_lt_of_mem_zipIdx hp
    exact window p.2 p.1 (by omega)

theorem slotOf_lt (rsr : Word) : slotOf rsr < 16 := (rsrFirst rsr).isLt

/-- Settles O42: a run with a ready frame ends with the acknowledge, after reads alone. -/
theorem readyFrameAcknowledgedOnce : Obligations.ReadyFrameAcknowledgedOnce := by
  intro s t base hb h
  obtain ⟨as, records, r, run, accesses, -⟩ := exec_recv_recvRun h hb
  cases run with
  | empty rsr clear => exact ⟨rsr, [], accesses, fun _ => rfl, fun done => absurd (done.symm.trans clear) (by decide)⟩
  | ready rsr as records r done inside slot =>
    refine ⟨rsr, _, accesses, fun clear => absurd (done.symm.trans clear) (by decide), fun _ => ⟨as, rfl, fun a ha => ?_⟩⟩
    obtain ⟨off, v, rfl, -⟩ := slot.reads (slotOf_lt rsr) a ha
    rfl

/-- The access reads RSR. -/
def readsRsr (base : Word) (a : Access) : Bool := decide (a.dir = .read ∧ a.addr = base + 0x0830)

theorem readsRsr_readAt (base v : Word) {off : Nat} (h : off < 2 ^ 64) :
    readsRsr base (readAt base off v) = decide (off = offRsr) := by
  have value : BitVec.ofNat 64 off = 0x0830#64 ↔ off = offRsr := by
    rw [← BitVec.toNat_inj, BitVec.toNat_ofNat, Nat.mod_eq_of_lt h]
    rfl
  simp [readsRsr, readAt, value]

theorem readsRsr_writeAt (base v : Word) (off : Nat) : readsRsr base (writeAt base off v) = false := by
  simp [readsRsr, writeAt]

/-- Every run reads RSR once, at its start. -/
theorem RecvRun.reads_rsr_once {base : Word} {cfg : Config} {as : List Access} {records : List TraceRecord} {r : Result}
    (h : RecvRun base cfg as records r) : (as.filter (readsRsr base)).length = 1 := by
  have first (v : Word) : readsRsr base (readAt base offRsr v) = true := by
    rw [readsRsr_readAt base v (by decide)]
    rfl
  cases h with
  | empty rsr clear => simp [first]
  | ready rsr as records r done inside slot =>
    have others : as.filter (readsRsr base) = [] := by
      refine List.filter_eq_nil_iff.mpr fun a ha => ?_
      obtain ⟨off, v, rfl, past, bound⟩ := slot.reads (slotOf_lt rsr) a ha
      rw [readsRsr_readAt base v bound, decide_eq_true_eq]
      omega
    simp [first, others, readsRsr_writeAt]

end Sys2Proof.Machine
end

section
/-! `recv` in ABSTRACT mode (43_receive.md rules R201, R211 to R220): where the script holds the values of a run, the call is that
run, and nothing else changes (log 31). -/

namespace Sys2Proof.Machine

open Sys2Proof

/-! ## Scripted runs of accesses -/

/-- An operation in ABSTRACT mode, at a base, into which no HOST call lands. -/
structure QuietAbstract (base : Word) (s : State) : Prop where
  base  : s.ctx.ioBase = some base
  quiet : Quiet s
  mode  : s.cfg.deviceMode = .abstr

/-- `t` comes after the accesses `as` from `s`, whose reads left `rest` of the script, and after the trace records `records`. -/
structure Played (s t : State) (as : List Access) (records : List TraceRecord) (rest : List Word) : Prop where
  eq : t = { s with position := t.position, script := rest, schedule := s.schedule.drop as.length, bus := s.bus ++ as,
                    trace := s.trace ++ records }
  op : currentOp t = currentOp s

theorem Played.trans {s t u : State} {as bs : List Access} {records records' : List TraceRecord} {rest rest' : List Word}
    (h : Played s t as records rest) (k : Played t u bs records' rest') : Played s u (as ++ bs) (records ++ records') rest' := by
  refine ⟨?_, k.op.trans h.op⟩
  rw [k.eq, h.eq]
  simp

theorem Played.quietAbstract {base : Word} {s t : State} {as : List Access} {records : List TraceRecord} {rest : List Word}
    (h : Played s t as records rest) (q : QuietAbstract base s) : QuietAbstract base t := by
  rw [h.eq]
  exact ⟨q.base, fun ms hms => q.quiet ms (List.mem_of_mem_drop hms), q.mode⟩

theorem Played.script {s t : State} {as : List Access} {records : List TraceRecord} {rest : List Word}
    (h : Played s t as records rest) : t.script = rest := by rw [h.eq]

theorem Played.cfg {s t : State} {as : List Access} {records : List TraceRecord} {rest : List Word}
    (h : Played s t as records rest) : t.cfg = s.cfg := by rw [h.eq]

theorem Played.toStep {s t : State} {as : List Access} {records : List TraceRecord} {rest : List Word} (k : StepIndex)
    (h : Played s t as records rest) : Played s (atStep k t) as records rest := by
  refine ⟨?_, (currentOp_atStep k t).trans h.op⟩
  rw [atStep, h.eq]

/-- The record of a dropped frame. -/
theorem Played.dropped {s t : State} {as : List Access} {rest : List Word} (kind : ErrorKind) (slot : Nat)
    (h : Played s t as [] rest) (hop : currentOp s = .recv) :
    Played s (record kind (.slot slot) t) as [⟨kind, .recv, .slot slot⟩] rest := by
  refine ⟨?_, h.op⟩
  rw [record, h.op, hop, h.eq]
  simp

theorem After.played {s t : State} {as : List Access} (h : After s t as) (hm : s.cfg.deviceMode = .abstr)
    (draws : t.draws = s.draws) : Played s t as [] t.script := by
  refine ⟨?_, h.op⟩
  rw [List.append_nil, ← h.dev hm, ← draws]
  exact h.state_eq

section

variable {base : Word} {s : State} (q : QuietAbstract base s)

include q

/-- A scripted read. -/
theorem QuietAbstract.read {k : StepIndex} {off : Nat} {r : ReadReg} {v : Word} {rest : List Word} (hr : mapRead off = .at r)
    (script : s.script = v :: rest) : ∃ t, regRead k off s = .ok v t ∧ Played s t [readAt base off v] [] rest := by
  obtain ⟨v', t, read⟩ := regRead_completes (k := k) q.base hr q.quiet
  obtain ⟨rfl, rfl, draws⟩ := regRead_scripted read q.mode script
  exact ⟨t, read, (regRead_after read q.base).played q.mode draws⟩

/-- A scripted copy of receive-window words. -/
theorem QuietAbstract.fetch {k : StepIndex} {off : Nat} {ws rest : List Word}
    (hr : ∀ j < ws.length, ∃ r, mapRead (off + 8 * j) = .at r) (script : s.script = ws ++ rest) :
    ∃ t, fetchWords k off ws.length s = .ok ws t ∧ Played s t (fetched base off ws) [] rest := by
  obtain ⟨ws', t, fetch⟩ := fetchWords_completes (k := k) q.base q.quiet hr
  obtain ⟨rfl, rfl, draws⟩ := fetchWords_scripted fetch q.mode rfl script
  exact ⟨t, fetch, (fetchWords_after fetch q.base).2.played q.mode draws⟩

/-- The acknowledge, which draws nothing. -/
theorem QuietAbstract.acknowledge {k : StepIndex} (v : Word) :
    ∃ t, regWrite k offRsr v s = .ok () t ∧ Played s t [writeAt base offRsr v] [] s.script := by
  have taken : deviceWrite .rsr v (atStep k (afterOthers s)) = .ok () (atStep k (afterOthers s)) := by
    simp [deviceWrite, q.mode]
  have write := regWrite_completes q.base mapWrite_rsr q.quiet taken
  obtain ⟨script, draws⟩ := regWrite_script write
  have played := (regWrite_after write q.base).played q.mode (draws q.mode)
  rw [script] at played
  exact ⟨_, write, played⟩

end

/-! ## The values of a run -/

/-- The values of the reads among the accesses. -/
def answers (as : List Access) : List Word := as.filterMap fun a => if a.dir = .read then some a.val else none

@[simp] theorem answers_nil : answers [] = [] := rfl

@[simp] theorem answers_readAt (base : Word) (off : Nat) (v : Word) (as : List Access) :
    answers (readAt base off v :: as) = v :: answers as := rfl

@[simp] theorem answers_writeAt (base : Word) (off : Nat) (v : Word) (as : List Access) :
    answers (writeAt base off v :: as) = answers as := rfl

@[simp] theorem answers_append (as bs : List Access) : answers (as ++ bs) = answers as ++ answers bs := List.filterMap_append

@[simp] theorem answers_fetched (base : Word) (off : Nat) (ws : List Word) : answers (fetched base off ws) = ws := by
  induction ws generalizing off with
  | nil => rfl
  | cons w ws ih => rw [fetched_cons, answers_readAt, ih]

/-! ## The runs of a slot -/

theorem mapRead_window {slot k : Nat} (hslot : slot < 8) (hk : k < 256) : ∃ r, mapRead (rxbuffOffset slot + 8 * k) = .at r :=
  ⟨_, mapRead_rxbuff slot k hslot hk⟩

section

variable {base : Word} {s : State} (q : QuietAbstract base s) {slot : Nat} (hslot : slot < 8)

include q hslot

/-- The reads of RBAD and RPLR. -/
theorem QuietAbstract.readLength {rbad rplr : Word} {rest : List Word} (script : s.script = rbad :: rplr :: rest) :
    ∃ s1 s2, regRead (stepNo 3) offRbad s = .ok rbad s1 ∧ regRead (stepNo 4) (rplrOffset slot) s1 = .ok rplr s2 ∧
      Played s s2 [readAt base offRbad rbad, readAt base (rplrOffset slot) rplr] [] rest := by
  obtain ⟨s1, h1, p1⟩ := q.read (k := stepNo 3) mapRead_rbad script
  obtain ⟨s2, h2, p2⟩ := (p1.quietAbstract q).read (k := stepNo 4) (mapRead_rplr slot hslot) p1.script
  exact ⟨s1, s2, h1, h2, p1.trans p2⟩

/-- The reads of RBAD, RPLR and the word that holds the Ethertype. -/
theorem QuietAbstract.readEtherType {rbad rplr w : Word} {rest : List Word} (script : s.script = rbad :: rplr :: w :: rest) :
    ∃ s1 s2 s3, regRead (stepNo 3) offRbad s = .ok rbad s1 ∧ regRead (stepNo 4) (rplrOffset slot) s1 = .ok rplr s2 ∧
      regRead (stepPart 6 .a) (rxbuffOffset slot + 8) s2 = .ok w s3 ∧ Played s (atStep (stepPart 6 .b) s3)
        [readAt base offRbad rbad, readAt base (rplrOffset slot) rplr, readAt base (rxbuffOffset slot + 8) w] [] rest := by
  obtain ⟨s1, s2, h1, h2, p2⟩ := q.readLength hslot script
  obtain ⟨s3, h3, p3⟩ := (p2.quietAbstract q).read (k := stepPart 6 .a) (mapRead_rxbuff slot 1 hslot (by decide)) p2.script
  exact ⟨s1, s2, s3, h1, h2, h3, (p2.trans p3).toStep _⟩

/-- A slot of which the script holds the values of a run has that run. -/
theorem consumeSlot_scripted {as : List Access} {records : List TraceRecord} {r : Result} {rest : List Word}
    (run : SlotRun base s.cfg.rplrLengthMask slot as records r) (hop : currentOp s = .recv)
    (script : s.script = answers as ++ rest) :
    ∃ t, consumeSlot slot s = .ok r t ∧ Played s t as records rest := by
  cases run with
  | errored rbad bad =>
    obtain ⟨s1, h1, played⟩ := q.read (k := stepNo 3) mapRead_rbad script
    exact ⟨_, consumeSlot_errored h1 ((slotUsable_eq_false_iff_and rbad slot).mpr bad), played.dropped _ slot hop⟩
  | badLength rbad rplr usable invalid =>
    obtain ⟨s1, s2, h1, h2, played⟩ := q.readLength hslot script
    exact ⟨_, consumeSlot_badLength h1 ((slotUsable_iff rbad slot).mpr usable) h2 invalid, (played.toStep _).dropped _ slot hop⟩
  | otherProtocol rbad rplr w usable long short drops =>
    obtain ⟨s1, s2, s3, h1, h2, h3, played⟩ := q.readEtherType hslot script
    exact ⟨_, consumeSlot_otherProtocol h1 ((slotUsable_iff rbad slot).mpr usable) h2 long short h3 drops,
      played.dropped _ slot hop⟩
  | accepted rbad rplr w ws usable long short accepts words =>
    have script : s.script = rbad :: rplr :: w :: (ws ++ rest) := by simpa using script
    obtain ⟨s1, s2, s3, h1, h2, h3, played⟩ := q.readEtherType hslot script
    have bound := wordCount_le (n := (rplr &&& s.cfg.rplrLengthMask).toNat - 4) (by omega)
    obtain ⟨t, h4, copied⟩ := (played.quietAbstract q).fetch (k := stepPart 6 .c)
      (fun j hj => mapRead_window hslot (by omega)) played.script
    rw [words] at h4
    exact ⟨t, consumeSlot_accepted h1 ((slotUsable_iff rbad slot).mpr usable) h2 long short h3 accepts h4, played.trans copied⟩

end

/-! ## The whole call -/

theorem Played.exec_recv {s t : State} {as : List Access} {records : List TraceRecord} {r : Result} {rest : List Word}
    (h : Played (entered .recv s) t as records rest) (hp : s.position = .idle) (body : recvBody (entered .recv s) = .ok r t) :
    exec .recv s =
      .next { s with script := rest, schedule := s.schedule.drop as.length, bus := s.bus ++ as, trace := s.trace ++ records,
                     returned := s.returned ++ [r] } := by
  rw [exec_recv_ok hp body, h.eq, returnTo, ← hp]
  rfl

theorem recv_empty_scripted {base rsr : Word} {s : State} {rest : List Word} (ready : ReadyAt s base) (hs : s.ctx.started = true)
    (hq : Quiet s) (hm : s.cfg.deviceMode = .abstr) (script : s.script = rsr :: rest) (clear : rsrDone rsr = false) :
    exec .recv s =
      .next { s with script := rest, schedule := s.schedule.drop 1, bus := s.bus ++ [readAt base offRsr rsr],
                     returned := s.returned ++ [.noFrame] } := by
  obtain ⟨hp, -, hb⟩ := ready
  have q : QuietAbstract base (entered .recv s) := ⟨hb, hq, hm⟩
  obtain ⟨t, read, played⟩ := q.read (k := stepNo 1) mapRead_rsr script
  have call := played.exec_recv hp (recvBody_empty hs read clear)
  rwa [List.append_nil] at call

/-- A ready frame of which the script holds the values of a run of its slot has that run, and is acknowledged. -/
theorem recv_ready_scripted {base rsr : Word} {s : State} {as : List Access} {records : List TraceRecord} {r : Result}
    {rest : List Word} (ready : ReadyAt s base) (hs : s.ctx.started = true) (hq : Quiet s) (hm : s.cfg.deviceMode = .abstr)
    (hcfg : s.cfg.wellFormed = true) (script : s.script = rsr :: (answers as ++ rest)) (done : rsrDone rsr = true)
    (inside : slotOf rsr < s.cfg.ringDepth) (run : SlotRun base s.cfg.rplrLengthMask (slotOf rsr) as records r) :
    exec .recv s =
      .next { s with script := rest, schedule := s.schedule.drop (as.length + 2),
                     bus := s.bus ++ (readAt base offRsr rsr :: as ++ [writeAt base offRsr (ackValue (slotOf rsr))]),
                     trace := s.trace ++ records, returned := s.returned ++ [r] } := by
  obtain ⟨hp, -, hb⟩ := ready
  have q : QuietAbstract base (entered .recv s) := ⟨hb, hq, hm⟩
  obtain ⟨s1, read, first⟩ := q.read (k := stepNo 1) mapRead_rsr script
  obtain ⟨s2, consumed, played⟩ := consumeSlot_scripted (first.quietAbstract q) (Nat.lt_of_lt_of_le inside (ringDepth_le hcfg))
    (by rw [first.cfg]; exact run) first.op first.script
  have both := first.trans played
  obtain ⟨t, ack, last⟩ := (both.quietAbstract q).acknowledge (k := stepNo 7) (ackValue (slotOf rsr))
  rw [both.script] at last
  have call := (both.trans last).exec_recv hp (recvBody_ready hs read done inside consumed ack)
  simpa using call

/-! ## The outcomes -/

/-- Settles O35: an empty poll is the run without a slot, in either mode, and every run reads RSR once. -/
theorem emptyPollReadsRsrOnly : Obligations.EmptyPollReadsRsrOnly := by
  refine ⟨fun s base rsr rest ready hs hq hm script clear => recv_empty_scripted ready hs hq hm script clear,
    fun s base ⟨hp, _, hb⟩ hs hq hm same => ?_, fun s t base hb h => ?_⟩
  · obtain ⟨v, t, read⟩ := regRead_completes (k := stepNo 1) (s := entered .recv s) hb mapRead_rsr hq
    obtain ⟨-, done, dev⟩ := regRead_rsr_reference read hq.next hm
    have clear : rsrDone v = false := done.trans ((ringDone_false_iff _).mpr same)
    have after := regRead_after read hb
    exact ⟨_, v, exec_recv_ok hp (recvBody_empty (s := entered .recv s) hs read clear), after.bus, dev,
      congrArg (· ++ [Result.noFrame]) after.returned, after.trace, after.ctx⟩
  · obtain ⟨as, records, r, run, accesses, -⟩ := exec_recv_recvRun h hb
    rw [accesses]
    exact run.reads_rsr_once

/-- The mask of a slot of the ring, which is not reduced (30_encoding.md rule R106). -/
theorem errorMask_of_lt {slot : Nat} (h : slot < 8) : errorMask slot = 0x101#64 <<< slot := by
  rw [errorMask, Nat.mod_eq_of_lt h]
  rfl

theorem errorMask_of_inside {cfg : Config} {slot : Nat} (hcfg : cfg.wellFormed = true) (h : slot < cfg.ringDepth) :
    errorMask slot = 0x101#64 <<< slot :=
  errorMask_of_lt (Nat.lt_of_lt_of_le h (ringDepth_le hcfg))

/-- Settles O37: the run that ends with RBAD. -/
theorem erroredSlotDropped : Obligations.ErroredSlotDropped := by
  rintro s base rsr rbad rest _ ready hs hq hm hcfg script done rfl inside bad
  rw [← errorMask_of_inside hcfg inside] at bad
  exact recv_ready_scripted ready hs hq hm hcfg script done inside (.errored rbad bad)

/-- Settles O38: the run that ends with RPLR. -/
theorem invalidLengthDropped : Obligations.InvalidLengthDropped := by
  rintro s base rsr rbad rplr rest _ _ ready hs hq hm hcfg script done rfl inside usable rfl invalid
  rw [← errorMask_of_inside hcfg inside] at usable
  exact recv_ready_scripted ready hs hq hm hcfg script done inside (.badLength rbad rplr usable invalid)

/-- Settles O39: the run that ends with the Ethertype. -/
theorem unsupportedProtocolDropped : Obligations.UnsupportedProtocolDropped := by
  rintro s base rsr rbad rplr w rest _ _ _ ready hs hq hm hcfg script done rfl inside usable rfl long short rfl not_ipv4 not_arp
  rw [← errorMask_of_inside hcfg inside] at usable
  have drops : (classifyType (etherTypeOf w)).drops = true := (classifyType_drops_iff _).mpr ⟨not_ipv4, not_arp⟩
  have run := recv_ready_scripted ready hs hq hm hcfg script done inside (.otherProtocol rbad rplr w usable long short drops)
  rwa [classifyType_of_drops drops] at run

/-- Settles O40: the run with a copy. -/
theorem acceptedFrameReturned : Obligations.AcceptedFrameReturned := by
  rintro s base rsr rbad rplr w ws rest _ _ _ ready hs hq hm hcfg script done rfl inside usable rfl long short rfl accepted words
  rw [← errorMask_of_inside hcfg inside] at usable
  have run : SlotRun base s.cfg.rplrLengthMask (slotOf rsr) _ _ _ := .accepted rbad rplr w ws usable long short
    ((classifyType_accepts_iff _).mpr accepted) (words.trans (wordCount_eq _).symm)
  have call := recv_ready_scripted ready hs hq hm hcfg (by simpa using script) done inside run
  refine ⟨_, flatMap_unpackWord_length ws, fun i j v hv hj => flatMap_unpackWord_getElem? ws hv hj, call.trans ?_⟩
  simp only [List.append_assoc, List.cons_append, List.nil_append, List.append_nil, List.length_cons, fetched_length,
    Nat.add_comm 5]
  rfl

end Sys2Proof.Machine
end

section
/-! A `recv` of a started CORE always completes (43_receive.md rule R232), whatever the DEVICE answers within its invariant. -/

namespace Sys2Proof.Machine

open Sys2Proof

/-! ## A slot of the ring -/

/-- Whatever a quiet slot holds, one of the outcomes is reached. -/
theorem consumeSlot_completes {base : Word} {slot : Nat} {s : State} (hb : s.ctx.ioBase = some base) (hq : Quiet s)
    (hslot : slot < 8) : ∃ r t, consumeSlot slot s = .ok r t := by
  obtain ⟨rbad, s1, h1⟩ := regRead_completes (k := stepNo 3) hb mapRead_rbad hq
  have a1 := regRead_after h1 hb
  cases usable : slotUsable rbad slot with
  | false => exact ⟨_, _, consumeSlot_errored h1 usable⟩
  | true =>
    obtain ⟨rplr, s2, h2⟩ := regRead_completes (k := stepNo 4) (a1.ctx ▸ hb) (mapRead_rplr slot hslot) (a1.quiet hq)
    have a2 := a1.trans (regRead_after h2 (a1.ctx ▸ hb))
    by_cases invalid : (rplr &&& s.cfg.rplrLengthMask).toNat < 18 ∨ 1540 < (rplr &&& s.cfg.rplrLengthMask).toNat
    · exact ⟨_, _, consumeSlot_badLength h1 usable h2 invalid⟩
    · obtain ⟨long, short⟩ : 18 ≤ (rplr &&& s.cfg.rplrLengthMask).toNat ∧ (rplr &&& s.cfg.rplrLengthMask).toNat ≤ 1540 := by omega
      obtain ⟨w, s3, h3⟩ := regRead_completes (k := stepPart 6 .a) (a2.ctx ▸ hb) (mapRead_rxbuff slot 1 hslot (by decide))
        (a2.quiet hq)
      have a3 := (a2.trans (regRead_after h3 (a2.ctx ▸ hb))).toStep (stepPart 6 .b)
      cases drops : (classifyType (etherTypeOf w)).drops with
      | true => exact ⟨_, _, consumeSlot_otherProtocol h1 usable h2 long short h3 drops⟩
      | false =>
        have bound := wordCount_le (n := (rplr &&& s.cfg.rplrLengthMask).toNat - 4) (by omega)
        obtain ⟨ws, t, h4⟩ := fetchWords_completes (k := stepPart 6 .c) (a3.ctx ▸ hb) (a3.quiet hq)
          fun j (hj : j < wordCount ((rplr &&& s.cfg.rplrLengthMask).toNat - 4)) => mapRead_window hslot (by omega)
        exact ⟨_, t, consumeSlot_accepted h1 usable h2 long short h3 drops h4⟩

/-! ## The slot lies in the ring -/

theorem ringDepth_pos {cfg : Config} (h : cfg.wellFormed = true) : 1 ≤ cfg.ringDepth := by
  simp only [Config.wellFormed, decide_eq_true_eq] at h
  exact h.1

theorem boundFirst_first (depth : Nat) (d : Word) : rsrFirst (boundFirst depth d) = BitVec.ofNat 4 ((rsrFirst d).toNat % depth) :=
  BitVec.extractLsb'_append_eq_right

/-- The ABSTRACT DEVICE names a slot of the ring, if its script does (60_exceptions.md rule R300; log 4). -/
theorem drawRsr_slotOf_lt {s : State} (hcfg : s.cfg.wellFormed = true)
    (scripted : ∀ d rest, s.script = d :: rest → slotOf d < s.cfg.ringDepth) : slotOf (drawRsr s).1 < s.cfg.ringDepth := by
  unfold drawRsr
  split
  · next d rest script => exact scripted d rest script
  · rw [slotOf, boundFirst_first]
    exact ofNat_mod_lt _ _ (ringDepth_pos hcfg) (ringDepth_le hcfg)

theorem regRead_rsr_abstr {s t : State} {v : Word} (h : regRead (stepNo 1) offRsr (entered .recv s) = .ok v t)
    (hm : s.cfg.deviceMode = .abstr) (hcfg : s.cfg.wellFormed = true)
    (scripted : ∀ d rest, s.script = d :: rest → slotOf d < s.cfg.ringDepth) : slotOf v < s.cfg.ringDepth := by
  obtain ⟨base, r, u, -, hr, hu, rfl, -⟩ := regRead_cases h
  obtain rfl : ReadReg.rsr = r := Mapped.at.inj (mapRead_rsr.symm.trans hr)
  obtain ⟨d, rfl, -⟩ := accessTurn_eq hu
  simp only [deviceRead, atStep_cfg, entered_cfg, hm, if_true]
  exact drawRsr_slotOf_lt hcfg scripted

theorem foldl_moveEffect_depth (ms : List Move) (s : State) : (ms.foldl moveEffect s).dev.depth = s.dev.depth := by
  induction ms generalizing s with
  | nil => rfl
  | cons m ms ih =>
    rw [List.foldl_cons, ih]
    cases m with
    | device d => exact deviceMove_depth d s
    | invoke op => rfl

theorem afterOthers_depth (s : State) : (afterOthers s).dev.depth = s.dev.depth := by
  unfold afterOthers
  split
  · rfl
  · exact foldl_moveEffect_depth _ _

/-- The pointers of the REFERENCE ring stay below its depth, whatever the other agents do (60_exceptions.md rule R309). -/
theorem afterOthers_first_lt {s : State} {d : Nat} (hq : Quiet s) (ok : DeviceOk s.dev) (hd : s.dev.depth = some d) :
    (afterOthers s).dev.first.toNat < d := by
  obtain ⟨ring, -⟩ := (othersTurn_carries (othersTurn_quiet s hq)).device ok
  obtain ⟨-, -, first, -⟩ := ring d ((afterOthers_depth s).trans hd)
  exact first

/-! ## The whole call -/

/-- The DEVICE takes every acknowledge. -/
theorem acknowledge_completes {base : Word} {s : State} (k : StepIndex) (v : Word) (hb : s.ctx.ioBase = some base)
    (hq : Quiet s) : ∃ t, regWrite k offRsr v s = .ok () t := by
  have taken : ∃ w, deviceWrite .rsr v (atStep k (afterOthers s)) = .ok () w := by
    unfold deviceWrite
    split <;> exact ⟨_, rfl⟩
  obtain ⟨w, hw⟩ := taken
  exact ⟨_, regWrite_completes hb mapWrite_rsr hq hw⟩

theorem consumeSlot_quiet {slot : Nat} {s t : State} {r : Result} {base : Word} (h : consumeSlot slot s = .ok r t)
    (hb : s.ctx.ioBase = some base) (hop : currentOp s = .recv) (hq : Quiet s) : Quiet t := by
  obtain ⟨as, records, u, -, after, rfl⟩ := consumeSlot_slotRun h hb hop
  exact after.quiet hq

/-- A quiet call whose RSR value names a slot of the ring completes. -/
theorem recvBody_completes {base : Word} {s : State} (hb : s.ctx.ioBase = some base) (hs : s.ctx.started = true) (hq : Quiet s)
    (hcfg : s.cfg.wellFormed = true)
    (inside : ∀ {v t}, regRead (stepNo 1) offRsr (entered .recv s) = .ok v t → slotOf v < s.cfg.ringDepth) :
    ∃ r t, recvBody (entered .recv s) = .ok r t := by
  obtain ⟨rsr, s1, read⟩ := regRead_completes (k := stepNo 1) (s := entered .recv s) hb mapRead_rsr hq
  have first := regRead_after read hb
  have hb1 : s1.ctx.ioBase = some base := first.ctx ▸ hb
  have hq1 : Quiet s1 := first.quiet hq
  cases done : rsrDone rsr with
  | false => exact ⟨_, _, recvBody_empty hs read done⟩
  | true =>
    obtain ⟨r, s2, consumed⟩ := consumeSlot_completes hb1 hq1 (Nat.lt_of_lt_of_le (inside read) (ringDepth_le hcfg))
    obtain ⟨t, ack⟩ := acknowledge_completes (stepNo 7) (ackValue (slotOf rsr))
      (by rw [(consumeSlot_carries consumed).2]; exact hb1) (consumeSlot_quiet consumed hb1 first.op hq1)
    exact ⟨r, t, recvBody_ready hs read done (inside read) consumed ack⟩

/-- Settles O43: in either mode the RSR value names a slot of the ring, and from there every outcome is reached. -/
theorem recvAlwaysCompletes : Obligations.RecvAlwaysCompletes := by
  intro s base ⟨_, hcfg, _, hdev, hdepth⟩ ⟨hp, _, hb⟩ hs hq scripted ring
  have inside {v : Word} {t : State} (read : regRead (stepNo 1) offRsr (entered .recv s) = .ok v t) :
      slotOf v < s.cfg.ringDepth := by
    cases hm : s.cfg.deviceMode with
    | abstr => exact regRead_rsr_abstr read hm hcfg (scripted hm)
    | reference =>
      obtain ⟨d, hd⟩ := Option.isSome_iff_exists.mp (hdepth hm hs)
      rw [(regRead_rsr_reference read hq.next hm).1]
      exact Nat.lt_of_lt_of_le (afterOthers_first_lt hq hdev hd) (ring hm d hd)
  obtain ⟨r, t, body⟩ := recvBody_completes hb hs hq hcfg inside
  obtain ⟨carries, ctx, -⟩ := recvBody_carries body
  exact ⟨_, r, exec_recv_ok hp body, congrArg (· ++ [r]) carries.returned, ctx, carries.cfg, rfl⟩

end Sys2Proof.Machine
end

section
/-! What `recv` does cannot depend on what stands in the bus record (log 28), and of RSR it uses `first` and `done` alone
(43_receive.md rules R202, R225). -/

namespace Sys2Proof.Machine

open Sys2Proof

/-! ## Changes of the state that an operation does not notice -/

/-- The answer with its state changed. -/
def Answer.mapState {α : Type} (g : State → State) : Answer α → Answer α
  | .ok a s => .ok a (g s)
  | .stop f => .stop f

/-- `f` answers the same from the changed state, and leaves the change as it is. -/
def Ignores {α : Type} (g : State → State) (f : State → Answer α) : Prop := ∀ s, f (g s) = (f s).mapState g

theorem Ignores.andThen {α β : Type} {g : State → State} {x : State → Answer α} {f : α → State → Answer β} (h : Ignores g x)
    (k : ∀ a, Ignores g (f a)) : Ignores g fun s => (x s).andThen (f ·) := by
  intro s
  simp only [h s]
  cases x s with
  | ok a t => exact k a t
  | stop e => rfl

theorem Ignores.ok {α : Type} (g : State → State) (a : α) : Ignores g (Answer.ok a) := fun _ => rfl

/-- A change that the moves of the other agents neither meet nor make (20_memory.md rule R84). -/
structure Unnoticed (g : State → State) : Prop where
  move     : ∀ d s, deviceMove d (g s) = g (deviceMove d s)
  op       : ∀ s, currentOp (g s) = currentOp s
  schedule : ∀ s, (g s).schedule = s.schedule
  taken    : ∀ s ms, { g s with schedule := ms } = g { s with schedule := ms }

theorem Unnoticed.otherMoves {g : State → State} (h : Unnoticed g) (ms : List Move) : Ignores g (otherMoves ms) := by
  induction ms with
  | nil => exact fun _ => rfl
  | cons m ms ih =>
    intro s
    cases m with
    | device d => rw [Machine.otherMoves, Machine.otherMoves, h.move, ih]
    | invoke op => rw [Machine.otherMoves, Machine.otherMoves, h.op]; rfl

theorem Unnoticed.othersTurn {g : State → State} (h : Unnoticed g) : Ignores g othersTurn := by
  intro s
  unfold Machine.othersTurn
  rw [h.schedule]
  cases s.schedule with
  | nil => rfl
  | cons ms rest =>
    simp only [h.taken]
    exact h.otherMoves ms _

/-! ## The script -/

/-- The state with another script. -/
def withScript (script : List Word) (s : State) : State := { s with script := script }

theorem unnoticed_withScript (script : List Word) : Unnoticed (withScript script) where
  move d s := by
    simp only [deviceMove, withScript]
    cases s.cfg.deviceMode <;> rfl
  op _ := rfl
  schedule _ := rfl
  taken _ _ := rfl

/-! ## The bus record -/

/-- The state with more accesses at the beginning of the bus record. -/
def behind (as : List Access) (s : State) : State := { s with bus := as ++ s.bus }

theorem unnoticed_behind (as : List Access) : Unnoticed (behind as) where
  move d s := by
    simp only [deviceMove, behind]
    cases s.cfg.deviceMode <;> rfl
  op _ := rfl
  schedule _ := rfl
  taken _ _ := rfl

theorem behind_logAccess (as : List Access) (a : Access) (s : State) : logAccess a (behind as s) = behind as (logAccess a s) := by
  simp [logAccess, behind]

theorem behind_drawWord (as : List Access) (s : State) :
    drawWord (behind as s) = ((drawWord s).1, behind as (drawWord s).2) := by
  simp only [drawWord, behind]
  cases s.script <;> rfl

theorem behind_drawRsr (as : List Access) (s : State) : drawRsr (behind as s) = ((drawRsr s).1, behind as (drawRsr s).2) := by
  simp only [drawRsr, behind]
  cases s.script <;> rfl

theorem behind_deviceRead (as : List Access) (r : ReadReg) (s : State) :
    deviceRead r (behind as s) = ((deviceRead r s).1, behind as (deviceRead r s).2) := by
  unfold deviceRead
  rw [show (behind as s).cfg = s.cfg from rfl]
  cases s.cfg.deviceMode with
  | abstr =>
    by_cases hr : r = .rsr
    · simp only [hr, if_true, behind_drawRsr]
    · simp only [hr, if_false, behind_drawWord]
  | reference => cases r <;> simp only [referenceRead, behind_drawWord] <;> rfl

theorem ignores_unlessBusy (as : List Access) (off : Nat) (dev : Device) : Ignores (behind as) (unlessBusy off dev) := by
  intro s
  unfold unlessBusy
  rw [show (behind as s).dev = s.dev from rfl]
  split <;> rfl

theorem ignores_deviceWrite (as : List Access) (r : WriteReg) (v : Word) : Ignores (behind as) (deviceWrite r v) := by
  intro s
  unfold deviceWrite
  rw [show (behind as s).cfg = s.cfg from rfl]
  cases s.cfg.deviceMode with
  | abstr => rfl
  | reference =>
    cases r with
    | machi | mdioctrl | rsr => rfl
    | tplr => exact ignores_unlessBusy as _ _ { s with draws := s.draws + 1 }
    | tfcs | txbuff => exact ignores_unlessBusy as _ _ s
    | rfcs => simp only [referenceWrite]; split <;> rfl

theorem ignores_regRead (as : List Access) (k : StepIndex) (off : Nat) : Ignores (behind as) (regRead k off) := by
  intro s
  unfold regRead withBase
  rw [show (behind as s).ctx = s.ctx from rfl]
  cases s.ctx.ioBase with
  | none => rfl
  | some base =>
    rcases mapRead off with r | e
    · have perform : Ignores (behind as) (performRead base off r) := by
        intro u
        simp only [performRead, behind_deviceRead, behind_logAccess]
        rfl
      exact (unnoticed_behind as).othersTurn.andThen (fun _ => perform) (atStep k s)
    · rfl

theorem ignores_regWrite (as : List Access) (k : StepIndex) (off : Nat) (v : Word) : Ignores (behind as) (regWrite k off v) := by
  intro s
  unfold regWrite withBase
  rw [show (behind as s).ctx = s.ctx from rfl]
  cases s.ctx.ioBase with
  | none => rfl
  | some base =>
    rcases mapWrite off with r | e
    · have log : Ignores (behind as) fun u => Answer.ok () (logAccess (writeAt base off v) u) := by
        intro u
        simp only [behind_logAccess]
        rfl
      have perform : Ignores (behind as) (performWrite base off r v) := (ignores_deviceWrite as r v).andThen fun _ => log
      exact (unnoticed_behind as).othersTurn.andThen (fun _ => perform) (atStep k s)
    · rfl

theorem ignores_fetchWords (as : List Access) (k : StepIndex) (off n : Nat) : Ignores (behind as) (fetchWords k off n) := by
  induction n generalizing k off with
  | zero => exact Ignores.ok _ _
  | succ n ih => exact (ignores_regRead as k off).andThen fun w => (ih _ _).andThen fun ws => Ignores.ok _ _

/-! ## The stages of `recv` -/

theorem ignores_dropFrame (as : List Access) (reason : ErrorKind) (slot : Nat) : Ignores (behind as) (dropFrame reason slot) :=
  fun _ => rfl

theorem ignores_dispatchFrame (as : List Access) (slot len : Nat) : Ignores (behind as) (dispatchFrame slot len) := by
  refine (ignores_regRead as _ _).andThen fun w s => ?_
  unfold dispatchClass
  split
  · exact ignores_dropFrame as _ slot (atStep _ s)
  · exact (ignores_fetchWords as _ _ _).andThen (fun ws => Ignores.ok _ _) (atStep _ s)

theorem ignores_validateLength (as : List Access) (slot : Nat) (len : Int) : Ignores (behind as) (validateLength slot len) := by
  intro s
  unfold validateLength
  split
  · exact ignores_dropFrame as _ slot s
  · split
    · exact ignores_dropFrame as _ slot s
    · exact ignores_dispatchFrame as slot _ s

theorem ignores_consumeSlot (as : List Access) (slot : Nat) : Ignores (behind as) (consumeSlot slot) := by
  refine (ignores_regRead as _ _).andThen fun rbad s => ?_
  split
  · exact (ignores_regRead as _ _).andThen (fun rplr u => ignores_validateLength as slot _ (atStep _ u)) s
  · exact ignores_dropFrame as _ slot s

theorem ignores_receiveSlot (as : List Access) (slot : Nat) : Ignores (behind as) (receiveSlot slot) := by
  intro s
  unfold receiveSlot
  rw [show (behind as s).cfg = s.cfg from rfl]
  split
  · rfl
  · exact (ignores_consumeSlot as slot).andThen
      (fun r => (ignores_regWrite as _ _ _).andThen fun _ => Ignores.ok _ r) s

/-- What `recv` does after its RSR read. -/
def afterRsr (rsr : Word) (s : State) : Answer Result :=
  if rsrDone rsr then receiveSlot (slotOf rsr) (atStep (stepNo 2) s) else .ok .noFrame s

theorem recvBody_started {s : State} (hs : s.ctx.started = true) :
    recvBody s = (regRead (stepNo 1) offRsr s).andThen afterRsr := if_pos hs

theorem ignores_afterRsr (as : List Access) (rsr : Word) : Ignores (behind as) (afterRsr rsr) := by
  intro s
  unfold afterRsr
  split
  · exact ignores_receiveSlot as _ (atStep _ s)
  · rfl

/-- Of RSR, `first` and `done` alone are used. -/
theorem afterRsr_congr {rsr rsr' : Word} (first : rsr.extractLsb' 0 4 = rsr'.extractLsb' 0 4)
    (done : rsr.getLsbD 12 = rsr'.getLsbD 12) : afterRsr rsr = afterRsr rsr' := by
  have slot : slotOf rsr = slotOf rsr' := congrArg BitVec.toNat first
  have ready : rsrDone rsr = rsrDone rsr' := done
  funext s
  rw [afterRsr, afterRsr, slot, ready]

/-! ## Two runs whose RSR values differ -/

theorem mapState_eq_ok {α : Type} {g : State → State} {x : Answer α} {a : α} {t : State} :
    x.mapState g = .ok a t ↔ ∃ s, x = .ok a s ∧ g s = t := by
  cases x <;> simp [Answer.mapState]

theorem deviceRead_rsr_withScript {s : State} (hm : s.cfg.deviceMode = .abstr) (v : Word) (rest : List Word) :
    deviceRead .rsr (withScript (v :: rest) s) = (v, withScript rest s) := by
  simp [deviceRead, withScript, hm, drawRsr]

/-- The scripted RSR value shows in the bus record alone. -/
theorem regRead_rsr_withScript {k : StepIndex} {s t : State} {v w : Word} {rest : List Word} (hm : s.cfg.deviceMode = .abstr)
    (h : regRead k offRsr (withScript (v :: rest) s) = .ok w t) :
    ∃ base s0, ∀ v', regRead k offRsr (withScript (v' :: rest) s) = .ok v' (behind (s.bus ++ [readAt base offRsr v']) s0) := by
  obtain ⟨base, r, u, hb, hr, turn, -⟩ := regRead_cases h
  have others (v' : Word) := (unnoticed_withScript (v' :: rest)).othersTurn (atStep k s)
  obtain ⟨u0, turn0, -⟩ := mapState_eq_ok.mp ((others v).symm.trans turn)
  have hm0 : u0.cfg.deviceMode = .abstr := by rw [(othersTurn_carries turn0).cfg]; exact hm
  have bus : u0.bus = s.bus := by rw [othersTurn_eq turn0]; rfl
  refine ⟨base, { withScript rest u0 with bus := [] }, fun v' => ?_⟩
  have turn' : othersTurn (atStep k (withScript (v' :: rest) s)) = .ok () (withScript (v' :: rest) u0) :=
    (others v').trans (by rw [turn0]; rfl)
  have hb' : (withScript (v' :: rest) s).ctx.ioBase = some base := hb
  simp only [regRead, withBase, hb', mapRead_rsr, turn', andThen_ok, performRead, deviceRead_rsr_withScript hm0]
  rw [← bus]
  simp [logAccess, behind, withScript]

/-- Settles O44: after the RSR read the two runs differ in the bus record alone, and what follows does not notice. -/
theorem ringPointersDoNotMatter : Obligations.RingPointersDoNotMatter := by
  intro s rsr rsr' rest t hm first done h
  obtain ⟨hp, r, u, body, rfl⟩ := hostCall_cases h
  have hs : s.ctx.started = true := (recvBody_carries body).2.2
  have call (v : Word) : recvBody (entered .recv (withScript (v :: rest) s)) =
      (regRead (stepNo 1) offRsr (withScript (v :: rest) (entered .recv s))).andThen afterRsr :=
    recvBody_started (s := entered .recv (withScript (v :: rest) s)) hs
  obtain ⟨w, s1, read, -⟩ := andThen_eq_ok.mp ((call rsr).symm.trans body)
  obtain ⟨base, s0, reads⟩ := regRead_rsr_withScript (s := entered .recv s) hm read
  have rest_of (v : Word) : recvBody (entered .recv (withScript (v :: rest) s)) =
      (afterRsr v s0).mapState (behind (s.bus ++ [readAt base offRsr v])) := by
    rw [call v, reads v, andThen_ok]
    exact ignores_afterRsr _ v s0
  obtain ⟨u0, after, rfl⟩ := mapState_eq_ok.mp ((rest_of rsr).symm.trans body)
  have body' : recvBody (entered .recv (withScript (rsr' :: rest) s)) =
      .ok r (behind (s.bus ++ [readAt base offRsr rsr']) u0) := by
    rw [rest_of rsr', ← afterRsr_congr first done, after]
    rfl
  refine ⟨_, exec_recv_ok (s := withScript (rsr' :: rest) s) hp body', rfl, ?_⟩
  simp [issued, behind]

end Sys2Proof.Machine
end

section
/-! A frame that arrives at an empty REFERENCE ring (60_exceptions.md rules R302 to R304), and the `recv` that returns it. -/

namespace Sys2Proof.Machine

open Sys2Proof

/-! ## The slot an arrival has filled -/

/-- A frame that `recv` accepts: 14 to 1536 bytes, of IPv4 or ARP (43_receive.md rules R213, R215). -/
structure Acceptable (frame : List Byte) : Prop where
  long    : 14 ≤ frame.length
  short   : frame.length ≤ 1536
  type_hi : frame[12]? = some 0x08
  type_lo : frame[13]? = some 0x00 ∨ frame[13]? = some 0x06

/-- Slot `slot` of the DEVICE holds `frame`, without error, with its FCS counted in the length (60_exceptions.md rule R303). -/
structure HoldsFrame (dev : Device) (slot : Nat) (frame : List Byte) : Prop where
  usable : slotUsable (rbadValue dev) slot = true
  length : (dev.rplr.get (BitVec.ofNat 3 slot).toFin).toNat = frame.length + 4
  bytes  : ∀ (k : Nat) (hk : k < frame.length), Memory.readByte dev.buf (rxbuffOffset slot + k) = frame[k]

theorem rbadByte_getLsbD (dev : Device) (j : Nat) {k : Nat} (hk : k < 8) :
    (rbadByte dev j).getLsbD k = (dev.bad.get ⟨k, hk⟩).getLsbD j := by
  rw [rbadByte, BitVec.getLsbD_ofFnLE, dif_pos hk]

/-- The two RBAD bits of a slot (60_exceptions.md rule R302). -/
theorem rbadValue_bits (dev : Device) {k : Nat} (hk : k < 8) :
    (rbadValue dev).getLsbD k = (dev.bad.get ⟨k, hk⟩).getLsbD 0 ∧
      (rbadValue dev).getLsbD (k + 8) = (dev.bad.get ⟨k, hk⟩).getLsbD 1 := by
  unfold rbadValue
  constructor
  · rw [BitVec.getLsbD_append, if_pos hk, rbadByte_getLsbD]
  · rw [BitVec.getLsbD_append, if_neg (by omega), BitVec.getLsbD_append, if_pos (by omega), Nat.add_sub_cancel,
      rbadByte_getLsbD]

theorem slotUsable_rbadValue {dev : Device} {slot : Nat} (hslot : slot < 8) (clear : dev.bad.get ⟨slot, hslot⟩ = 0) :
    slotUsable (rbadValue dev) slot = true := by
  obtain ⟨low, high⟩ := rbadValue_bits dev hslot
  rw [← Bool.not_eq_false, slotUsable_false_iff, Nat.mod_eq_of_lt hslot, low, high, clear]
  decide

/-- An arrival at a ring with room fills the slot `next` names. -/
theorem arrive_of_room {dev : Device} {d : Nat} (frame : List Byte) (err : BitVec 2) (fcs : BitVec 32) (hd : dev.depth = some d)
    (room : (dev.next.toNat + 1) % d ≠ dev.first.toNat) :
    arrive dev frame err fcs =
      { dev with
        buf  := Memory.storeBytes dev.buf (rxbuffOffset (fillSlot dev)) (arrivalBytes frame fcs)
        rplr := dev.rplr.setIfInBounds (fillSlot dev) (BitVec.ofNat 64 (frame.length + 4))
        bad  := dev.bad.setIfInBounds (fillSlot dev) err
        next := BitVec.ofNat 4 ((dev.next.toNat + 1) % d) } := by
  simp [arrive, arriveEnabled, hd, room, fcsBytes]

theorem fillSlot_eq {dev : Device} (h : dev.next.toNat < 8) : fillSlot dev = dev.next.toNat := by
  rw [fillSlot, BitVec.toNat_setWidth]
  omega

/-- A frame that fits keeps its bytes in the slot. -/
theorem arrivalBytes_getElem {frame : List Byte} (fcs : BitVec 32) (short : frame.length ≤ 1536) {k : Nat}
    (hk : k < frame.length) : ∃ h : k < (arrivalBytes frame fcs).length, (arrivalBytes frame fcs)[k] = frame[k] := by
  have whole : arrivalBytes frame fcs = frame ++ fcsList fcs :=
    List.take_of_length_le (by rw [List.length_append, fcsList_length, rxbuffStride]; omega)
  rw [whole]
  exact ⟨by rw [List.length_append]; omega, List.getElem_append_left hk⟩

theorem arrive_holdsFrame {dev : Device} {d : Nat} {frame : List Byte} (fcs : BitVec 32) (hd : dev.depth = some d)
    (room : (dev.next.toNat + 1) % d ≠ dev.first.toNat) (hnext : dev.next.toNat < 8) (short : frame.length ≤ 1536) :
    HoldsFrame (arrive dev frame 0 fcs) dev.next.toNat frame := by
  rw [arrive_of_room frame 0 fcs hd room, fillSlot_eq hnext]
  refine ⟨slotUsable_rbadValue hnext ?_, ?_, fun k hk => ?_⟩
  · simp [Vector.get_eq_getElem]
  · have index : (BitVec.ofNat 3 dev.next.toNat).toFin = ⟨dev.next.toNat, hnext⟩ := Fin.ext (Nat.mod_eq_of_lt hnext)
    rw [index, Vector.get_eq_getElem, Vector.getElem_setIfInBounds_self, BitVec.toNat_ofNat]
    omega
  · obtain ⟨inside, same⟩ := arrivalBytes_getElem fcs short hk
    rw [readByte_storeBytes_inside _ _ _ _ inside, same]

/-! ## Reading a DEVICE that nothing moves -/

/-- An operation at a base, beside a REFERENCE DEVICE `dev` that makes no step of its own. -/
structure Unmoved (base : Word) (dev : Device) (s : State) : Prop where
  base     : s.ctx.ioBase = some base
  schedule : s.schedule = []
  mode     : s.cfg.deviceMode = .reference
  dev      : s.dev = dev

theorem After.unmoved {base : Word} {dev : Device} {s t : State} {as : List Access} (h : After s t as) (m : Unmoved base dev s)
    (same : t.dev = dev) : Unmoved base dev t :=
  ⟨h.ctx ▸ m.base, by rw [h.schedule, m.schedule, List.drop_nil], h.cfg ▸ m.mode, same⟩

theorem Unmoved.toStep {base : Word} {dev : Device} {s : State} (k : StepIndex) (h : Unmoved base dev s) :
    Unmoved base dev (atStep k s) :=
  ⟨h.base, h.schedule, h.mode, h.dev⟩

section

variable {base : Word} {dev : Device} {s : State} (m : Unmoved base dev s)

include m

theorem Unmoved.quiet : Quiet s := by simp [Quiet, m.schedule]

/-- A read is answered from the DEVICE as it is, and leaves it so. -/
theorem Unmoved.read {off : Nat} {r : ReadReg} (k : StepIndex) (hr : mapRead off = .at r) :
    ∃ u t, regRead k off s = .ok (referenceRead r u).1 t ∧ u.dev = dev ∧ Unmoved base dev t := by
  obtain ⟨v, t, read⟩ := regRead_completes (k := k) m.base hr m.quiet
  obtain ⟨u, rfl, hu, ht⟩ := regRead_reference_quietNext read hr m.quiet.next m.mode
  rw [afterOthers_nil s m.schedule, m.dev] at hu ht
  exact ⟨u, t, read, hu, (regRead_after read m.base).unmoved m ht⟩

theorem Unmoved.readRsr : ∃ v t, regRead (stepNo 1) offRsr s = .ok v t ∧ slotOf v = dev.first.toNat ∧
    rsrDone v = ringDone dev ∧ Unmoved base dev t := by
  obtain ⟨u, t, read, rfl, mt⟩ := m.read (stepNo 1) mapRead_rsr
  exact ⟨_, t, read, by simp [referenceRead, slotOf], by simp [referenceRead], mt⟩

theorem Unmoved.readRbad : ∃ t, regRead (stepNo 3) offRbad s = .ok (rbadValue dev) t ∧ Unmoved base dev t := by
  obtain ⟨u, t, read, rfl, mt⟩ := m.read (stepNo 3) mapRead_rbad
  exact ⟨t, read, mt⟩

variable {slot : Nat} (hslot : slot < 8)

include hslot

theorem Unmoved.readRplr :
    ∃ t, regRead (stepNo 4) (rplrOffset slot) s = .ok (dev.rplr.get (BitVec.ofNat 3 slot).toFin) t ∧ Unmoved base dev t := by
  obtain ⟨u, t, read, rfl, mt⟩ := m.read (stepNo 4) (mapRead_rplr slot hslot)
  exact ⟨t, read, mt⟩

theorem Unmoved.readWord {j : Nat} (k : StepIndex) (hj : j < 256) :
    ∃ t, regRead k (rxbuffOffset slot + 8 * j) s = .ok (Memory.readWord dev.buf (rxbuffOffset slot + 8 * j)) t ∧
      Unmoved base dev t := by
  obtain ⟨u, t, read, rfl, mt⟩ := m.read k (mapRead_rxbuff slot j hslot hj)
  have here : (BitVec.ofNat 3 slot).toNat = slot ∧ (BitVec.ofNat 8 j).toNat = j := by
    simp only [BitVec.toNat_ofNat]
    omega
  simp only [referenceRead, here] at read
  exact ⟨t, read, mt⟩

end

/-- A copy reads the words of the slot as the DEVICE holds them. -/
theorem Unmoved.fetch {base : Word} {dev : Device} {s : State} (m : Unmoved base dev s) {slot i n : Nat} (hslot : slot < 8)
    (k : StepIndex) (hn : i + n ≤ 256) :
    ∃ t, fetchWords k (rxbuffOffset slot + 8 * i) n s =
        .ok ((List.range n).map fun j => Memory.readWord dev.buf (rxbuffOffset slot + 8 * i + 8 * j)) t ∧ Unmoved base dev t := by
  induction n generalizing i k s with
  | zero => exact ⟨s, rfl, m⟩
  | succ n ih =>
    obtain ⟨u, first, mu⟩ := m.readWord hslot k (show i < 256 by omega)
    obtain ⟨t, rest, mt⟩ := ih mu (i := i + 1) k.nextItem (by omega)
    refine ⟨t, ?_, mt⟩
    rw [fetchWords, first, andThen_ok]
    refine (congrArg (Answer.andThen · _) rest).trans ?_
    rw [andThen_ok, List.range_succ_eq_map, List.map_cons, List.map_map]
    have next (j : Nat) : rxbuffOffset slot + 8 * (i + 1) + 8 * j = rxbuffOffset slot + 8 * i + 8 * (j + 1) := by omega
    simp only [next]
    rfl

/-! ## The bytes of the words read -/

theorem etherTypeOf_readWord (m : Memory) (a : Nat) :
    etherTypeOf (Memory.readWord m a) = Memory.readByte m (a + 4) ++ Memory.readByte m (a + 5) := by
  have byte (j : Nat) (hj : j < 8) : (Memory.readWord m a).extractLsb' (8 * j) 8 = Memory.readByte m (a + j) :=
    packWord_extractLsb' _ hj
  rw [etherTypeOf, ← byte 4 (by decide), ← byte 5 (by decide)]

theorem flatMap_unpackWord_readWord (m : Memory) (a n : Nat) :
    ((List.range n).map fun j => Memory.readWord m (a + 8 * j)).flatMap unpackWord = Memory.readBytes m a (8 * n) := by
  simp only [List.flatMap_map, Memory.readWord, unpackWord_packWord, Memory.readBytes, Nat.add_assoc]
  exact flatMap_words (fun k => Memory.readByte m (a + k)) n

@[simp] theorem readBytes_length (m : Memory) (a n : Nat) : (Memory.readBytes m a n).length = n := by simp [Memory.readBytes]

theorem HoldsFrame.take_readBytes {dev : Device} {slot n : Nat} {frame : List Byte} (h : HoldsFrame dev slot frame)
    (hn : frame.length ≤ n) : (Memory.readBytes dev.buf (rxbuffOffset slot) n).take frame.length = frame := by
  refine List.ext_getElem (by simpa using hn) fun k _ hk => ?_
  simpa [Memory.readBytes] using h.bytes k hk

theorem HoldsFrame.accepted {dev : Device} {slot : Nat} {frame : List Byte} (h : HoldsFrame dev slot frame)
    (acceptable : Acceptable frame) :
    (classifyType (etherTypeOf (Memory.readWord dev.buf (rxbuffOffset slot + 8 * 1)))).drops = false := by
  obtain ⟨long, -, type_hi, type_lo⟩ := acceptable
  rw [List.getElem?_eq_getElem (by omega), Option.some.injEq] at type_hi
  rw [List.getElem?_eq_getElem (by omega), Option.some.injEq, Option.some.injEq] at type_lo
  rw [etherTypeOf_readWord, Nat.add_assoc, Nat.add_assoc, h.bytes 12 (by omega), h.bytes 13 (by omega), type_hi]
  obtain lo | lo := type_lo <;> rw [lo] <;> decide

/-! ## The call that finds the frame -/

/-- A slot that holds an accepted frame is returned with its rounded length. -/
theorem consumeSlot_holdsFrame {base : Word} {dev : Device} {slot : Nat} {s : State} {frame : List Byte} (m : Unmoved base dev s)
    (hslot : slot < 8) (holds : HoldsFrame dev slot frame) (mask : s.cfg.rplrLengthMask = BitVec.allOnes 64)
    (acceptable : Acceptable frame) :
    ∃ t, consumeSlot slot s =
        .ok (.frame (Memory.readBytes dev.buf (rxbuffOffset slot) (8 * wordCount frame.length)) frame.length) t ∧
      Unmoved base dev t := by
  obtain ⟨s1, h1, m1⟩ := m.readRbad
  obtain ⟨s2, h2, m2⟩ := m1.readRplr hslot
  obtain ⟨s3, h3, m3⟩ := m2.readWord hslot (stepPart 6 .a) (show 1 < 256 by decide)
  have long := acceptable.long
  have short := acceptable.short
  have bound := wordCount_le short
  obtain ⟨t, h4, mt⟩ := (m3.toStep (stepPart 6 .b)).fetch (i := 0) (n := wordCount frame.length) hslot (stepPart 6 .c) (by omega)
  have raw : (dev.rplr.get (BitVec.ofNat 3 slot).toFin &&& s.cfg.rplrLengthMask).toNat = frame.length + 4 := by
    rw [mask, BitVec.and_allOnes, holds.length]
  have call := consumeSlot_accepted (ws := (List.range (wordCount frame.length)).map fun j =>
    Memory.readWord dev.buf (rxbuffOffset slot + 8 * j)) h1 holds.usable h2 (by omega) (by omega) h3
    (holds.accepted acceptable) (by rw [raw, Nat.add_sub_cancel]; exact h4)
  rw [raw, Nat.add_sub_cancel, flatMap_unpackWord_readWord] at call
  exact ⟨t, call, mt⟩

/-- What an acknowledge of slot `slot` makes of a REFERENCE ring (60_exceptions.md rule R304). -/
theorem Unmoved.acknowledge {base : Word} {dev : Device} {s : State} (m : Unmoved base dev s) {slot d : Nat} (hslot : slot < 8)
    (hd : dev.depth = some d) : ∃ t, regWrite (stepNo 7) offRsr (ackValue slot) s = .ok () t ∧
      t.dev = { dev with first := BitVec.ofNat 4 ((slot + 1) % d) } := by
  obtain ⟨t, ack⟩ := acknowledge_completes (stepNo 7) (ackValue slot) m.base m.quiet
  obtain ⟨w, hw, ht⟩ := regWrite_reference ack mapWrite_rsr m.quiet m.mode
  cases hw
  have value : (rsrFirst (ackValue slot)).toNat = slot + 1 := by
    simp only [rsrFirst, ackValue, BitVec.extractLsb'_toNat, BitVec.toNat_ofNat]
    omega
  refine ⟨t, ack, ?_⟩
  rw [ht]
  simp only [afterOthers_nil s m.schedule, atStep_dev, m.dev, acknowledged, hd, value]

/-- A run that returns a frame records no error. -/
theorem RecvRun.records_of_frame {base : Word} {cfg : Config} {as : List Access} {records : List TraceRecord} {buf : List Byte}
    {len : Nat} (h : RecvRun base cfg as records (.frame buf len)) : records = [] := by
  cases h with
  | ready rsr as records r done inside slot =>
    cases slot
    rfl

/-- In a ring of at least two slots the next slot is another one. -/
theorem succ_mod_ne {k d : Nat} (deep : 2 ≤ d) (hk : k < d) : (k + 1) % d ≠ k := by
  obtain inner | last : k + 1 < d ∨ k + 1 = d := by omega
  · rw [Nat.mod_eq_of_lt inner]
    omega
  · rw [last, Nat.mod_self]
    omega

/-- A quiet REFERENCE ring whose first slot holds an accepted frame: `recv` returns the frame, and the ring goes on. -/
theorem recv_holdsFrame {base : Word} {s : State} {frame : List Byte} {d : Nat} (ready : ReadyAt s base)
    (hs : s.ctx.started = true) (schedule : s.schedule = []) (mode : s.cfg.deviceMode = .reference)
    (hcfg : s.cfg.wellFormed = true) (mask : s.cfg.rplrLengthMask = BitVec.allOnes 64) (hd : s.dev.depth = some d)
    (nonempty : s.dev.first ≠ s.dev.next) (inside : s.dev.first.toNat < s.cfg.ringDepth)
    (holds : HoldsFrame s.dev s.dev.first.toNat frame) (acceptable : Acceptable frame) :
    ∃ t buf, exec .recv s = .next t ∧ t.returned = s.returned ++ [.frame buf frame.length] ∧ buf.take frame.length = frame ∧
      buf.length = ceil8 frame.length ∧ t.dev = { s.dev with first := BitVec.ofNat 4 ((s.dev.first.toNat + 1) % d) } ∧
      t.trace = s.trace := by
  obtain ⟨hp, -, hb⟩ := ready
  have m : Unmoved base s.dev (entered .recv s) := ⟨hb, schedule, mode, rfl⟩
  have hslot : s.dev.first.toNat < 8 := Nat.lt_of_lt_of_le inside (ringDepth_le hcfg)
  obtain ⟨rsr, s1, read, slot, done, m1⟩ := m.readRsr
  have cfg1 : s1.cfg = s.cfg := (regRead_carries read).cfg
  obtain ⟨s2, consumed, m2⟩ := consumeSlot_holdsFrame m1 hslot holds (cfg1 ▸ mask) acceptable
  obtain ⟨t, ack, dev⟩ := m2.acknowledge hslot hd
  rw [← slot] at consumed ack inside
  have body := recvBody_ready (s := entered .recv s) hs read (done.trans ((ringDone_iff _).mpr nonempty)) inside consumed ack
  have buffer : frame.length ≤ 8 * wordCount frame.length := ceil8_eq_wordCount frame.length ▸ le_ceil8 frame.length
  refine ⟨_, _, exec_recv_ok hp body, congrArg (· ++ [_]) (recvBody_carries body).1.returned, ?_, ?_, dev, ?_⟩
  · rw [slot]
    exact holds.take_readBytes buffer
  · rw [readBytes_length, ceil8_eq_wordCount]
  · obtain ⟨as, records, run, -, trace⟩ := recvBody_recvRun (s := entered .recv s) body hb rfl
    rw [run.records_of_frame, List.append_nil] at trace
    exact trace

/-- A ring index survives its 4-bit field. -/
theorem ofNat_mod_toNat (k : Nat) {d : Nat} (h1 : 1 ≤ d) (h8 : d ≤ 8) : (BitVec.ofNat 4 (k % d)).toNat = k % d := by
  have := Nat.mod_lt k h1
  rw [BitVec.toNat_ofNat]
  omega

/-- An arrival at an empty ring: the one filled slot is the first, and the ring is no longer empty. -/
theorem arrive_at_empty {dev : Device} {d : Nat} {frame : List Byte} (fcs : BitVec 32) (ring : RingOk dev) (hd : dev.depth = some d)
    (deep : 2 ≤ d) (empty : dev.first = dev.next) (short : frame.length ≤ 1536) :
    HoldsFrame (arrive dev frame 0 fcs) dev.first.toNat frame ∧ (arrive dev frame 0 fcs).first = dev.first ∧
      (arrive dev frame 0 fcs).next = BitVec.ofNat 4 ((dev.first.toNat + 1) % d) ∧ dev.first ≠ (arrive dev frame 0 fcs).next := by
  obtain ⟨h1, h8, hfirst, hnext⟩ := ring d hd
  have apart := succ_mod_ne deep hfirst
  have room : (dev.next.toNat + 1) % d ≠ dev.first.toNat := by rwa [← empty]
  have holds := arrive_holdsFrame fcs hd room (by omega) short
  have arrived := arrive_of_room frame 0 fcs hd room
  rw [← empty] at holds
  have next : (arrive dev frame 0 fcs).next = BitVec.ofNat 4 ((dev.first.toNat + 1) % d) := by rw [arrived, empty]
  refine ⟨holds, by rw [arrived], next, fun same => apart ?_⟩
  rw [← ofNat_mod_toNat _ h1 h8, ← next, ← same]

/-- Settles O45: the first step fills the slot, and the second is a `recv` that finds the frame there. -/
theorem referenceArrivalIsDelivered : Obligations.ReferenceArrivalIsDelivered := by
  intro s base frame fcs d ⟨_, hcfg, _, ⟨ring, _⟩, _⟩ ready hs schedule mode mask hd deep inside empty long short type_hi type_lo
    agenda
  obtain ⟨h1, h8, hfirst, -⟩ := ring d hd
  obtain ⟨holds, first, next, nonempty⟩ := arrive_at_empty fcs ring hd deep empty short
  have arrival : step s = .next { s with dev := arrive s.dev frame 0 fcs, agenda := [.request (.host 0x04 {})] } := by
    simp [step, agenda, deviceMove, mode, referenceMove]
  rw [← first] at holds nonempty
  obtain ⟨t, buf, call, returned, bytes, length, dev, trace⟩ :=
    recv_holdsFrame (s := { s with dev := arrive s.dev frame 0 fcs, agenda := [] }) ready hs schedule mode hcfg mask
      ((arrive_depth s.dev frame 0 fcs).trans hd) nonempty (by rw [first]; exact Nat.lt_of_lt_of_le hfirst inside)
      holds ⟨long, short, type_hi, type_lo⟩
  refine ⟨t, buf, run_two arrival ((stepRunsTheDecodedInstruction _ _ [] _ rfl rfl).trans call), returned, bytes, length, ?_, ?_,
    trace⟩
  · rw [dev, first]
    exact ofNat_mod_toNat _ h1 h8
  · rw [dev, first]
    exact next

end Sys2Proof.Machine
end

section
/-! The classifier's answers (44_classifier.md rules R240 to R242). -/

namespace Sys2Proof.Machine

open Sys2Proof

/-- The table's last row (44_classifier.md rule R240). -/
theorem classifyType_of_ne {e : BitVec 16} (not_ipv4 : e ≠ 0x0800) (not_arp : e ≠ 0x0806) (not_ipv6 : e ≠ 0x86DD) :
    classifyType e = .dropUnknown :=
  (classifyType_of_drops ((classifyType_drops_iff e).mpr ⟨not_ipv4, not_arp⟩)).trans (if_neg not_ipv6)

theorem classifyUnknown_wellFormed_iff {e : BitVec 16} :
    (Instr.classifyUnknown e).wellFormed = true ↔ e ≠ 0x0800#16 ∧ e ≠ 0x0806#16 ∧ e ≠ 0x86DD#16 := by
  simp only [Instr.wellFormed, Bool.and_eq_true, bne_iff_ne, and_assoc]

/-- Classifying is pure (44_classifier.md rule R242): the run returns the class and restores the position it was entered from. -/
theorem classifyAs_eq (etype : BitVec 16) (s : State) :
    classifyAs etype s = .next { s with returned := s.returned ++ [.verdict (classifyType etype)] } :=
  runOp_ok (t := entered .classify s) rfl

/-- Settles O46: each form is one run of the classifier, which returns its operand's row of the table. -/
theorem classifierAnswers : Obligations.ClassifierAnswers := by
  refine ⟨fun etype s => ⟨classifyType etype, classifyAs_eq etype s, ?ipv4, ?arp, ?ipv6, classifyType_of_ne⟩,
    fun s => ⟨classifyAs_eq 0x0800 s, classifyAs_eq 0x0806 s, classifyAs_eq 0x86DD s⟩, fun etype s hwf => ?unknown⟩
  case ipv4 | arp | ipv6 => rintro rfl; rfl
  case unknown =>
    obtain ⟨not_ipv4, not_arp, not_ipv6⟩ := classifyUnknown_wellFormed_iff.mp hwf
    rw [← classifyType_of_ne not_ipv4 not_arp not_ipv6]
    exact classifyAs_eq etype s

end Sys2Proof.Machine
end

section
/-! The lifecycle operations (45_lifecycle.md): what each body answers by the bits of the context, and the calls as a whole. -/

namespace Sys2Proof.Machine

open Sys2Proof

/-! ## A HOST call of an idle CORE, by its body's answer -/

theorem hostCall_ok {op : Op} {body : State → Answer Result} {s t : State} {r : Result} (hp : s.position = .idle)
    (h : body (entered op s) = .ok r t) : hostCall op body s = .next (returnTo .idle r t) :=
  hp ▸ (hostCall_idle hp).trans (runOp_ok h)

theorem hostCall_stop {op : Op} {body : State → Answer Result} {s : State} {f : Fault} (hp : s.position = .idle)
    (h : body (entered op s) = .stop f) : hostCall op body s = .fault f :=
  (hostCall_idle hp).trans (runOp_stop h)

/-! ## The preconditions (45_lifecycle.md rule R268): each body tests its own before anything else -/

theorem exec_probe_probed {s : State} (idle : s.position = .idle) (probed : s.ctx.probed = true) (base : Word) (phy : Int) :
    exec (.probe base phy) s = .fault (.reprobe .probe) :=
  hostCall_stop idle (if_pos probed)

theorem exec_start_notProbed {s : State} (idle : s.position = .idle) (fresh : s.ctx.probed = false) :
    exec .start s = .fault (.notProbed .start) :=
  hostCall_stop idle (if_neg (ne_true_of_eq_false fresh))

theorem exec_stop_notProbed {s : State} (idle : s.position = .idle) (fresh : s.ctx.probed = false) :
    exec .stop s = .fault (.notProbed .stop) :=
  hostCall_stop idle (if_neg (ne_true_of_eq_false fresh))

theorem exec_hwaddr_notProbed {s : State} (idle : s.position = .idle) (fresh : s.ctx.probed = false) :
    exec .hwaddr s = .fault (.notProbed .hwaddr) :=
  hostCall_stop idle (resolveBody_notProbed (s := entered .hwaddr s) fresh)

theorem exec_recv_notStarted {s : State} (idle : s.position = .idle) (unstarted : s.ctx.started = false) :
    exec .recv s = .fault (.notStarted .recv) :=
  hostCall_stop idle (if_neg (ne_true_of_eq_false unstarted))

theorem exec_send_notStarted {s : State} (idle : s.position = .idle) (unstarted : s.ctx.started = false) (frame : List Byte)
    (length : Nat) : exec (.send frame length) s = .fault (.notStarted .send) :=
  hostCall_stop idle (if_neg (ne_true_of_eq_false unstarted))

/-! ## `start` -/

/-- The DEVICE takes a ring depth from 1 to 8 (60_exceptions.md rule R305). -/
theorem regWrite_rfcs_completes {k : StepIndex} {s : State} {base v : Word} (hb : s.ctx.ioBase = some base) (hq : Quiet s)
    (depth : 1 ≤ v.toNat ∧ v.toNat ≤ 8) : ∃ t, regWrite k offRfcs v s = .ok () t := by
  have taken (u : State) : ∃ w, deviceWrite .rfcs v u = .ok () w := by
    unfold deviceWrite
    split
    · exact ⟨_, rfl⟩
    · exact referenceWrite_completes nofun fun _ => depth
  obtain ⟨w, hw⟩ := taken (atStep k (afterOthers s))
  exact ⟨_, regWrite_completes hb mapWrite_rfcs hq hw⟩

/-- The REFERENCE ring takes the depth that is written, and is empty (60_exceptions.md rule R305). -/
theorem regWrite_rfcs_ring {k : StepIndex} {s t : State} {v : Word} (h : regWrite k offRfcs v s = .ok () t)
    (hm : s.cfg.deviceMode = .reference) : t.dev.depth = some v.toNat ∧ t.dev.first = 0 ∧ t.dev.next = 0 := by
  obtain ⟨base, r, u, w, -, hr, hu, hw, rfl⟩ := regWrite_cases h
  obtain rfl : WriteReg.rfcs = r := Mapped.at.inj (mapWrite_rfcs.symm.trans hr)
  have hmu : u.cfg.deviceMode = .reference := by rw [(othersTurn_carries hu).cfg]; exact hm
  simp only [deviceWrite, hmu, referenceWrite] at hw
  split at hw <;> cases hw
  exact ⟨rfl, rfl, rfl⟩

theorem ringDepth_range {cfg : Config} (h : cfg.wellFormed = true) : 1 ≤ cfg.ringDepth ∧ cfg.ringDepth ≤ 8 :=
  of_decide_eq_true h

/-- A ring depth that 00_scope.md rule R11 admits fits the register word. -/
theorem ringDepth_word {cfg : Config} (h : cfg.wellFormed = true) : (BitVec.ofNat 64 cfg.ringDepth).toNat = cfg.ringDepth := by
  obtain ⟨-, high⟩ := ringDepth_range h
  exact Nat.mod_eq_of_lt (by omega)

/-- A quiet `start` is a resolution and the RFCS write, and both complete (45_lifecycle.md rules R262, R263). -/
theorem startBody_completes {s : State} {base : Word} (hp : s.ctx.probed = true) (hb : s.ctx.ioBase = some base) (hq : Quiet s)
    (hcfg : s.cfg.wellFormed = true) : ∃ r t, startBody s = .ok r t := by
  obtain ⟨m, s1, h1⟩ := resolveMac_completes (index := innerStep 1) hp hb hq
  obtain ⟨_, _, u, -, rfl, after⟩ := resolveMac_bus h1 hb
  have cfg : u.cfg = s.cfg := after.cfg
  have depth : 1 ≤ (BitVec.ofNat 64 u.cfg.ringDepth).toNat ∧ (BitVec.ofNat 64 u.cfg.ringDepth).toNat ≤ 8 := by
    rw [cfg, ringDepth_word hcfg]
    exact ringDepth_range hcfg
  obtain ⟨s2, h2⟩ := regWrite_rfcs_completes (k := stepNo 2) (s := { u with ctx := { s.ctx with mac := some m } }) hb
    (after.quiet hq) depth
  exact ⟨_, _, by rw [startBody, if_pos hp, configureRing, resolveMac_atStep, h1, andThen_ok, h2, andThen_ok]⟩

/-- The accesses made under another Device Context are accesses all the same. -/
theorem After.ofCtx {s t : State} {c : Ctx} {as : List Access} (h : After { s with ctx := c } t as) :
    After s { t with ctx := s.ctx } as :=
  ⟨h.bus, h.schedule, h.trace, rfl, h.cfg, h.agenda, h.returned, h.op, h.dev⟩

/-- A completed `start`: its accesses, and, in the REFERENCE DEVICE, what the registers hold after them. -/
theorem startBody_registers {s t : State} {r : Result} {base : Word} (h : startBody s = .ok r t) (hb : s.ctx.ioBase = some base) :
    ∃ maclo machi u, r = .unit ∧ t = { u with ctx := { s.ctx with mac := some (macOctets maclo machi), started := true } } ∧
      After s u [readAt base offMaclo maclo, readAt base offMachi machi,
        writeAt base offMachi (writebackValue s.cfg.machiWriteback machi),
        writeAt base offRfcs (BitVec.ofNat 64 s.cfg.ringDepth)] ∧
      (s.cfg.deviceMode = .reference → u.dev.machi = writebackValue s.cfg.machiWriteback machi ∧
        u.dev.depth = some (BitVec.ofNat 64 s.cfg.ringDepth).toNat ∧ u.dev.first = 0 ∧ u.dev.next = 0) := by
  obtain ⟨m, s1, s2, h1, h2, rfl, rfl⟩ := startBody_cases h
  obtain ⟨maclo, machi, u, rfl, rfl, resolution, registers⟩ := resolveMac_registers h1 hb
  have configuration := (regWrite_after h2 hb).ofCtx
  rw [resolution.ctx] at configuration
  refine ⟨maclo, machi, { s2 with ctx := s.ctx }, rfl, rfl, resolution.trans configuration, fun hm => ?_⟩
  obtain ⟨-, -, written⟩ := registers hm
  have kept : s2.dev.machi = u.dev.machi := (regWrite_sameMac h2 (by decide)).machi
  have ring := regWrite_rfcs_ring h2 ((congrArg Config.deviceMode resolution.cfg).trans hm)
  exact ⟨kept.trans written, ring⟩

/-- Settles O26: the resolution's three accesses and the RFCS write, with what the registers hold after them. -/
theorem startConfiguresTheRing : Obligations.StartConfiguresTheRing := by
  intro s idle
  refine ⟨exec_start_notProbed idle, fun base ⟨_, probed, hb⟩ quiet hcfg => ?_⟩
  obtain ⟨r, t, ht⟩ := startBody_completes (s := entered .start s) probed hb quiet hcfg
  obtain ⟨maclo, machi, u, rfl, rfl, after, registers⟩ := startBody_registers ht hb
  refine ⟨_, maclo, machi, writebackValue s.cfg.machiWriteback machi, hostCall_ok idle ht, rfl, after.bus, rfl,
    congrArg (· ++ [Result.unit]) after.returned, fun hm => ?_, after.dev, after.cfg, rfl, after.agenda, after.trace,
    after.schedule⟩
  obtain ⟨written, depth, first, next⟩ := registers hm
  exact ⟨written, writebackValue_irqEn _ machi, depth.trans (congrArg some (ringDepth_word hcfg)), first, next⟩

/-! ## The calls without an access -/

theorem probeBody_fresh {s : State} (fresh : s.ctx.probed = false) (base : Word) (phy : Int) :
    probeBody base phy s = probeBase base phy (atStep (stepNo 1) s) :=
  if_neg (ne_true_of_eq_false fresh)

theorem probeBase_misaligned {base : Word} (h : base.toNat % 8 ≠ 0) (phy : Int) (s : State) :
    probeBase base phy s = .stop (.misaligned base.toNat) :=
  if_pos h

theorem probeBase_aligned {base : Word} (h : base.toNat % 8 = 0) (phy : Int) (s : State) :
    probeBase base phy s = probeWindow base phy (atStep (stepNo 2) s) :=
  if_neg (not_not_intro h)

theorem probeWindow_wraps {base : Word} (h : 2 ^ 64 < base.toNat + 0x8000) (phy : Int) (s : State) :
    probeWindow base phy s = .stop (.unmapped base.toNat) :=
  if_pos h

theorem probeWindow_fits {base : Word} (h : base.toNat + 0x8000 ≤ 2 ^ 64) (phy : Int) (s : State) :
    probeWindow base phy s =
      .ok .unit { s with ctx := { s.ctx with ioBase := some base, phyAddr := some phy, probed := true } } :=
  if_neg (Nat.not_lt.mpr h)

/-- Settles O23: the base is tested after the precondition, its alignment before its range. -/
theorem probeSetsTheContext : Obligations.ProbeSetsTheContext := by
  intro s base phy idle
  have tested (fresh : s.ctx.probed = false) := probeBody_fresh (s := entered .probe s) fresh base phy
  refine ⟨fun probed => exec_probe_probed idle probed base phy, fun fresh misaligned => ?_, fun fresh aligned wraps => ?_,
    fun fresh aligned fits => ?_⟩
  · exact hostCall_stop idle ((tested fresh).trans (probeBase_misaligned misaligned phy _))
  · exact hostCall_stop idle (by rw [tested fresh, probeBase_aligned aligned, probeWindow_wraps wraps])
  · have body := (tested fresh).trans ((probeBase_aligned aligned phy _).trans (probeWindow_fits fits phy _))
    exact (hostCall_ok idle body).trans (by rw [← idle]; rfl)

/-- Settles O24: the body answers the state it is entered in. -/
theorem stopChangesNothing : Obligations.StopChangesNothing := by
  refine fun s idle => ⟨fun probed => ?_, exec_stop_notProbed idle⟩
  have body : stopBody (entered .stop s) = .ok .unit (entered .stop s) := if_pos probed
  exact (hostCall_ok idle body).trans (by rw [← idle]; rfl)

/-- Settles O28: each precondition is tested first; a context that is not probed is not started either. -/
theorem misorderedCallsFault : Obligations.MisorderedCallsFault := by
  intro s idle ⟨_, _, startedProbed, _⟩
  have unstarted (fresh : s.ctx.probed = false) : s.ctx.started = false :=
    Bool.eq_false_iff.mpr fun started => ne_true_of_eq_false fresh (startedProbed started)
  exact ⟨exec_probe_probed idle,
    fun fresh => ⟨exec_start_notProbed idle fresh, exec_stop_notProbed idle fresh, exec_hwaddr_notProbed idle fresh,
      exec_recv_notStarted idle (unstarted fresh), exec_send_notStarted idle (unstarted fresh)⟩,
    fun h => ⟨exec_recv_notStarted idle h, exec_send_notStarted idle h⟩⟩

end Sys2Proof.Machine
end

section
/-! The registers of the REFERENCE DEVICE (60_exceptions.md rules R302, R304, R305, R308): what it answers each read, and what it
makes of a write to RSR, RFCS, MACHI and MDIOCTRL. -/

namespace Sys2Proof.Machine

open Sys2Proof

/-! ## Reads -/

theorem deviceRead_reference {s : State} (hm : s.cfg.deviceMode = .reference) (r : ReadReg) :
    deviceRead r s = referenceRead r s := by
  rw [deviceRead, hm]

theorem rsrValue_next (dev : Device) (d : Word) : (rsrValue dev d).extractLsb' 4 4 = dev.next := by
  unfold rsrValue
  rw [BitVec.extractLsb'_append_eq_of_le (by decide)]
  exact BitVec.extractLsb'_append_eq_right

theorem rsrValue_reserved (dev : Device) (d : Word) : (rsrValue dev d).extractLsb' 14 50 = 0 := by
  unfold rsrValue
  repeat rw [BitVec.extractLsb'_append_eq_of_le (by decide)]
  exact BitVec.extractLsb'_eq_self

theorem rbadValue_high (dev : Device) : (rbadValue dev).extractLsb' 16 48 = dev.rbadHi := by
  unfold rbadValue
  repeat rw [BitVec.extractLsb'_append_eq_of_le (by decide)]
  exact BitVec.extractLsb'_eq_self

/-- The busy bits of a TPLR value tell whether the DEVICE transmits, if the mask has a bit. -/
theorem tplrValue_busy_iff {mask : Word} (h : mask ≠ 0) (busy : Bool) (d : Word) :
    tplrValue mask busy d &&& mask ≠ 0 ↔ busy = true := by
  cases busy with
  | false => exact iff_of_false (not_not.mpr (tplrValue_idle mask d)) nofun
  | true => exact iff_of_true (tplrValue_busy h d) rfl

/-- The model's answers are those of 60_exceptions.md rule R302. -/
theorem referenceRead_answer (r : ReadReg) (s : State) : ReferenceAnswer s.dev s.cfg.tplrBusyMask r (referenceRead r s).1 := by
  cases r with
  | maclo | machi | rplr => rfl
  | mdioctrl | rfcs => trivial
  | tplr => exact fun mask => tplrValue_busy_iff mask _ _
  | rsr =>
    rw [referenceRead]
    generalize (drawWord s).1 = d
    have done : (rsrValue s.dev d).getLsbD 12 = true ↔ s.dev.first ≠ s.dev.next := by
      rw [← ringDone_iff, ← rsrValue_done s.dev d, rsrDone]
    exact ⟨rsrValue_first s.dev d, rsrValue_next s.dev d, done, rsrValue_reserved s.dev d⟩
  | rbad => exact ⟨fun k => rbadValue_bits s.dev k.isLt, rbadValue_high s.dev⟩
  | rxbuff slot index =>
    intro j hj
    rw [referenceRead, Memory.readWord, packWord_extractLsb' _ hj]
    rfl

/-- Settles O14: a bus row answers what the DEVICE answers after the others' turn. -/
theorem referenceReadValues : Obligations.ReferenceReadValues := by
  intro i off r via hrow s base hm hb hq hbare
  obtain ⟨hexec, hmap⟩ := readRow_exec hrow s
  refine ⟨_, (deviceRead r (atAccess s)).1, hexec.trans (busRead_next hb hmap hq hbare), by simp, ?_⟩
  rw [deviceRead_reference (by simpa using hm)]
  simpa using referenceRead_answer r (atAccess s)

/-! ## Writes -/

theorem deviceWrite_reference {s : State} (hm : s.cfg.deviceMode = .reference) (r : WriteReg) (v : Word) :
    deviceWrite r v s = referenceWrite r v s := by
  rw [deviceWrite, hm]

section

variable {i : Instr} {off : Nat} {r : WriteReg} {v base : Word} {s : State} (hrow : writeRow i = some (off, r, v))
  (hm : s.cfg.deviceMode = .reference) (hb : s.ctx.ioBase = some base) (hq : Quiet s)

include hrow hm hb hq

/-- A bus row that the REFERENCE DEVICE takes leaves the DEVICE as the write makes it. -/
theorem exec_writeRow_next {w : State} (hw : referenceWrite r v (atAccess s) = .ok () w) :
    ∃ t, exec i s = .next t ∧ t.dev = w.dev := by
  obtain ⟨hexec, hmap, hlow⟩ := writeRow_exec hrow s
  rw [← deviceWrite_reference (by simpa using hm)] at hw
  exact ⟨_, hexec.trans (busWrite_next hb hmap hq (.inr (.inl hlow)) hw), rfl⟩

theorem exec_writeRow_fault {f : Fault} (hw : referenceWrite r v (atAccess s) = .stop f) : exec i s = .fault f := by
  obtain ⟨hexec, hmap, hlow⟩ := writeRow_exec hrow s
  rw [← deviceWrite_reference (by simpa using hm)] at hw
  exact hexec.trans (busWrite_fault hb hmap hq (.inr (.inl hlow)) hw)

end

theorem acknowledged_eq {dev : Device} {d : Nat} (hd : dev.depth = some d) (v : Word) (seed : Nat) :
    acknowledged dev v seed = BitVec.ofNat 4 ((rsrFirst v).toNat % d) := by
  rw [acknowledged, hd]

/-- Settles O16: the DEVICE's `first` is reduced to a ring index, which its 4 bits hold. -/
theorem referenceAcknowledge : Obligations.ReferenceAcknowledge := by
  intro s base v d hm hb hq hd h1 h8
  obtain ⟨t, hexec, hdev⟩ := exec_writeRow_next (i := .rsrW v) rfl hm hb hq rfl
  have first : t.dev.first = BitVec.ofNat 4 ((rsrFirst v).toNat % d) := by rw [hdev]; exact acknowledged_eq hd v _
  refine ⟨t, hexec, by rw [first]; exact ofNat_mod_toNat _ h1 h8, by rw [hdev]; rfl, ?_⟩
  rintro rfl rfl
  exact first

/-- Settles O17: the DEVICE takes a depth from 1 to 8 with an empty ring, and faults at any other. -/
theorem referenceRingConfiguration : Obligations.ReferenceRingConfiguration := by
  refine fun s base v hm hb hq => ⟨fun depth => ?_, fun outside => ?_⟩
  · exact exec_writeRow_next (i := .rfcsW v) rfl hm hb hq (if_pos depth)
  · exact exec_writeRow_fault (i := .rfcsW v) rfl hm hb hq (if_neg (by omega))

end Sys2Proof.Machine
end

section
/-! The DEVICE's own steps as steps of the machine (60_exceptions.md rules R303, R307, R312): an arrival, a lost frame, and the
completion of a transmission. -/

namespace Sys2Proof.Machine

open Sys2Proof

/-! ## The steps that run no request -/

theorem step_of_empty_agenda {s : State} (h : s.agenda = []) : step s = .next (deviceMove .txDone s) := by
  rw [step, h]
  rfl

theorem step_of_device_event {s : State} {d : DeviceMove} {rest : List Event} (h : s.agenda = .device d :: rest) :
    step s = .next (deviceMove d { s with agenda := rest }) := by
  rw [step, h]

theorem deviceMove_reference {s : State} (hm : s.cfg.deviceMode = .reference) (d : DeviceMove) :
    deviceMove d s = { s with dev := referenceMove s.dev d } := by
  rw [deviceMove, hm]

theorem deviceMove_lose (frame : List Byte) (s : State) : deviceMove (.lose frame) s = s := by
  unfold deviceMove
  split <;> rfl

/-! ## The completion of a transmission -/

theorem deviceMove_txDone_busy {s : State} (hm : s.cfg.deviceMode = .reference) (busy : s.dev.txBusy = true) :
    deviceMove .txDone s = { s with dev := { s.dev with wire := s.dev.wire ++ [s.dev.pending], txBusy := false } } := by
  rw [deviceMove_reference hm, referenceMove, transmitDone, if_pos busy]

theorem deviceMove_txDone_idle {s : State} (hm : s.cfg.deviceMode = .reference) (idle : s.dev.txBusy = false) :
    deviceMove .txDone s = s := by
  rw [deviceMove_reference hm, referenceMove, transmitDone_idle idle]

/-- Settles O48: an empty agenda and a `TxDone` on it are one move of the DEVICE. -/
theorem transmissionCompletes : Obligations.TransmissionCompletes := by
  refine fun s hm => ⟨fun ha => ?_, fun rest ha => ?_⟩
  · rw [step_of_empty_agenda ha]
    exact ⟨fun busy => congrArg _ (deviceMove_txDone_busy hm busy), fun idle => congrArg _ (deviceMove_txDone_idle hm idle)⟩
  · rw [step_of_device_event ha]
    exact ⟨fun busy => congrArg _ (deviceMove_txDone_busy (s := { s with agenda := rest }) hm busy),
      fun idle => congrArg _ (deviceMove_txDone_idle (s := { s with agenda := rest }) hm idle)⟩

/-! ## The bytes of an arrival -/

theorem readByte_storeBytes_getElem? {bs : List Byte} {k : Nat} {b : Byte} (m : Memory) (a : Nat) (h : bs[k]? = some b) :
    Memory.readByte (Memory.storeBytes m a bs) (a + k) = b := by
  obtain ⟨hk, rfl⟩ := List.getElem?_eq_some_iff.mp h
  exact readByte_storeBytes_inside bs m a k hk

theorem arrivalBytes_length (frame : List Byte) (fcs : BitVec 32) :
    (arrivalBytes frame fcs).length = min (frame.length + 4) 0x800 := by
  rw [arrivalBytes, List.length_take, List.length_append, fcsList_length, rxbuffStride, Nat.min_comm]

/-- Within the slot an arrival's bytes are the frame's. -/
theorem arrivalBytes_frame {frame : List Byte} {k : Nat} {b : Byte} (fcs : BitVec 32) (hk : k < 0x800) (h : frame[k]? = some b) :
    (arrivalBytes frame fcs)[k]? = some b := by
  obtain ⟨inside, -⟩ := List.getElem?_eq_some_iff.mp h
  rw [arrivalBytes, rxbuffStride, List.getElem?_take_of_lt hk, List.getElem?_append_left inside, h]

/-- Within the slot the FCS follows the frame, low byte first. -/
theorem arrivalBytes_fcs (frame : List Byte) (fcs : BitVec 32) {j : Nat} (hj : j < 4) (inside : frame.length + j < 0x800) :
    (arrivalBytes frame fcs)[frame.length + j]? = some (fcs.extractLsb' (8 * j) 8) := by
  rw [arrivalBytes, rxbuffStride, List.getElem?_take_of_lt inside, List.getElem?_append_right (Nat.le_add_right _ _),
    Nat.add_sub_cancel_left, fcsList, List.getElem?_map, List.getElem?_range hj, Option.map_some]

/-! ## The arrival of a frame -/

theorem get_setIfInBounds {α : Type} (xs : Vector α 8) (slot : Nat) (x : α) (k : Fin 8) :
    (xs.setIfInBounds slot x).get k = if k.val = slot then x else xs.get k := by
  rw [Vector.get_eq_getElem, Vector.get_eq_getElem, Vector.getElem_setIfInBounds]
  simp only [eq_comm]

/-- An arrival that is not enabled changes nothing: the depth is unset, or the ring is full (log 22). -/
theorem arrive_of_disabled {dev : Device} (h : arriveEnabled dev = false) (frame : List Byte) (err : BitVec 2) (fcs : BitVec 32) :
    arrive dev frame err fcs = dev :=
  if_neg (ne_true_of_eq_false h)

theorem arriveEnabled_of_unset {dev : Device} (h : dev.depth = none) : arriveEnabled dev = false := by
  rw [arriveEnabled, h]

theorem arriveEnabled_of_full {dev : Device} {d : Nat} (hd : dev.depth = some d)
    (full : (dev.next.toNat + 1) % d = dev.first.toNat) : arriveEnabled dev = false := by
  simp [arriveEnabled, hd, full]

/-- Settles O47: the step is the DEVICE's arrival, which leaves a full or unset ring alone, and else fills the slot `next` names. -/
theorem arrivalFillsTheNextSlot : Obligations.ArrivalFillsTheNextSlot := by
  refine ⟨fun s frame rest ha => (step_of_device_event ha).trans (congrArg _ (deviceMove_lose frame _)),
    fun s frame err fcs rest hm ⟨ring, _⟩ ha => ?_⟩
  have arrived : step s = .next { s with agenda := rest, dev := arrive s.dev frame err fcs } :=
    (step_of_device_event ha).trans (congrArg _ (deviceMove_reference (s := { s with agenda := rest }) hm _))
  refine ⟨_, arrived, rfl, fun unset => arrive_of_disabled (arriveEnabled_of_unset unset) frame err fcs,
    fun d hd full => arrive_of_disabled (arriveEnabled_of_full hd full) frame err fcs, fun d hd room => ?_⟩
  obtain ⟨h1, h8, -, hnext⟩ := ring d hd
  simp only [arrive_of_room frame err fcs hd room, fillSlot_eq (Nat.lt_of_lt_of_le hnext h8)]
  refine ⟨trivial, ofNat_mod_toNat _ h1 h8, get_setIfInBounds s.dev.rplr _ _, get_setIfInBounds s.dev.bad _ _,
    fun k b hk hb => ?frame, fun j hj inside => ?fcs, fun a outside => ?others⟩
  case frame => exact readByte_storeBytes_getElem? _ _ (arrivalBytes_frame fcs hk hb)
  case fcs =>
    rw [Nat.add_assoc]
    exact readByte_storeBytes_getElem? _ _ (arrivalBytes_fcs frame fcs hj inside)
  case others => exact readByte_storeBytes_outside _ _ _ _ (by rw [arrivalBytes_length]; exact outside)

end Sys2Proof.Machine
end

section
/-! Which parts of the DEVICE the CORE can change (10_state.md rules R35, R45; 60_exceptions.md rules R304 to R306, R308): never
MACLO, and the rest only through the registers an operation writes. -/

namespace Sys2Proof.Machine

open Sys2Proof

/-! ## MACLO -/

theorem deviceWrite_keeps_maclo {r : WriteReg} {v : Word} {s t : State} (h : deviceWrite r v s = .ok () t) :
    t.dev.maclo = s.dev.maclo := by
  unfold deviceWrite at h
  split at h
  · cases h; rfl
  · obtain ⟨-, rfl⟩ | ⟨-, -, rfl⟩ | ⟨-, -, rfl⟩ | ⟨-, rfl⟩ | ⟨-, -, -, rfl⟩ | ⟨-, rfl⟩ | ⟨i, -, -, rfl⟩ := referenceWrite_cases h
    all_goals rfl

theorem regRead_keeps_maclo {k : StepIndex} {off : Nat} {s t : State} {v : Word} (h : regRead k off s = .ok v t) :
    t.dev.maclo = s.dev.maclo :=
  (regRead_sameMac h).maclo

theorem regWrite_keeps_maclo {k : StepIndex} {off : Nat} {s t : State} {v : Word} (h : regWrite k off v s = .ok () t) :
    t.dev.maclo = s.dev.maclo := by
  obtain ⟨base, r, u, w, -, -, hu, hw, rfl⟩ := regWrite_cases h
  exact (deviceWrite_keeps_maclo hw).trans (othersTurn_sameMac (s := atStep k s) hu).maclo

theorem CoreMove.keeps_maclo {p : Dir → Nat → Prop} {s t : State} (h : CoreMove p s t) : t.dev.maclo = s.dev.maclo := by
  cases h with
  | read _ h => exact regRead_keeps_maclo h
  | write _ h => exact regWrite_keeps_maclo h
  | step | trace | seed | context => rfl

theorem CoreRun.keeps_maclo {p : Dir → Nat → Prop} {s t : State} (h : CoreRun p s t) : t.dev.maclo = s.dev.maclo := by
  induction h with
  | refl => rfl
  | tail _ move ih => exact move.keeps_maclo.trans ih

/-- A call of the accessor's read that completes has been rejected at step 2, or is the bare read. -/
theorem accessRead_cases {off : Nat} {s t : State} {v : Word} (h : accessRead off s = .ok v t) :
    rejectedRead off (atStep (stepNo 2) s) = .ok v t ∨ regRead (stepNo 3) off s = .ok v t := by
  unfold accessRead withBase at h
  split at h
  · cases h
  · split at h
    · cases h
    · unfold checkedRead at h
      split at h
      · exact .inl h
      · rw [regRead_atStep] at h
        exact .inr h

/-- A call of the accessor's write that completes has been rejected at step 2, or is the bare write. -/
theorem accessWrite_cases {off : Nat} {s t : State} {v : Word} (h : accessWrite off v s = .ok () t) :
    t = record .registerOutOfRange (.offset off) (atStep (stepNo 2) s) ∨ regWrite (stepNo 3) off v s = .ok () t := by
  unfold accessWrite withBase at h
  split at h
  · cases h
  · split at h
    · cases h
    · unfold checkedWrite at h
      split at h
      · cases h; exact .inl rfl
      · rw [regWrite_atStep] at h
        exact .inr h

theorem readVia_keeps_maclo {via : Via} {off : Nat} {s t : State} {v : Word} (h : readVia via off s = .ok v t) :
    t.dev.maclo = s.dev.maclo := by
  cases via with
  | copy => exact regRead_keeps_maclo h
  | control =>
    obtain rejected | bare := accessRead_cases h
    · cases rejected; simp
    · exact regRead_keeps_maclo bare

theorem writeVia_keeps_maclo {via : Via} {off : Nat} {s t : State} {v : Word} (h : writeVia via off v s = .ok () t) :
    t.dev.maclo = s.dev.maclo := by
  cases via with
  | copy => exact regWrite_keeps_maclo h
  | control =>
    obtain rfl | bare := accessWrite_cases h
    · rfl
    · exact regWrite_keeps_maclo bare

/-- `e` holds in MACLO what `d` holds. -/
def SameMaclo (d e : Device) : Prop := e.maclo = d.maclo

theorem recvBody_keeps_maclo {s t : State} {r : Result} (h : recvBody s = .ok r t) : t.dev.maclo = s.dev.maclo :=
  (recvBody_run (p := fun _ _ => True) trivial trivial (fun _ _ => ⟨trivial, trivial, fun _ _ => trivial⟩) h).keeps_maclo

theorem sendBody_keeps_maclo {frame : List Byte} {length : Nat} {s t : State} {r : Result}
    (h : sendBody frame length s = .ok r t) : t.dev.maclo = s.dev.maclo :=
  (sendBody_run (sendAllowed_listed s.cfg) h).keeps_maclo

theorem busRead_keeps_maclo {off : Nat} {via : Via} {s t : State} (h : busRead off via s = .next t) :
    t.dev.maclo = s.dev.maclo := by
  refine runOp_dev (SameMaclo s.dev) (fun hb => ?_) h
  obtain ⟨v, u, hu, hv⟩ := andThen_eq_ok.mp hb
  cases hv
  exact readVia_keeps_maclo (s := atStep (stepNo 1) (entered .access s)) hu

theorem busWrite_keeps_maclo {off : Nat} {v : Word} {via : Via} {s t : State} (h : busWrite off v via s = .next t) :
    t.dev.maclo = s.dev.maclo := by
  refine runOp_dev (SameMaclo s.dev) (fun hb => ?_) h
  obtain ⟨_, u, hu, hv⟩ := andThen_eq_ok.mp hb
  cases hv
  exact writeVia_keeps_maclo (s := atStep (stepNo 1) (entered .access s)) hu

/-- Classifying leaves the DEVICE alone (44_classifier.md rule R242). -/
theorem classifyAs_dev {etype : BitVec 16} {s t : State} (h : classifyAs etype s = .next t) : t.dev = s.dev := by
  rw [classifyAs_eq] at h
  cases h
  rfl

theorem exec_keeps_maclo {i : Instr} {s t : State} (h : exec i s = .next t) : t.dev.maclo = s.dev.maclo := by
  cases i with
  | probe ioBase phyAddr => exact hostCall_dev (SameMaclo s.dev) (fun hb => congrArg Device.maclo (probeBody_untouched hb).2) h
  | start | init => exact hostCall_dev (SameMaclo s.dev) (fun hb => (startBody_listed s.cfg hb).keeps_maclo) h
  | send frame length => exact hostCall_dev (SameMaclo s.dev) sendBody_keeps_maclo h
  | recv => exact hostCall_dev (SameMaclo s.dev) recvBody_keeps_maclo h
  | stop => exact hostCall_dev (SameMaclo s.dev) (fun hb => by rw [stopBody_eq hb]; rfl) h
  | hwaddr => exact hostCall_dev (SameMaclo s.dev) (fun hb => (resolveBody_listed s.cfg hb).keeps_maclo) h
  | resolve => exact runOp_dev (SameMaclo s.dev) (fun hb => (resolveBody_listed s.cfg hb).keeps_maclo) h
  | classify | classifyIPv4 | classifyARP | classifyIPv6 | classifyUnknown => exact congrArg Device.maclo (classifyAs_dev h)
  | macloR | machiR | tplrR | mdioctrlR | rfcsR | rsrR | rbadR | rplrR | rxbuffR => exact busRead_keeps_maclo h
  | machiW | tplrW | tfcsW | mdioctrlW | rfcsW | rsrW | txbuffW => exact busWrite_keeps_maclo h

/-- Settles O19: MACHI and MDIOCTRL take every write, and no write, read or move of the DEVICE touches MACLO. -/
theorem referenceMacRegisters : Obligations.ReferenceMacRegisters := by
  refine ⟨fun s base v hm hb hq => ⟨?machi, ?mdioctrl⟩, fun _ _ _ => exec_keeps_maclo⟩
  case machi => exact exec_writeRow_next (i := .machiW v) rfl hm hb hq rfl
  case mdioctrl => exact exec_writeRow_next (i := .mdioctrlW v) (w := atAccess s) rfl hm hb hq rfl

/-! ## A DEVICE that makes no step of its own -/

/-- Of the accesses, any read, and the writes of registers in `q`. -/
def writesOnly (q : WriteReg → Prop) (dir : Dir) (off : Nat) : Prop := dir = .write → ∃ r, mapWrite off = .at r ∧ q r

/-- `R` is kept by an operation that writes registers in `q` only: it holds before anything is done, goes on from move to move, and
every write of such a register that the DEVICE takes keeps it. -/
structure KeptByWrites (q : WriteReg → Prop) (R : Device → Device → Prop) : Prop where
  refl  : ∀ d, R d d
  trans : ∀ {d e f}, R d e → R e f → R d f
  write : ∀ {r v s t}, q r → deviceWrite r v s = .ok () t → R s.dev t.dev

section

variable {q : WriteReg → Prop} {R : Device → Device → Prop} (kept : KeptByWrites q R) {s t : State}

include kept

theorem CoreMove.unmoved (h : CoreMove (writesOnly q) s t) (still : s.schedule = []) : R s.dev t.dev ∧ t.schedule = [] := by
  cases h with
  | read _ h =>
    obtain ⟨base, r, u, -, -, hu, -, rfl⟩ := regRead_cases h
    obtain rfl := othersTurn_nil hu still
    simpa using ⟨kept.refl s.dev, still⟩
  | write allowed h =>
    obtain ⟨base, r, u, w, -, hr, hu, hw, rfl⟩ := regWrite_cases h
    obtain rfl := othersTurn_nil hu still
    obtain ⟨r', hr', hq⟩ := allowed rfl
    obtain rfl : r = r' := Mapped.at.inj (hr.symm.trans hr')
    have moved : R s.dev w.dev := kept.write (s := atStep _ s) hq hw
    refine ⟨moved, ?_⟩
    rw [logAccess_schedule, deviceWrite_eq hw]
    exact still
  | step | trace | seed | context => exact ⟨kept.refl s.dev, still⟩

/-- What a run of moves makes of a DEVICE that no other agent moves. -/
theorem CoreRun.unmoved (h : CoreRun (writesOnly q) s t) (still : s.schedule = []) : R s.dev t.dev := by
  have both : R s.dev t.dev ∧ t.schedule = [] := by
    induction h with
    | refl => exact ⟨kept.refl s.dev, still⟩
    | tail _ move ih =>
      obtain ⟨moved, still'⟩ := move.unmoved kept ih.2
      exact ⟨kept.trans ih.1 moved, still'⟩
  exact both.1

end

theorem deviceWrite_cases {r : WriteReg} {v : Word} {s t : State} (h : deviceWrite r v s = .ok () t) :
    t = s ∨ referenceWrite r v s = .ok () t := by
  unfold deviceWrite at h
  split at h
  · cases h; exact .inl rfl
  · exact .inr h

/-! ## The resolver, `start` and `recv` -/

theorem resolveMac_run {p : Dir → Nat → Prop} {index : Nat → StepIndex} {s t : State} {m : Vector Byte 6}
    (reads : ∀ off, p .read off) (back : p .write offMachi) (h : resolveMac index s = .ok m t) : CoreRun p s t := by
  obtain ⟨maclo, machi, s1, s2, s3, -, h1, h2, h3, -, rfl⟩ := resolveMac_cases h
  have base : s.ctx.ioBase = s3.ctx.ioBase := by rw [regWrite_ctx h3, regRead_ctx h2, regRead_ctx h1]
  exact .head (.read (reads _) h1) <| .head (.read (reads _) h2) <| .head (.write back h3) <| .single (.context _ s3 base)

theorem resolveBody_run {p : Dir → Nat → Prop} {s t : State} {r : Result} (reads : ∀ off, p .read off)
    (back : p .write offMachi) (h : resolveBody s = .ok r t) : CoreRun p s t := by
  obtain ⟨m, u, hu, h⟩ := andThen_eq_ok.mp h
  cases h
  exact resolveMac_run reads back hu

theorem startBody_run {p : Dir → Nat → Prop} {s t : State} {r : Result} (reads : ∀ off, p .read off)
    (back : p .write offMachi) (ring : p .write offRfcs) (h : startBody s = .ok r t) : CoreRun p s t := by
  obtain ⟨m, s1, s2, h1, h2, -, rfl⟩ := startBody_cases h
  obtain ⟨-, hctx, -⟩ := resolveMac_carries h1
  have base : s.ctx.ioBase = s2.ctx.ioBase := by rw [regWrite_ctx h2, hctx]
  exact ((resolveMac_run reads back h1).tail (.write ring h2)).tail (.context _ s2 base)

/-- MACHI aside, `e` is `d`. -/
def SameButMachi (d e : Device) : Prop := e = { d with machi := e.machi }

theorem sameButMachi_kept : KeptByWrites (· = .machi) SameButMachi where
  refl _ := rfl
  trans h k := by
    unfold SameButMachi at h k ⊢
    rw [k, h]
  write := by
    rintro r v s t rfl h
    obtain rfl | h := deviceWrite_cases h
    · rfl
    · cases h; rfl

/-- MACHI and the ring's depth and pointers aside, `e` is `d`. -/
def SameButMachiAndRing (d e : Device) : Prop :=
  e = { d with machi := e.machi, depth := e.depth, first := e.first, next := e.next }

theorem sameButMachiAndRing_kept : KeptByWrites (fun r => r = .machi ∨ r = .rfcs) SameButMachiAndRing where
  refl _ := rfl
  trans h k := by
    unfold SameButMachiAndRing at h k ⊢
    rw [k, h]
  write := by
    intro r v s t hr h
    obtain rfl | h := deviceWrite_cases h
    · rfl
    · obtain rfl | rfl := hr
      · cases h; rfl
      · simp only [referenceWrite] at h
        split at h <;> cases h
        rfl

/-- The ring's `first` aside, `e` is `d`. -/
def SameButFirst (d e : Device) : Prop := e = { d with first := e.first }

theorem sameButFirst_kept : KeptByWrites (· = .rsr) SameButFirst where
  refl _ := rfl
  trans h k := by
    unfold SameButFirst at h k ⊢
    rw [k, h]
  write := by
    rintro r v s t rfl h
    obtain rfl | h := deviceWrite_cases h
    · rfl
    · cases h; rfl

/-! ## `send` -/

/-- The registers that a `send` of `n` bytes writes: TFCS, TPLR and the words of the rounded length. -/
def SendWrites (n : Nat) (r : WriteReg) : Prop := r = .tfcs ∨ r = .tplr ∨ ∃ i, r = .txbuff i ∧ i.toNat < wordCount n

/-- The transmit side aside, `e` is `d`, and of the buffer memory too, the words of a frame of `n` bytes aside. -/
structure SameButSend (n : Nat) (d e : Device) : Prop where
  fields : e = { d with tfcs := e.tfcs, buf := e.buf, txBusy := e.txBusy, pending := e.pending }
  bytes  : ∀ a, a < 0x1000 ∨ 0x1000 + 8 * wordCount n ≤ a → Memory.readByte e.buf a = Memory.readByte d.buf a

theorem sameButSend_kept (n : Nat) : KeptByWrites (SendWrites n) (SameButSend n) where
  refl _ := ⟨rfl, fun _ _ => rfl⟩
  trans h k := by
    refine ⟨?_, fun a ha => (k.bytes a ha).trans (h.bytes a ha)⟩
    rw [k.fields, h.fields]
  write := by
    intro r v s t hr h
    obtain rfl | h := deviceWrite_cases h
    · exact ⟨rfl, fun _ _ => rfl⟩
    · obtain rfl | rfl | ⟨i, rfl, hi⟩ := hr
      · obtain ⟨-, rfl⟩ := unlessBusy_cases h
        exact ⟨rfl, fun _ _ => rfl⟩
      · obtain ⟨-, rfl⟩ := unlessBusy_cases h
        exact ⟨rfl, fun _ _ => rfl⟩
      · obtain ⟨-, rfl⟩ := unlessBusy_cases h
        exact ⟨rfl, fun a ha => readByte_storeWord_outside _ _ _ _ (by rw [offTxbuff]; omega)⟩

theorem transmitFrame_sendWrites {frame : List Byte} {n : Nat} {s t : State} (hn : n ≤ 1536)
    (h : transmitFrame frame n s = .ok () t) : CoreRun (writesOnly (SendWrites n)) s t := by
  obtain ⟨_, s1, h1, h⟩ := andThen_eq_ok.mp h
  obtain ⟨_, s2, h2, h3⟩ := andThen_eq_ok.mp h
  have short := wordCount_le hn
  have words (j : Nat) (hj : j < (stagingWords frame s1.draws n).length) :
      writesOnly (SendWrites n) .write (offTxbuff + 8 * j) := by
    rw [stagingWords_length] at hj
    refine fun _ => ⟨_, mapWrite_txbuff j (by omega), .inr (.inr ⟨_, rfl, ?_⟩)⟩
    rwa [BitVec.toNat_ofNat, Nat.mod_eq_of_lt (by omega)]
  exact .head (.write (fun _ => ⟨_, mapWrite_tfcs, .inl rfl⟩) h1) (.head (.seed s1)
    ((stageWords_run words h2).tail (.write (fun _ => ⟨_, mapWrite_tplr, .inr (.inl rfl)⟩) h3)))

theorem afterWait_sendWrites {frame : List Byte} {length : Nat} {idle : Bool} {s t : State} {r : Result}
    (h : afterWait frame length idle s = .ok r t) : CoreRun (writesOnly (SendWrites (min length 1536))) s t := by
  cases idle with
  | false => cases h; exact .single (.trace _ _ s)
  | true => exact transmitFrame_sendWrites (Nat.min_le_right _ _) (afterWait_idle h).2

theorem exec_send_sameButSend {frame : List Byte} {length : Nat} {s t : State} (still : s.schedule = [])
    (h : exec (.send frame length) s = .next t) : SameButSend (min length 1536) s.dev t.dev := by
  obtain ⟨idle, u, r, v, wait, rest, rfl⟩ := exec_send_cases h
  have run : CoreRun _ (atWait length s) v := .trans (waitStep_run (fun _ => nofun) wait) (afterWait_sendWrites rest)
  exact run.unmoved (sameButSend_kept _) still

/-- Settles O59: each operation is a run of moves that write its own registers only, and nothing else moves the DEVICE. -/
theorem operationsTouchTheirRegistersOnly : Obligations.OperationsTouchTheirRegistersOnly := by
  intro s t i still h
  refine ⟨fun hi => ?resolver, fun hi => ?start, fun hi => ?recv, fun frame length hi => ?send, fun base phy e hi => ?untouched⟩
  case resolver =>
    have resolved {op : Op} {r : Result} {u : State} (hb : resolveBody (entered op s) = .ok r u) : SameButMachi s.dev u.dev :=
      (resolveBody_run (fun _ => nofun) (fun _ => ⟨_, mapWrite_machi, rfl⟩) hb).unmoved sameButMachi_kept still
    obtain rfl | rfl := hi
    · exact hostCall_dev (SameButMachi s.dev) resolved h
    · exact runOp_dev (SameButMachi s.dev) resolved h
  case start =>
    have started {r : Result} {u : State} (hb : startBody (entered .start s) = .ok r u) : SameButMachiAndRing s.dev u.dev :=
      (startBody_run (fun _ => nofun) (fun _ => ⟨_, mapWrite_machi, .inl rfl⟩) (fun _ => ⟨_, mapWrite_rfcs, .inr rfl⟩)
        hb).unmoved sameButMachiAndRing_kept still
    obtain rfl | rfl := hi <;> exact hostCall_dev (SameButMachiAndRing s.dev) started h
  case recv =>
    subst hi
    exact hostCall_dev (SameButFirst s.dev) (fun hb => (recvBody_run nofun (fun _ => ⟨_, mapWrite_rsr, rfl⟩)
      (fun _ _ => ⟨nofun, nofun, fun _ _ => nofun⟩) hb).unmoved sameButFirst_kept still) h
  case send =>
    subst hi
    obtain ⟨fields, bytes⟩ := exec_send_sameButSend still h
    rw [wordCount_eq] at bytes
    exact ⟨fields, bytes⟩
  case untouched =>
    obtain rfl | rfl | rfl | rfl | rfl | rfl | rfl := hi
    · exact hostCall_dev (· = s.dev) (fun hb => (probeBody_untouched hb).2) h
    · exact hostCall_dev (· = s.dev) (fun hb => by rw [stopBody_eq hb, entered_dev]) h
    all_goals exact classifyAs_dev h

end Sys2Proof.Machine
end

section
/-! A HOST invocation while an operation is in progress (60_exceptions.md rule R297): one that the HOST calls, and one that lands
before an access. Every body lands its accesses, which is shown part by part. -/

namespace Sys2Proof.Machine

open Sys2Proof

/-! ## An operation that meets a running one -/

theorem hostCall_running {op running : Op} {k : StepIndex} {body : State → Answer Result} {s : State}
    (h : s.position = .running running k) : hostCall op body s = .fault (.concurrent running op) := by
  rw [hostCall, h]

/-! ## A landing before the next access -/

/-- An access before which a HOST invocation lands is not made. -/
theorem regRead_landing {k : StepIndex} {off : Nat} {r : ReadReg} {s : State} {base : Word} {op : Op} {ds : List DeviceMove}
    {more : List Move} {rest : List (List Move)} (hb : s.ctx.ioBase = some base) (hr : mapRead off = .at r)
    (hs : s.schedule = landing ds op more :: rest) : regRead k off s = .stop (.concurrent (currentOp s) op) := by
  have turn : othersTurn (atStep k s) = .stop (.concurrent (currentOp s) op) := by
    simp only [othersTurn, atStep_schedule, hs]
    exact (otherMoves_landing ds op more _).trans (by rw [← currentOp_atStep k s]; rfl)
  simp [regRead, withBase, hb, hr, turn]

/-! ## Parts of an operation that land what they do -/

/-- However `body` completes, it lands the accesses it makes. -/
def LandsAlways {α : Type} (body : State → Answer α) : Prop := ∀ s a t, body s = .ok a t → ∃ n, Lands body s a t n

/-- A change of the state that is no access: it takes nothing from the schedule, and commutes with more moves to come. -/
structure Passive (g : State → State) : Prop where
  bus      : ∀ s, (g s).bus = s.bus
  schedule : ∀ s, (g s).schedule = s.schedule
  op       : ∀ s, currentOp (g s) = currentOp s
  later    : ∀ more s, g (later more s) = later more (g s)

theorem Passive.id : Passive fun s => s := ⟨fun _ => rfl, fun _ => rfl, fun _ => rfl, fun _ _ => rfl⟩

theorem Passive.atStep (k : StepIndex) : Passive (atStep k) := ⟨fun _ => rfl, fun _ => rfl, currentOp_atStep k, fun _ _ => rfl⟩

theorem Passive.record (kind : ErrorKind) (detail : Detail) : Passive (record kind detail) :=
  ⟨fun _ => rfl, fun _ => rfl, fun _ => rfl, fun _ _ => rfl⟩

theorem Passive.seed : Passive fun s => { s with draws := s.draws + 1 } :=
  ⟨fun _ => rfl, fun _ => rfl, fun _ => rfl, fun _ _ => rfl⟩

theorem Passive.context (f : Ctx → Ctx) : Passive fun s => { s with ctx := f s.ctx } :=
  ⟨fun _ => rfl, fun _ => rfl, fun _ => rfl, fun _ _ => rfl⟩

theorem Passive.comp {f g : State → State} (hf : Passive f) (hg : Passive g) : Passive fun s => f (g s) :=
  ⟨fun s => (hf.bus _).trans (hg.bus s), fun s => (hf.schedule _).trans (hg.schedule s), fun s => (hf.op _).trans (hg.op s),
    fun more s => by rw [hg.later, hf.later]⟩

theorem LandsAlways.done {α : Type} {g : State → State} (h : Passive g) (a : α) : LandsAlways fun s => .ok a (g s) := by
  intro s b t hb
  cases hb
  exact ⟨0, .free (h.bus s) (h.schedule s) (h.op s) fun more => by rw [h.later]⟩

theorem LandsAlways.stops {α : Type} (f : State → Fault) : LandsAlways fun s => (.stop (f s) : Answer α) := by
  intro s a t h
  cases h

theorem LandsAlways.andThen {α β : Type} {x : State → Answer α} {f : α → State → Answer β} (h : LandsAlways x)
    (k : ∀ a, LandsAlways (f a)) : LandsAlways fun s => (x s).andThen f := by
  intro s b u hu
  obtain ⟨a, t, ht, hu⟩ := andThen_eq_ok.mp hu
  obtain ⟨m, first⟩ := h s a t ht
  obtain ⟨n, rest⟩ := k a t b u hu
  exact ⟨m + n, first.andThen rest⟩

/-- A part that begins with a change that is no access. -/
theorem LandsAlways.after {α : Type} {g : State → State} {body : State → Answer α} (h : LandsAlways body) (hg : Passive g) :
    LandsAlways fun s => body (g s) :=
  (LandsAlways.done hg ()).andThen fun _ => h

/-- A part that depends on something in the state besides the schedule. -/
theorem LandsAlways.reading {α γ : Type} (q : State → γ) (same : ∀ more s, q (later more s) = q s)
    {f : γ → State → Answer α} (h : ∀ c, LandsAlways (f c)) : LandsAlways fun s => f (q s) s := by
  intro s a t ht
  obtain ⟨n, lands⟩ := h (q s) s a t ht
  exact ⟨n, lands.congr fun more => by rw [same]⟩

theorem LandsAlways.ite {α : Type} (c : Prop) [Decidable c] {f g : State → Answer α} (hf : LandsAlways f) (hg : LandsAlways g) :
    LandsAlways fun s => if c then f s else g s := by
  by_cases hc : c
  · simpa only [if_pos hc] using hf
  · simpa only [if_neg hc] using hg

/-- A part whose precondition is a bit of the state. -/
theorem LandsAlways.guarded {α : Type} (q : State → Bool) (same : ∀ more s, q (later more s) = q s) {f g : State → Answer α}
    (hf : LandsAlways f) (hg : LandsAlways g) : LandsAlways fun s => if q s then f s else g s :=
  .reading q same (f := fun b s => if b then f s else g s) fun _ => .ite _ hf hg

/-! ## The accesses -/

theorem landsAlways_regRead (k : StepIndex) (off : Nat) : LandsAlways (regRead k off) := fun _ _ _ h => ⟨1, regRead_lands h⟩

theorem landsAlways_regWrite (k : StepIndex) (off : Nat) (v : Word) : LandsAlways (regWrite k off v) :=
  fun _ _ _ h => ⟨1, regWrite_lands h⟩

theorem landsAlways_fetchWords (k : StepIndex) (off n : Nat) : LandsAlways (fetchWords k off n) :=
  fun _ _ _ h => ⟨n, fetchWords_lands h⟩

theorem landsAlways_stageWords (k : StepIndex) (off : Nat) (ws : List Word) : LandsAlways (stageWords k off ws) :=
  fun _ _ _ h => ⟨ws.length, stageWords_lands h⟩

theorem LandsAlways.withBase {α : Type} {f : State → Word → Answer α} (h : ∀ base, LandsAlways fun s => f s base) :
    LandsAlways fun s => withBase s (f s) := by
  refine .reading (fun s => s.ctx.ioBase) (fun _ _ => rfl)
    (f := fun o s => match o with | none => .stop (.notProbed (currentOp s)) | some base => f s base) fun o => ?_
  cases o with
  | none => exact .stops _
  | some base => exact h base

theorem drawWord_later (more : List (List Move)) (s : State) :
    drawWord (later more s) = ((drawWord s).1, later more (drawWord s).2) := by
  simp only [drawWord, later]
  cases s.script <;> rfl

theorem Passive.draw : Passive fun s => (drawWord s).2 :=
  ⟨drawWord_bus, drawWord_schedule, fun s => currentOp_congr s _ (drawWord_position s), fun more s => by rw [drawWord_later]⟩

/-- A rejected read draws its answer. -/
theorem landsAlways_rejectedRead (off : Nat) : LandsAlways (rejectedRead off) := by
  refine .reading (fun s => (drawWord (record .registerOutOfRange (.offset off) s)).1) (fun more s => ?_)
    fun v => .done (Passive.draw.comp (.record _ _)) v
  rw [(Passive.record _ _).later, drawWord_later]

theorem landsAlways_accessRead (off : Nat) : LandsAlways (accessRead off) := by
  have checked : LandsAlways (checkedRead off) :=
    .guarded (diagRejects off) (fun _ _ => rfl) (landsAlways_rejectedRead off) (landsAlways_regRead _ off)
  exact .withBase fun _ => .ite _ (.stops _) (checked.after (.atStep _))

theorem landsAlways_accessWrite (off : Nat) (v : Word) : LandsAlways (accessWrite off v) := by
  have checked : LandsAlways (checkedWrite off v) :=
    .guarded (diagRejects off) (fun _ _ => rfl) (.done (.record _ _) ()) (landsAlways_regWrite _ off v)
  exact .withBase fun _ => .ite _ (.stops _) (checked.after (.atStep _))

theorem landsAlways_readVia (via : Via) (off : Nat) : LandsAlways (readVia via off) := by
  cases via with
  | copy => exact landsAlways_regRead _ off
  | control => exact landsAlways_accessRead off

theorem landsAlways_writeVia (via : Via) (off : Nat) (v : Word) : LandsAlways (writeVia via off v) := by
  cases via with
  | copy => exact landsAlways_regWrite _ off v
  | control => exact landsAlways_accessWrite off v

/-! ## The bodies of the operations -/

theorem landsAlways_probeBody (ioBase : Word) (phyAddr : Int) : LandsAlways (probeBody ioBase phyAddr) := by
  have window : LandsAlways (probeWindow ioBase phyAddr) :=
    .ite _ (.stops _)
      (.done (.context fun c => { c with ioBase := some ioBase, phyAddr := some phyAddr, probed := true }) Result.unit)
  have base : LandsAlways (probeBase ioBase phyAddr) := .ite _ (.stops _) (window.after (.atStep _))
  exact .guarded (fun s => s.ctx.probed) (fun _ _ => rfl) (.stops _) (base.after (.atStep _))

theorem landsAlways_resolveMac (index : Nat → StepIndex) : LandsAlways (resolveMac index) := by
  refine .guarded (fun s => s.ctx.probed) (fun _ _ => rfl) ?_ (.stops _)
  refine (landsAlways_regRead _ _).andThen fun maclo => (landsAlways_regRead _ _).andThen fun machi => ?_
  have back : LandsAlways fun s => regWrite (index 5) offMachi (writebackValue s.cfg.machiWriteback machi) s :=
    .reading (fun s => s.cfg.machiWriteback) (fun _ _ => rfl)
      (f := fun mode => regWrite (index 5) offMachi (writebackValue mode machi)) fun _ => landsAlways_regWrite _ _ _
  exact back.andThen fun _ => .done (.context fun c => { c with mac := some (macOctets maclo machi) }) _

theorem landsAlways_resolveBody : LandsAlways resolveBody := (landsAlways_resolveMac _).andThen fun _ => .done .id _

theorem landsAlways_startBody : LandsAlways startBody := by
  have ring : LandsAlways fun s => regWrite (stepNo 2) offRfcs (BitVec.ofNat 64 s.cfg.ringDepth) s :=
    .reading (fun s => s.cfg.ringDepth) (fun _ _ => rfl) fun _ => landsAlways_regWrite _ _ _
  have configure : LandsAlways configureRing :=
    (landsAlways_resolveMac _).andThen fun _ => ring.andThen fun _ => .done (.context fun c => { c with started := true }) _
  exact .guarded (fun s => s.ctx.probed) (fun _ _ => rfl) (configure.after (.atStep _)) (.stops _)

theorem landsAlways_stopBody : LandsAlways stopBody :=
  .guarded (fun s => s.ctx.probed) (fun _ _ => rfl) (.done .id _) (.stops _)

theorem landsAlways_dropFrame (reason : ErrorKind) (slot : Nat) : LandsAlways (dropFrame reason slot) := .done (.record _ _) _

theorem landsAlways_dispatchFrame (slot len : Nat) : LandsAlways (dispatchFrame slot len) := by
  refine (landsAlways_regRead _ _).andThen fun w => LandsAlways.after ?_ (.atStep _)
  exact .ite _ (landsAlways_dropFrame _ _) ((landsAlways_fetchWords _ _ _).andThen fun _ => .done .id _)

theorem landsAlways_validateLength (slot : Nat) (len : Int) : LandsAlways (validateLength slot len) :=
  .ite _ (landsAlways_dropFrame _ _) (.ite _ (landsAlways_dropFrame _ _) (landsAlways_dispatchFrame _ _))

theorem landsAlways_consumeSlot (slot : Nat) : LandsAlways (consumeSlot slot) := by
  have validate (rplr : Word) : LandsAlways fun s =>
      validateLength slot (payloadLength s.cfg.rplrLengthMask rplr) (atStep (stepNo 5) s) :=
    .reading (fun s => s.cfg.rplrLengthMask) (fun _ _ => rfl)
      (f := fun mask s => validateLength slot (payloadLength mask rplr) (atStep (stepNo 5) s))
      fun _ => (landsAlways_validateLength _ _).after (.atStep _)
  exact (landsAlways_regRead _ _).andThen fun _ =>
    .ite _ ((landsAlways_regRead _ _).andThen validate) (landsAlways_dropFrame _ _)

theorem landsAlways_receiveSlot (slot : Nat) : LandsAlways (receiveSlot slot) := by
  refine .reading (fun s => s.cfg.ringDepth) (fun _ _ => rfl)
    (f := fun depth s => if depth ≤ slot then .stop (.slotRange slot)
      else (consumeSlot slot s).andThen fun result s1 => acknowledgeSlot slot result s1) fun depth => .ite _ (.stops _) ?_
  exact (landsAlways_consumeSlot slot).andThen fun _ => (landsAlways_regWrite _ _ _).andThen fun _ => .done .id _

theorem landsAlways_recvBody : LandsAlways recvBody := by
  refine .guarded (fun s => s.ctx.started) (fun _ _ => rfl) ?_ (.stops _)
  exact (landsAlways_regRead _ _).andThen fun _ => .ite _ ((landsAlways_receiveSlot _).after (.atStep _)) (.done .id _)

theorem landsAlways_waitIdle (n : Nat) (step : StepIndex) : LandsAlways (waitIdle step n) := by
  induction n generalizing step with
  | zero => exact .done .id _
  | succ n ih =>
    refine (landsAlways_regRead _ _).andThen fun v => ?_
    exact .reading (fun s => s.cfg.tplrBusyMask) (fun _ _ => rfl)
      (f := fun mask s => if v &&& mask = 0 then .ok true s else waitIdle step.nextItem n s)
      fun _ => .ite _ (.done .id _) (ih _)

theorem landsAlways_waitStep : LandsAlways waitStep := by
  have wait : LandsAlways fun s => waitIdle (stepNo 3) s.cfg.txWaitCap s :=
    .reading (fun s => s.cfg.txWaitCap) (fun _ _ => rfl) fun _ => landsAlways_waitIdle _ _
  exact .guarded (fun s => s.cfg.txWaitIdle) (fun _ _ => rfl) wait (.done .id _)

theorem landsAlways_transmitFrame (frame : List Byte) (n : Nat) : LandsAlways (transmitFrame frame n) := by
  have stage : LandsAlways fun s =>
      stageWords (stepNo 5) offTxbuff (stagingWords frame s.draws n) { s with draws := s.draws + 1 } :=
    .reading (fun s => s.draws) (fun _ _ => rfl)
      (f := fun seed s => stageWords (stepNo 5) offTxbuff (stagingWords frame seed n) { s with draws := s.draws + 1 })
      fun _ => (landsAlways_stageWords _ _ _).after .seed
  exact (landsAlways_regWrite _ _ _).andThen fun _ => stage.andThen fun _ => landsAlways_regWrite _ _ _

theorem Passive.recordOversize (length : Nat) : Passive (recordOversize length) := by
  unfold Machine.recordOversize
  split
  · exact .record _ _
  · exact .id

theorem landsAlways_sendBody (frame : List Byte) (length : Nat) : LandsAlways (sendBody frame length) := by
  have begins := (Passive.atStep (stepNo 3)).comp ((Passive.recordOversize length).comp (.atStep (stepNo 1)))
  have wait := landsAlways_waitStep.after begins
  refine .guarded (fun s => s.ctx.started) (fun _ _ => rfl) (wait.andThen fun _ => ?_) (.stops _)
  exact .ite _ ((landsAlways_transmitFrame _ _).andThen fun _ => .done .id _) (.done (.record _ _) _)

/-! ## Whole instructions -/

/-- A landing before an access of an operation that lands its accesses. -/
theorem runOp_landing {op : Op} {body : State → Answer Result} (lands : LandsAlways body) {s t : State} {qs : List (List Move)}
    (h : runOp op body { s with schedule := qs } = .next t) (more_accesses : qs.length < (issued s t).length)
    (ds : List DeviceMove) (new : Op) (more : List Move) (rest : List (List Move)) :
    runOp op body { s with schedule := qs ++ landing ds new more :: rest } = .fault (.concurrent op new) := by
  obtain ⟨r, u, hu, rfl⟩ := runOp_cases h
  obtain ⟨n, landed⟩ := lands _ _ _ hu
  have count : u.bus.length = s.bus.length + n := landed.bus
  rw [issued, List.length_drop, returnTo_bus, count] at more_accesses
  exact runOp_lands landed (by omega) ds new more rest

theorem hostCall_landing {op : Op} {body : State → Answer Result} (lands : LandsAlways body) {s t : State} {qs : List (List Move)}
    (h : hostCall op body { s with schedule := qs } = .next t) (more_accesses : qs.length < (issued s t).length)
    (ds : List DeviceMove) (new : Op) (more : List Move) (rest : List (List Move)) :
    hostCall op body { s with schedule := qs ++ landing ds new more :: rest } = .fault (.concurrent op new) := by
  have idle : s.position = .idle := (hostCall_cases h).1
  rw [hostCall_idle (s := { s with schedule := qs }) idle] at h
  rw [hostCall_idle (s := { s with schedule := qs ++ landing ds new more :: rest }) idle]
  exact runOp_landing lands h more_accesses ds new more rest

theorem exec_landing {i : Instr} {s t : State} {qs : List (List Move)} (h : exec i { s with schedule := qs } = .next t)
    (more_accesses : qs.length < (issued s t).length) (ds : List DeviceMove) (op : Op) (more : List Move)
    (rest : List (List Move)) :
    exec i { s with schedule := qs ++ landing ds op more :: rest } = .fault (.concurrent (runningOp i) op) := by
  have read {off : Nat} {via : Via} (h : busRead off via { s with schedule := qs } = .next t) :=
    runOp_landing (((landsAlways_readVia via off).after (.atStep (stepNo 1))).andThen fun v => .done .id (Result.value v)) h
      more_accesses ds op more rest
  have write {off : Nat} {v : Word} {via : Via} (h : busWrite off v via { s with schedule := qs } = .next t) :=
    runOp_landing (((landsAlways_writeVia via off v).after (.atStep (stepNo 1))).andThen fun _ => .done .id Result.unit) h
      more_accesses ds op more rest
  have classified {etype : BitVec 16} (h : classifyAs etype { s with schedule := qs } = .next t) :=
    runOp_landing (.done .id _) h more_accesses ds op more rest
  cases i with
  | probe ioBase phyAddr => exact hostCall_landing (landsAlways_probeBody ioBase phyAddr) h more_accesses ds op more rest
  | start | init => exact hostCall_landing landsAlways_startBody h more_accesses ds op more rest
  | send frame length => exact hostCall_landing (landsAlways_sendBody frame length) h more_accesses ds op more rest
  | recv => exact hostCall_landing landsAlways_recvBody h more_accesses ds op more rest
  | stop => exact hostCall_landing landsAlways_stopBody h more_accesses ds op more rest
  | hwaddr => exact hostCall_landing landsAlways_resolveBody h more_accesses ds op more rest
  | resolve => exact runOp_landing landsAlways_resolveBody h more_accesses ds op more rest
  | classify | classifyIPv4 | classifyARP | classifyIPv6 | classifyUnknown => exact classified h
  | macloR | machiR | tplrR | mdioctrlR | rfcsR | rsrR | rbadR | rplrR | rxbuffR => exact read h
  | machiW | tplrW | tfcsW | mdioctrlW | rfcsW | rsrW | txbuffW => exact write h

theorem exec_hwaddr_landing {s : State} {base : Word} {op : Op} {ds : List DeviceMove} {more : List Move}
    {rest : List (List Move)} (ready : ReadyAt s base) (hs : s.schedule = landing ds op more :: rest) :
    exec .hwaddr s = .fault (.concurrent .hwaddr op) := by
  obtain ⟨idle, probed, hb⟩ := ready
  have first : regRead (stepNo 1) offMaclo (entered .hwaddr s) = .stop (.concurrent .hwaddr op) :=
    regRead_landing (s := entered .hwaddr s) hb mapRead_maclo hs
  exact hostCall_stop idle (by rw [resolveBody, resolveMac, entered_ctx, if_pos probed, first]; rfl)

theorem exec_recv_landing {s : State} {base : Word} {op : Op} {ds : List DeviceMove} {more : List Move}
    {rest : List (List Move)} (ready : ReadyAt s base) (started : s.ctx.started = true)
    (hs : s.schedule = landing ds op more :: rest) : exec .recv s = .fault (.concurrent .recv op) := by
  obtain ⟨idle, -, hb⟩ := ready
  have first : regRead (stepNo 1) offRsr (entered .recv s) = .stop (.concurrent .recv op) :=
    regRead_landing (s := entered .recv s) hb mapRead_rsr hs
  exact hostCall_stop idle (by rw [recvBody, entered_ctx, if_pos started, first]; rfl)

/-- Settles O29: the HOST call tests the position, and whatever an operation's body does, a landing before one of its accesses ends
it. -/
theorem concurrentCallsFault : Obligations.ConcurrentCallsFault := by
  refine ⟨fun s running k busy => ?_, fun s base op ds more rest ready hs => ?_, fun i s t op qs ds more rest h hl => ?_⟩
  · exact ⟨fun _ _ => hostCall_running busy, hostCall_running busy, hostCall_running busy, hostCall_running busy,
      hostCall_running busy, fun _ _ => hostCall_running busy⟩
  · exact ⟨exec_hwaddr_landing ready hs, fun started => exec_recv_landing ready started hs⟩
  · exact exec_landing h hl ds op more rest

end Sys2Proof.Machine
end

section
/-! The REFERENCE DEVICE's transmit registers and its receive ring under its own steps (60_exceptions.md rules R306, R309 b), with
the Ethertype operand of 30_encoding.md rule R114 and `init` as `start`. -/

namespace Sys2Proof.Machine

open Sys2Proof

/-! ## The slot that waits to be consumed -/

/-- `e` still offers the slot that `d` offers: `first` names it, the ring is not empty, and all that the slot holds is what `d`
holds there. -/
structure SameOffer (d e : Device) : Prop where
  first    : e.first = d.first
  entry    : ∀ k : Fin 8, k.val = d.first.toNat → e.rplr.get k = d.rplr.get k ∧ e.bad.get k = d.bad.get k
  bytes    : ∀ k < 0x800, Memory.readByte e.buf (0x4000 + 0x800 * d.first.toNat + k) =
    Memory.readByte d.buf (0x4000 + 0x800 * d.first.toNat + k)
  nonempty : e.first ≠ e.next

theorem SameOffer.refl {d : Device} (offers : d.first ≠ d.next) : SameOffer d d :=
  ⟨rfl, fun _ _ => ⟨rfl, rfl⟩, fun _ _ => rfl, offers⟩

/-- An arrival with room fills the slot `next` names, which is another one, and does not bring `next` round to `first`. -/
theorem arrive_sameOffer {dev : Device} (frame : List Byte) (err : BitVec 2) (fcs : BitVec 32) (ring : RingOk dev)
    (offers : dev.first ≠ dev.next) : SameOffer dev (arrive dev frame err fcs) := by
  obtain unchanged | ⟨d, hd, room, filled⟩ := arrive_cases dev frame err fcs
  · rw [unchanged]
    exact .refl offers
  · obtain ⟨h1, h8, -, hnext⟩ := ring d hd
    have apart : dev.first.toNat ≠ dev.next.toNat := mt BitVec.eq_of_toNat_eq offers
    have short := arrivalBytes_length_le frame fcs
    rw [filled, fillSlot_eq (Nat.lt_of_lt_of_le hnext h8)]
    refine ⟨rfl, fun k hk => ?entry, fun k hk => ?bytes, fun same => ?nonempty⟩
    case entry =>
      have other : k.val ≠ dev.next.toNat := hk ▸ apart
      exact ⟨(get_setIfInBounds _ _ _ k).trans (if_neg other), (get_setIfInBounds _ _ _ k).trans (if_neg other)⟩
    case bytes => exact readByte_storeBytes_outside _ _ _ _ (by omega)
    case nonempty => exact room ((ofNat_mod_toNat _ h1 h8).symm.trans (congrArg BitVec.toNat same).symm)

theorem transmitDone_sameOffer {dev : Device} (offers : dev.first ≠ dev.next) : SameOffer dev (transmitDone dev) := by
  unfold transmitDone
  split <;> exact ⟨rfl, fun _ _ => ⟨rfl, rfl⟩, fun _ _ => rfl, offers⟩

/-- Settles O49: of the DEVICE's steps only an arrival writes a slot, and never the one that `first` names. -/
theorem consumedSlotIsStable : Obligations.ConsumedSlotIsStable := by
  intro dev m ⟨ring, _⟩ offers
  have offered : SameOffer dev (referenceMove dev m) := by
    cases m with
    | arrive frame err fcs => exact arrive_sameOffer frame err fcs ring offers
    | lose frame => exact .refl offers
    | txDone => exact transmitDone_sameOffer offers
  exact ⟨offered.first, offered.entry, offered.bytes, offered.nonempty⟩

/-! ## The transmit writes -/

section

variable {s : State} (idle : s.dev.txBusy = false) (v : Word)

include idle

theorem referenceWrite_tfcs_idle : referenceWrite .tfcs v s = .ok () { s with dev := { s.dev with tfcs := v } } :=
  if_neg (ne_true_of_eq_false idle)

theorem referenceWrite_tplr_idle :
    referenceWrite .tplr v s =
      .ok () { s with draws := s.draws + 1, dev := { s.dev with txBusy := true, pending := triggeredFrame s.dev v s.draws } } :=
  if_neg (ne_true_of_eq_false idle)

theorem referenceWrite_txbuff_idle (index : BitVec 8) :
    referenceWrite (.txbuff index) v s =
      .ok () { s with dev := { s.dev with buf := Memory.storeWord s.dev.buf (0x1000 + 8 * index.toNat) v } } :=
  if_neg (ne_true_of_eq_false idle)

end

theorem triggeredFrame_within (dev : Device) {v : Word} (h : v.toNat ≤ 0x800) (seed : Nat) :
    triggeredFrame dev v seed = Memory.readBytes dev.buf 0x1000 v.toNat :=
  if_pos h

theorem readBytes_getElem? (m : Memory) (a : Nat) {n k : Nat} (hk : k < n) :
    (Memory.readBytes m a n)[k]? = some (Memory.readByte m (a + k)) := by
  rw [Memory.readBytes, List.getElem?_map, List.getElem?_range hk, Option.map_some]

/-- Settles O18: each of the three writes is refused in flight, and otherwise makes of the DEVICE what its register is for. -/
theorem referenceTransmitWrites : Obligations.ReferenceTransmitWrites := by
  refine fun s base hm hb hq => ⟨fun busy => ?_, fun (idle : (atAccess s).dev.txBusy = false) =>
    ⟨fun v => ?tfcs, fun v hv => ?tplr, fun index v => ?txbuff⟩⟩
  · exact ⟨fun v => exec_writeRow_fault (i := .tfcsW v) rfl hm hb hq (if_pos busy),
      fun v => exec_writeRow_fault (i := .tplrW v) rfl hm hb hq (if_pos busy),
      fun index v => exec_writeRow_fault (i := .txbuffW index v) rfl hm hb hq (if_pos busy)⟩
  case tfcs => exact exec_writeRow_next (i := .tfcsW v) rfl hm hb hq (referenceWrite_tfcs_idle idle v)
  case tplr =>
    obtain ⟨t, hexec, hdev⟩ := exec_writeRow_next (i := .tplrW v) rfl hm hb hq (referenceWrite_tplr_idle idle v)
    have pending : t.dev.pending = Memory.readBytes (afterOthers s).dev.buf 0x1000 v.toNat := by
      rw [hdev]
      exact triggeredFrame_within _ hv _
    refine ⟨t, hexec, by rw [hdev]; rfl, by rw [pending, readBytes_length], fun k hk => ?_⟩
    rw [pending, readBytes_getElem? _ _ hk]
  case txbuff =>
    obtain ⟨t, hexec, hdev⟩ := exec_writeRow_next (i := .txbuffW index v) rfl hm hb hq (referenceWrite_txbuff_idle idle v index)
    refine ⟨t, hexec, ?_⟩
    rw [hdev]
    exact ⟨rfl, fun j hj => readByte_storeWord_inside _ _ j v hj, fun a outside => readByte_storeWord_outside _ _ a v outside⟩

/-! ## The Ethertype operand -/

theorem etherTypeOf_packWord (f : Nat → Byte) : etherTypeOf (packWord f) = f 4 ++ f 5 :=
  congrArg₂ (· ++ ·) (packWord_extractLsb' f (j := 4) (by decide)) (packWord_extractLsb' f (j := 5) (by decide))

/-- Settles O12: bytes 4 and 5 of the word are frame bytes 12 and 13. -/
theorem ethertypeIsBytes12And13 : Obligations.EthertypeIsBytes12And13 :=
  fun f => etherTypeOf_packWord fun j => f (8 + j)

/-! ## `init` -/

/-- `init` expands to `start` (45_lifecycle.md rule R267). -/
theorem exec_init (s : State) : exec .init s = exec .start s := rfl

/-- Settles O27: `init` is run as `start`, whose accesses are those of a configured ring. -/
theorem initDoesWhatStartDoes : Obligations.InitDoesWhatStartDoes := by
  refine ⟨fun s base ready quiet hcfg => ?_, exec_init⟩
  have ⟨idle, _⟩ := ready
  obtain ⟨-, starts⟩ := startConfiguresTheRing s idle
  obtain ⟨t, maclo, machi, _, start, rfl, bus, ctx, -⟩ := starts base ready quiet hcfg
  exact ⟨t, maclo, machi, (exec_init s).trans start, start, by rw [ctx], bus⟩

end Sys2Proof.Machine
end
